-- ==== Sys2Proof/Word.lean ====
section
/-! DEFINITION. The word types of IIRCORE: every register and every memory word has 32 bits
(`00_scope.md` R6), and the byte is the addressing unit of the data memory (`20_memory.md` R70). -/

namespace Sys2Proof

/-- A 32-bit word (R6, `WORD`). -/
abbrev Word := BitVec 32

/-- One byte of the data memory (R70). -/
abbrev Byte := BitVec 8

end Sys2Proof
end

