-- ==== Sys2Proof/Machine/Flags.lean ====
section
/-! DEFINITION. The one flag state of IIRCORE, `STATUS` (`10_state.md` R37, R46), and the fault
causes it encodes (`60_exceptions.md` R341). There are no condition codes (R46). -/

namespace Sys2Proof.Machine

/-- The fault causes of R341. -/
inductive Cause where
  | illegalCommand
  | unwrittenRegister
  | paramDomain
  | designResult
  | coeffInvalid
  | valueNonfinite
  | outputNonfinite
  | accessFault
  | aliasViolation
  | unwrittenMemory
  | registerAccess
  deriving DecidableEq, Repr

/-- `code(C)` of R341. -/
def causeCode : Cause → Nat
  | .illegalCommand => 1
  | .unwrittenRegister => 2
  | .paramDomain => 3
  | .designResult => 4
  | .coeffInvalid => 5
  | .valueNonfinite => 6
  | .outputNonfinite => 7
  | .accessFault => 8
  | .aliasViolation => 9
  | .unwrittenMemory => 10
  | .registerAccess => 11

/-- `0x00000100 | code(C)`, what fault entry writes to `STATUS` (R344). -/
def statusOfCause (c : Cause) : Word := 0x100#32 ||| BitVec.ofNat 32 (causeCode c)

/-- `STATUS.CAUSE`, bits 7:0 (R37). -/
def statusCause (status : Word) : BitVec 8 := status.extractLsb' 0 8

/-- `STATUS.FAULT`, bit 8 (R37). -/
def statusFault (status : Word) : Bool := status.getLsbD 8

end Sys2Proof.Machine
end

