-- ==== Sys2Proof/Config.lean ====
section
/-! DEFINITION. What an instance of IIRCORE fixes (`00_scope.md` R6, R12) and the free values.
The open parameters are plain data (`Params`), carried by the machine's state and changed by no
step, so a statement over every state is a statement over every value of them (log 1, 2, 3, 5). -/

namespace Sys2Proof

/-- `HOST_BYTE_ORDER` (R6, R72): how a word's bytes lie in the data memory when it is viewed as
bytes. OPEN, default little-endian; no rule depends on it. -/
inductive ByteOrder where
  | little
  | big
  deriving DecidableEq, Repr

/-- Which instantiation of the numerics record `NUM` the machine has: the reference instantiation
of R13, or an external one, of whose elementary functions nothing is assumed (R12, D3; log 3). -/
inductive NumChoice where
  | reference
  | external
  deriving DecidableEq, Repr

/-- The implementation parameters of R6 and the choice of `NUM` of R12. POR does not change them
(R380). -/
structure Params where
  /-- `MEM_SIZE`: the size of the data memory in bytes. -/
  memSize   : Nat
  /-- `HOST_BYTE_ORDER`. -/
  byteOrder : ByteOrder
  /-- `FTZ`: subnormal operands and results are flushed (R6, D50; log 5). -/
  ftz       : Bool
  /-- The instantiation of `NUM`. -/
  num       : NumChoice
  deriving DecidableEq, Repr

/-- FREE VALUE (R12, D3; log 3): the `tanF` of an external numerics record. -/
opaque Config.tanF : Word → Word

/-- FREE VALUE (R12, D3; log 3): the `sqrtF` of an external numerics record. -/
opaque Config.sqrtF : Word → Word

/-- FREE VALUE (R12, D3; log 3): the `pow2F` of an external numerics record. -/
opaque Config.pow2F : Word → Word

/-- FREE VALUE (R12, D3; log 3): the `rcpF` of an external numerics record. -/
opaque Config.rcpF : Word → Word

/-- FREE VALUE (R12, D3; log 3): the `dB2linF` of an external numerics record. -/
opaque Config.dB2linF : Word → Word

end Sys2Proof
end

