-- ==== Sys2Proof/Machine/Binary32.lean ====
section
/-! DEFINITION. IEEE 754 binary32 arithmetic with round to nearest, ties to even, on words
(`00_scope.md` R11, R13, D2). Every operation computes the exact result as an integer scaled by a
power of two and rounds it once. -/

namespace Sys2Proof.Machine.F32

/-- The sign bit. -/
def isNeg (w : Word) : Bool := w.getLsbD 31

/-- The word without its sign, as a number: it orders the magnitudes. -/
def mag (w : Word) : Nat := w.toNat % 2 ^ 31

/-- The biased exponent field. -/
def expo (w : Word) : Nat := mag w / 2 ^ 23

/-- The fraction field. -/
def frac (w : Word) : Nat := w.toNat % 2 ^ 23

/-- Neither an infinity nor a NaN (R11, `isFinite`). -/
def isFinite (w : Word) : Bool := decide (mag w < 0x7F800000)

/-- An infinity. -/
def isInf (w : Word) : Bool := mag w == 0x7F800000

/-- A NaN. -/
def isNan (w : Word) : Bool := decide (0x7F800000 < mag w)

/-- A zero of either sign. -/
def isZero (w : Word) : Bool := mag w == 0

/-- A subnormal number: not zero, exponent field 0. -/
def isSubnormal (w : Word) : Bool := expo w == 0 && !isZero w

/-- The integer significand of a finite word. -/
def signif (w : Word) : Nat := if expo w = 0 then frac w else 2 ^ 23 + frac w

/-- The exponent of a finite word's significand: the word stands for `±signif · 2^scale`. -/
def scale (w : Word) : Int := (max (expo w) 1 : Nat) - 150

/-- `+0`. -/
def posZero : Word := 0x00000000
/-- `1`. -/
def one : Word := 0x3F800000
/-- `2`. -/
def two : Word := 0x40000000
/-- `−1`. -/
def negOne : Word := 0xBF800000
/-- The word a NaN result has (the spec names no payload; log 6). -/
def nan : Word := 0x7FC00000

/-- A word from its sign and its magnitude bits. -/
def pack (neg : Bool) (m : Nat) : Word := BitVec.ofNat 32 (if neg then 2 ^ 31 + m else m)

/-- An infinity of a sign. -/
def inf (neg : Bool) : Word := pack neg 0x7F800000

/-- `m / 2^d` rounded to the nearest integer, ties to even. -/
def shiftRne (m d : Nat) : Nat :=
  let n := m >>> d
  let twice := 2 * (m % 2 ^ d)
  if 2 ^ d < twice || (twice == 2 ^ d && n % 2 == 1) then n + 1 else n

/-- The magnitude bits of `m · 2^e` rounded to nearest, ties to even: gradual underflow below
`2^-126`, infinity above the largest finite number. -/
def roundMag (m : Nat) (e : Int) : Nat :=
  if m = 0 then 0
  else
    let top : Int := m.log2 + e
    if top < -150 then 0
    else
      let quantum : Int := max (top - 23) (-149)
      let n := if quantum ≤ e then m <<< (e - quantum).toNat else shiftRne m (quantum - e).toNat
      let bits : Int := (quantum + 149) * 2 ^ 23 + n
      if 0x7F800000 ≤ bits then 0x7F800000 else bits.toNat

/-- `±m · 2^e` rounded to binary32. -/
def round (neg : Bool) (m : Nat) (e : Int) : Word := pack neg (roundMag m e)

/-- Exact negation, a sign flip (R11). -/
def neg (w : Word) : Word := w ^^^ 0x80000000#32

/-- Exact absolute value (R11). -/
def abs (w : Word) : Word := w &&& 0x7FFFFFFF#32

/-- The signed integer that orders the words that are not NaN; `-0` and `+0` share it. -/
def orderKey (w : Word) : Int := if isNeg w then -(mag w : Int) else mag w

/-- IEEE `<`: false when an operand is NaN (R11). -/
def lt (a b : Word) : Bool := !isNan a && !isNan b && decide (orderKey a < orderKey b)

/-- IEEE `<=` (R11). -/
def le (a b : Word) : Bool := !isNan a && !isNan b && decide (orderKey a ≤ orderKey b)

/-- IEEE `==` (R11). -/
def eqv (a b : Word) : Bool := !isNan a && !isNan b && decide (orderKey a = orderKey b)

/-- `min(a, b)` of R11: `a` if `a <= b`, else `b`. -/
def min (a b : Word) : Word := if le a b then a else b

/-- The signed significand of a finite word, scaled to the exponent `e ≤ scale w`. -/
def scaled (w : Word) (e : Int) : Int :=
  let m : Int := (signif w <<< (scale w - e).toNat : Nat)
  if isNeg w then -m else m

/-- The exact sum of two finite words, rounded. An exact zero is `-0` only when both operands are
negative. -/
def addFinite (a b : Word) : Word :=
  let e := Min.min (scale a) (scale b)
  let sum := scaled a e + scaled b e
  if sum = 0 then pack (isNeg a && isNeg b) 0
  else round (decide (sum < 0)) sum.natAbs e

/-- IEEE addition. -/
def add (a b : Word) : Word :=
  if isNan a || isNan b then nan
  else if isInf a then (if isInf b && (isNeg a != isNeg b) then nan else inf (isNeg a))
  else if isInf b then inf (isNeg b)
  else addFinite a b

/-- IEEE subtraction. -/
def sub (a b : Word) : Word := add a (neg b)

/-- IEEE multiplication. -/
def mul (a b : Word) : Word :=
  let s := isNeg a != isNeg b
  if isNan a || isNan b then nan
  else if isInf a then (if isZero b then nan else inf s)
  else if isInf b then (if isZero a then nan else inf s)
  else round s (signif a * signif b) (scale a + scale b)

/-- `n / d · 2^e` rounded to nearest, for `d ≠ 0`: 64 extra quotient bits and a sticky bit. -/
def roundRatio (s : Bool) (n d : Nat) (e : Int) : Word :=
  let m := n <<< 64
  round s (2 * (m / d) + (if m % d = 0 then 0 else 1)) (e - 65)

/-- IEEE division. -/
def div (a b : Word) : Word :=
  let s := isNeg a != isNeg b
  if isNan a || isNan b then nan
  else if isInf a then (if isInf b then nan else inf s)
  else if isInf b then pack s 0
  else if isZero b then (if isZero a then nan else inf s)
  else roundRatio s (signif a) (signif b) (scale a - scale b)

/-- Subnormals flushed to a zero of their sign (log 5). -/
def flush (w : Word) : Word := if isSubnormal w then w &&& 0x80000000#32 else w

/-- The binary32 word nearest (ties to even) to `±digits · 10^exponent` (R14, R110). -/
def ofDecimal (s : Bool) (digits : Nat) (exponent : Int) : Word :=
  if digits = 0 then pack s 0
  else if 0 ≤ exponent then round s (digits * 10 ^ exponent.toNat) 0
  else
    -- enough quotient bits that the sticky bit lies below the rounding position
    let d := 10 ^ (-exponent).toNat
    let k := d.log2 + 64
    let m := digits <<< k
    round s (2 * (m / d) + (if m % d = 0 then 0 else 1)) (-(k : Int) - 1)

end Sys2Proof.Machine.F32
end

