-- ==== Sys2Proof/Machine/Elementary.lean ====
section
/-! DEFINITION. The elementary functions of the reference instantiation of `NUM` (`00_scope.md`
R13): `sqrtF` is the IEEE square root, and `tanF`, `pow2F`, `rcpF` and `dB2linF` return the
binary32 word nearest to the exact value. The transcendental ones are evaluated in fixed point
with 320 fraction bits and rounded once (log 4). -/

namespace Sys2Proof.Machine.F32

/-- Fraction bits of the fixed-point numbers of this file. -/
def fixBits : Nat := 320

/-- `⌊π · 2^320⌋`. -/
def piFix : Nat :=
  0x3243f6a8885a308d313198a2e03707344a4093822299f31d0082efa98ec4e6c89452821e638d01377

/-- `⌊ln 2 · 2^320⌋`. -/
def ln2Fix : Nat :=
  0xb17217f7d1cf79abc9e3b39803f2f6af40f343267298b62d8a0d175b8baafa2be7b876206debac98

/-- `⌊(log2 10 / 20) · 2^400⌋`. -/
def octavesPerDb : Nat :=
  0x2a854b425c38b5660ea2649975eff8a8f848ddffa4bd890fb6be22801a2e4dec347a9cc61f91063ed93a8c88ad89025e040a

/-- The magnitude of a finite word in fixed point (exact: the least scale is `2^-149`). -/
def fixOf (w : Word) : Nat := signif w <<< (scale w + fixBits).toNat

/-- `t − t·r²/((k+1)(k+2)) + …`, the alternating series of the sine and the cosine, `n` terms. -/
def altSeries (r2 : Nat) : (n k t : Nat) → Int
  | 0, _, _ => 0
  | n + 1, k, t => t - altSeries r2 n (k + 2) ((t * r2) >>> fixBits / ((k + 1) * (k + 2)))

/-- `t + t·x/(k+1) + …`, the series of the exponential, `n` terms. -/
def expSeries (x : Nat) : (n k t : Nat) → Nat
  | 0, _, _ => 0
  | n + 1, k, t => t + expSeries x n (k + 1) ((t * x) >>> fixBits / (k + 1))

/-- The sine of a fixed-point angle in `[0, π/2]`. -/
def sinFix (r : Nat) : Int := altSeries ((r * r) >>> fixBits) 45 1 r

/-- The cosine of a fixed-point angle in `[0, π/2]`. -/
def cosFix (r : Nat) : Int := altSeries ((r * r) >>> fixBits) 45 0 (1 <<< fixBits)

/-- The tangent of `±(n / 2^320)`, reduced to `[−π/2, π/2]` and rounded. -/
def tanFix (s : Bool) (n : Nat) : Word :=
  let turns := (2 * n + piFix) / (2 * piFix)
  let r : Int := (n : Int) - (turns * piFix : Nat)
  let a := r.natAbs
  round (s != decide (r < 0)) (2 * (((sinFix a).toNat <<< 320) / (cosFix a).toNat) + 1) (-321)

/-- `tanF` of R13. -/
def tanRef (w : Word) : Word :=
  if !isFinite w then nan
  else if isZero w then w
  else tanFix (isNeg w) (fixOf w)

/-- `2^(y / 2^320)` rounded. An integer exponent is exact; elsewhere the power is irrational, and
the last bit marks it so. -/
def pow2Fix (y : Int) : Word :=
  let n := y / 2 ^ fixBits
  let f := (y % 2 ^ fixBits).toNat
  if f = 0 then round false 1 n
  else round false (2 * expSeries ((f * ln2Fix) >>> fixBits) 75 0 (1 <<< fixBits) + 1)
    (n - fixBits - 1)

/-- `pow2F` of R13. -/
def pow2Ref (w : Word) : Word :=
  if isNan w then nan
  else if isInf w then (if isNeg w then posZero else inf false)
  else pow2Fix (if isNeg w then -(fixOf w : Int) else fixOf w)

/-- `|w| · (log2 10 / 20)` in fixed point, for a finite `w`. -/
def octavesOfDb (w : Word) : Nat :=
  let p := signif w * octavesPerDb
  let sh := scale w + fixBits - 400
  if 0 ≤ sh then p <<< sh.toNat else p >>> (-sh).toNat

/-- `dB2linF` of R13, `10^(x/20)`. Beyond 8192 dB the result is out of the format on either side. -/
def dB2linRef (w : Word) : Word :=
  if isNan w then nan
  else if lt 0x46000000 w then inf false
  else if lt w 0xC6000000 then posZero
  else pow2Fix (if isNeg w then -(octavesOfDb w : Int) else octavesOfDb w)

/-- `rcpF` of R13: `1/x` rounded, with `rcpF(±0) = ±inf` and `rcpF(±inf) = ±0`. -/
def rcpRef (w : Word) : Word := div one w

/-- `⌊√m⌋` by bits, from bit `n − 1` of the root down, starting at `acc`. -/
def sqrtBits (m : Nat) : (n acc : Nat) → Nat
  | 0, acc => acc
  | n + 1, acc =>
    let t := acc + 2 ^ n
    sqrtBits m n (if t * t ≤ m then t else acc)

/-- `sqrtF` of R13, the IEEE square root: `√-0 = -0`, and NaN for a negative argument. -/
def sqrtRef (w : Word) : Word :=
  if isNan w then nan
  else if isZero w then w
  else if isNeg w then nan
  else if isInf w then w
  else
    -- scaled so that the exponent is even and the root has at least 32 bits
    let extra : Nat := if scale w % 2 = 0 then 64 else 65
    let m := signif w <<< extra
    let r := sqrtBits m 46 0
    round false (2 * r + (if r * r = m then 0 else 1)) ((scale w - extra) / 2 - 1)

end Sys2Proof.Machine.F32
end

