-- ==== Sys2Proof/Machine/Numerics.lean ====
section
/-! DEFINITION. The numerics record `NUM` (`00_scope.md` R12) and its instantiations, the constants
of R14, and the value formulas of the spec over any arithmetic: the bilinear helpers
(`40_designer_shared.md` R151, R152), the recursion (`44_engine_process.md` R300, R301) and the
reset (`43_engine_reset.md` R272, R273). The same formulas over the rationals are their ideal
meaning (R15). -/

namespace Sys2Proof.Machine

/-- What the value formulas need of an arithmetic. `eqv` is the comparison `==`. -/
structure Arith (α : Type) where
  zero : α
  one : α
  two : α
  add : α → α → α
  sub : α → α → α
  mul : α → α → α
  div : α → α → α
  rcp : α → α
  eqv : α → α → Bool

/-- The numerics record `NUM` of R12: the binary32 operations with `rcp` as `rcpF`, and the other
elementary functions. -/
structure Num extends Arith Word where
  tanF : Word → Word
  sqrtF : Word → Word
  pow2F : Word → Word
  dB2linF : Word → Word

/-- A one-operand function of `NUM` under `FTZ` (log 5). -/
def unaryOp (ftz : Bool) (f : Word → Word) (a : Word) : Word :=
  if ftz then F32.flush (f (F32.flush a)) else f a

/-- A two-operand function of `NUM` under `FTZ` (log 5). -/
def binaryOp (ftz : Bool) (f : Word → Word → Word) (a b : Word) : Word :=
  if ftz then F32.flush (f (F32.flush a) (F32.flush b)) else f a b

/-- The reference function of R13 or the free one of R12. -/
def chooseOp (c : NumChoice) (ref ext : Word → Word) : Word → Word :=
  match c with
  | .reference => ref
  | .external => ext

/-- The numerics record of a configuration (R12, R13). -/
def numOf (p : Params) : Num where
  zero    := F32.posZero
  one     := F32.one
  two     := F32.two
  add     := binaryOp p.ftz F32.add
  sub     := binaryOp p.ftz F32.sub
  mul     := binaryOp p.ftz F32.mul
  div     := binaryOp p.ftz F32.div
  rcp     := unaryOp p.ftz (chooseOp p.num F32.rcpRef Config.rcpF)
  eqv     := F32.eqv
  tanF    := unaryOp p.ftz (chooseOp p.num F32.tanRef Config.tanF)
  sqrtF   := unaryOp p.ftz (chooseOp p.num F32.sqrtRef Config.sqrtF)
  pow2F   := unaryOp p.ftz (chooseOp p.num F32.pow2Ref Config.pow2F)
  dB2linF := unaryOp p.ftz (chooseOp p.num F32.dB2linRef Config.dB2linF)

/-- The ideal arithmetic of R15 over the rationals (log 18). -/
def idealArith : Arith Rat where
  zero := 0
  one  := 1
  two  := 2
  add  := fun a b => a + b
  sub  := fun a b => a - b
  mul  := fun a b => a * b
  div  := fun a b => a / b
  rcp  := fun a => 1 / a
  eqv  := fun a b => decide (a = b)

/-! The constants of R14. -/

/-- π. -/
def piF : Word := 0x40490FDB
/-- 0.499. -/
def c0499 : Word := 0x3EFF7CEE
/-- 1e-6, the least frequency. -/
def fMin : Word := 0x358637BD
/-- 1e12, the greatest frequency. -/
def fMax : Word := 0x5368D4A5
/-- 1e-6, the least `Q`. -/
def qMin : Word := 0x358637BD
/-- 1e6, the greatest `Q`. -/
def qMax : Word := 0x49742400
/-- 1e-30, the least linear gain. -/
def gMin : Word := 0x0DA24260
/-- 1e30, the greatest linear gain. -/
def gMax : Word := 0x7149F2CA
/-- -600 dB. -/
def dbMin : Word := 0xC4160000
/-- 600 dB. -/
def dbMax : Word := 0x44160000
/-- 90 octaves. -/
def bwMax : Word := 0x42B40000

/-! Coefficient sets and state cells (`10_state.md` R32, R33). -/

/-- A first-order set `(b0, b1, a1)`. -/
structure Coef1 (α : Type) where
  b0 : α
  b1 : α
  a1 : α
  deriving DecidableEq, Repr

/-- A second-order set `(b0, b1, b2, a1, a2)`. -/
structure Coef2 (α : Type) where
  b0 : α
  b1 : α
  b2 : α
  a1 : α
  a2 : α
  deriving DecidableEq, Repr

/-- A coefficient set of either order. -/
inductive Coefs (α : Type) where
  | first (c : Coef1 α)
  | second (c : Coef2 α)
  deriving DecidableEq, Repr

/-- A channel's state cell. The first order uses `s1` alone, the document's `s` (R33). -/
structure Cell (α : Type) where
  s1 : α
  s2 : α
  deriving DecidableEq, Repr

/-- The order of a command (R101). -/
inductive Order where
  | first
  | second
  deriving DecidableEq, Repr

/-- The words of a state cell (`20_memory.md` R80, `ORDER`). -/
def orderWords : Order → Nat
  | .first => 1
  | .second => 2

/-- The order of a coefficient set. -/
def orderOf {α : Type} : Coefs α → Order
  | .first _ => .first
  | .second _ => .second

/-! The value formulas, each in the parenthesisation of its rule (R11). -/

/-- `BL1(k, β1, β0)` of R151. -/
def bl1 {α : Type} (A : Arith α) (k beta1 beta0 : α) : Coef1 α :=
  let d := A.rcp (A.add A.one k)
  { a1 := A.mul (A.sub k A.one) d
    b0 := A.mul (A.add beta1 (A.mul beta0 k)) d
    b1 := A.mul (A.sub (A.mul beta0 k) beta1) d }

/-- `BL2(k, q, α2, μ, α0)` of R152. -/
def bl2 {α : Type} (A : Arith α) (k q alpha2 mu alpha0 : α) : Coef2 α :=
  let kq := A.div k q
  let k2 := A.mul k k
  let d := A.rcp (A.add (A.add A.one kq) k2)
  { a1 := A.mul (A.mul A.two (A.sub k2 A.one)) d
    a2 := A.mul (A.add (A.sub A.one kq) k2) d
    b0 := A.mul (A.add (A.add alpha2 (A.mul mu kq)) (A.mul alpha0 k2)) d
    b1 := A.mul (A.mul A.two (A.sub (A.mul alpha0 k2) alpha2)) d
    b2 := A.mul (A.add (A.sub alpha2 (A.mul mu kq)) (A.mul alpha0 k2)) d }

/-- The values `(y, s')` of the first-order step (R300). -/
def stepValues1 {α : Type} (A : Arith α) (c : Coef1 α) (x s : α) : α × α :=
  let y := A.add (A.mul c.b0 x) s
  (y, A.sub (A.mul c.b1 x) (A.mul c.a1 y))

/-- The values `(y, s1', s2')` of the second-order step (R301). -/
def stepValues2 {α : Type} (A : Arith α) (c : Coef2 α) (x s1 s2 : α) : α × α × α :=
  let y := A.add (A.mul c.b0 x) s1
  (y, A.add (A.sub (A.mul c.b1 x) (A.mul c.a1 y)) s2, A.sub (A.mul c.b2 x) (A.mul c.a2 y))

/-- The values `(y0, s)` of the first-order reset (R272); `negOne` is the constant `−1` of the
boundary test. -/
def resetValues1 {α : Type} (A : Arith α) (negOne : α) (c : Coef1 α) (x0 : α) : α × α :=
  if A.eqv c.a1 negOne then (A.zero, A.zero)
  else
    let d := A.rcp (A.add A.one c.a1)
    let kx := A.mul d x0
    (A.mul kx (A.add c.b0 c.b1), A.mul kx (A.sub c.b1 (A.mul c.a1 c.b0)))

/-- The values `(y0, s1, s2)` of the second-order reset (R273). -/
def resetValues2 {α : Type} (A : Arith α) (negOne : α) (c : Coef2 α) (x0 : α) : α × α × α :=
  let sa := A.add c.a1 c.a2
  if A.eqv sa negOne then (A.zero, A.zero, A.zero)
  else
    let d := A.rcp (A.add A.one sa)
    let kx := A.mul d x0
    (A.mul kx (A.add (A.add c.b0 c.b1) c.b2),
     A.mul kx (A.sub (A.add c.b1 c.b2) (A.mul c.b0 sa)),
     A.mul kx (A.sub (A.mul c.b2 (A.add A.one c.a1)) (A.mul c.a2 (A.add c.b0 c.b1))))

/-- `BwToQ(b, G)` of R234. -/
def bwToQ (N : Num) (b g : Word) : Word :=
  let r := N.pow2F b
  N.div (N.sqrtF (N.mul r g)) (N.sub r N.one)

/-- `WarpRatio(fs, fc, fe, pf, fp)` of R149. -/
def warpRatio (N : Num) (fs fc fe : Word) (pf : Bool) (fp : Word) : Word :=
  let fw := if pf then fp else fc
  let fwc := F32.min fw (N.mul c0499 fs)
  let t := N.tanF (N.div (N.mul piF fwc) fs)
  N.mul t (N.div fe fwc)

/-- `Stable1(a1)` of R154. -/
def stable1 (a1 : Word) : Bool :=
  F32.isFinite a1 && F32.le F32.negOne a1 && F32.le a1 F32.one

/-- `Stable2(a1, a2)` of R154. -/
def stable2 (N : Num) (a1 a2 : Word) : Bool :=
  F32.isFinite a1 && F32.isFinite a2 && F32.le (F32.abs a1) F32.two
    && F32.le (N.sub (F32.abs a1) N.one) a2 && F32.le a2 F32.one

/-- The set is finite and stable: the test of `CheckDesign` (R155) and of `CoefCheck` (R271). -/
def coefsValid (N : Num) : Coefs Word → Bool
  | .first c => F32.isFinite c.b0 && F32.isFinite c.b1 && F32.isFinite c.a1 && stable1 c.a1
  | .second c => F32.isFinite c.b0 && F32.isFinite c.b1 && F32.isFinite c.b2
      && F32.isFinite c.a1 && F32.isFinite c.a2 && stable2 N c.a1 c.a2

end Sys2Proof.Machine
end

