-- ==== Sys2Proof/Syntax.lean ====
section
/-! DEFINITION. The syntax of IIRCORE-CMD: the registers a command may read or write, the 36
commands of `opcode_table.json`, the fields of a command word, and the host's port operations
(`10_state.md` R30, `30_encoding.md` R100 to R109, `20_memory.md` R71). -/

namespace Sys2Proof

/-- The value registers 0 to 23, by the names of R30. -/
inductive Reg where
  | fs | fc | fp | q | bw | gain | cx | clp | cbp | chp
  | b0 | b1 | b2 | a1 | a2
  | x | y | s1 | s2
  | xptr | yptr | sptr | ns | nch
  deriving DecidableEq, Repr

/-- The commands, one constructor per row of the opcode table (R108). A designer's `pf` is its
free bit `PF` (R102). -/
inductive Instr where
  | lp1 (pf : Bool)
  | hp1 (pf : Bool)
  | ap1 (pf : Bool)
  | ls1 (pf : Bool)
  | ls1Db (pf : Bool)
  | hs1 (pf : Bool)
  | hs1Db (pf : Bool)
  | mm1 (pf : Bool)
  | lp2 (pf : Bool)
  | hp2 (pf : Bool)
  | ap2 (pf : Bool)
  | ls2 (pf : Bool)
  | ls2Db (pf : Bool)
  | hs2 (pf : Bool)
  | hs2Db (pf : Bool)
  | mm2 (pf : Bool)
  | bp2 (pf : Bool)
  | notch2 (pf : Bool)
  | peak2 (pf : Bool)
  | peak2Db (pf : Bool)
  | peak2Bw (pf : Bool)
  | peak2BwDb (pf : Bool)
  | rst1
  | proc1
  | procn1
  | rstm1Y
  | rstm1S
  | rstm1Ys
  | procm1
  | rst2
  | proc2
  | procn2
  | rstm2Y
  | rstm2S
  | rstm2Ys
  | procm2
  deriving DecidableEq, Repr

/-- The fields of a command word below its reserved bits (R100). -/
structure CmdFields where
  op : BitVec 8
  pf : Bool
  db : Bool
  bw : Bool
  wy : Bool
  ws : Bool
  deriving DecidableEq, Repr

/-- The five operations of the host port (R71). A register number has 5 bits (R6), an address 32. -/
inductive HostOp where
  | wr (n : Fin 32) (v : Word)
  | rd (n : Fin 32)
  | wrm (a v : Word)
  | rdm (a : Word)
  | por
  deriving DecidableEq, Repr

/-- What a host read returned: a register's or a memory word's value, or no value (R35, R71, R110). -/
inductive HostRead where
  | reg (n : Fin 32) (v : Option Word)
  | mem (a : Word) (v : Option Word)
  deriving DecidableEq, Repr

end Sys2Proof
end

