-- ==== Sys2Proof/Decode.lean ====
section
/-! DEFINITION. The decoder of a command word, written from `Decode` of `30_encoding.md` R105, and
after it the encoder, written from the tables of R100, R101 and R108. -/

namespace Sys2Proof

/-- Why a word is no command (R105). Each of them is the fault `ILLEGAL_COMMAND`. -/
inductive DecodeError where
  /-- `w[31:13] ≠ 0`. -/
  | reservedBits
  /-- `OP` is not in the table of R101. -/
  | unknownOp
  /-- `PF` on a command that is no designer. -/
  | pfOnEngine
  /-- `DB` on a kind that takes no gain. -/
  | dbWithoutGain
  /-- `BW` on a kind other than `PEAK2`. -/
  | bwNotPeak
  /-- `RSTM1` or `RSTM2` with neither output wanted. -/
  | noOutputWanted
  /-- `WY` or `WS` on a kind other than `RSTM1` and `RSTM2`. -/
  | outputFlag
  deriving DecidableEq, Repr

/-- The operation kinds, the mnemonics of R101. -/
inductive Kind where
  | LP1 | HP1 | AP1 | LS1 | HS1 | MM1
  | LP2 | HP2 | AP2 | LS2 | HS2 | MM2 | BP2 | NOTCH2 | PEAK2
  | RST1 | PROC1 | PROCN1 | RSTM1 | PROCM1
  | RST2 | PROC2 | PROCN2 | RSTM2 | PROCM2
  deriving DecidableEq, Repr

/-- The kind of an `OP` value (R101). -/
def kindOfOp (op : Nat) : Option Kind :=
  match op with
  | 0x10 => some .LP1
  | 0x11 => some .HP1
  | 0x12 => some .AP1
  | 0x13 => some .LS1
  | 0x14 => some .HS1
  | 0x15 => some .MM1
  | 0x20 => some .LP2
  | 0x21 => some .HP2
  | 0x22 => some .AP2
  | 0x23 => some .LS2
  | 0x24 => some .HS2
  | 0x25 => some .MM2
  | 0x26 => some .BP2
  | 0x27 => some .NOTCH2
  | 0x28 => some .PEAK2
  | 0x40 => some .RST1
  | 0x41 => some .PROC1
  | 0x42 => some .PROCN1
  | 0x43 => some .RSTM1
  | 0x44 => some .PROCM1
  | 0x50 => some .RST2
  | 0x51 => some .PROC2
  | 0x52 => some .PROCN2
  | 0x53 => some .RSTM2
  | 0x54 => some .PROCM2
  | _ => none

/-- The designers: `OP[7:4]` is `0x1` or `0x2` (R105). -/
def isDesignerOp (op : Nat) : Bool := op / 16 == 1 || op / 16 == 2

/-- The kinds on which `DB` is legal (R105). -/
def takesGain : Kind → Bool
  | .LS1 | .HS1 | .LS2 | .HS2 | .PEAK2 => true
  | _ => false

/-- The batched resets (R105). -/
def isBatchedReset : Kind → Bool
  | .RSTM1 | .RSTM2 => true
  | _ => false

/-- The command of a kind with legal flags (R101, R102, R108). -/
def instrOfKind (k : Kind) (pf db bw wy ws : Bool) : Instr :=
  match k with
  | .LP1 => .lp1 pf
  | .HP1 => .hp1 pf
  | .AP1 => .ap1 pf
  | .LS1 => if db then .ls1Db pf else .ls1 pf
  | .HS1 => if db then .hs1Db pf else .hs1 pf
  | .MM1 => .mm1 pf
  | .LP2 => .lp2 pf
  | .HP2 => .hp2 pf
  | .AP2 => .ap2 pf
  | .LS2 => if db then .ls2Db pf else .ls2 pf
  | .HS2 => if db then .hs2Db pf else .hs2 pf
  | .MM2 => .mm2 pf
  | .BP2 => .bp2 pf
  | .NOTCH2 => .notch2 pf
  | .PEAK2 =>
    if bw then (if db then .peak2BwDb pf else .peak2Bw pf)
    else (if db then .peak2Db pf else .peak2 pf)
  | .RST1 => .rst1
  | .PROC1 => .proc1
  | .PROCN1 => .procn1
  | .RSTM1 => if wy then (if ws then .rstm1Ys else .rstm1Y) else .rstm1S
  | .PROCM1 => .procm1
  | .RST2 => .rst2
  | .PROC2 => .proc2
  | .PROCN2 => .procn2
  | .RSTM2 => if wy then (if ws then .rstm2Ys else .rstm2Y) else .rstm2S
  | .PROCM2 => .procm2

/-- The checks of R105 after the `OP` table, in its order. -/
def decodeFlags (k : Kind) (designer pf db bw wy ws : Bool) : Except DecodeError Instr :=
  if !designer && pf then .error .pfOnEngine
  else if db && !takesGain k then .error .dbWithoutGain
  else if bw && !(k == .PEAK2) then .error .bwNotPeak
  else if isBatchedReset k then
    if !wy && !ws then .error .noOutputWanted
    else .ok (instrOfKind k pf db bw wy ws)
  else if wy || ws then .error .outputFlag
  else .ok (instrOfKind k pf db bw wy ws)

/-- `Decode(w)` of R105: total on the `2^32` words, refusing by name. -/
def decode (w : Word) : Except DecodeError Instr :=
  if w.extractLsb' 13 19 ≠ 0#19 then .error .reservedBits
  else
    let op := (w.extractLsb' 0 8).toNat
    match kindOfOp op with
    | none => .error .unknownOp
    | some k =>
      decodeFlags k (isDesignerOp op) (w.getLsbD 8) (w.getLsbD 9) (w.getLsbD 10)
        (w.getLsbD 11) (w.getLsbD 12)

/-- The fields of a command (R100, R101, R102, R109). -/
def instrFields : Instr → CmdFields
  | .lp1 pf => ⟨0x10, pf, false, false, false, false⟩
  | .hp1 pf => ⟨0x11, pf, false, false, false, false⟩
  | .ap1 pf => ⟨0x12, pf, false, false, false, false⟩
  | .ls1 pf => ⟨0x13, pf, false, false, false, false⟩
  | .ls1Db pf => ⟨0x13, pf, true, false, false, false⟩
  | .hs1 pf => ⟨0x14, pf, false, false, false, false⟩
  | .hs1Db pf => ⟨0x14, pf, true, false, false, false⟩
  | .mm1 pf => ⟨0x15, pf, false, false, false, false⟩
  | .lp2 pf => ⟨0x20, pf, false, false, false, false⟩
  | .hp2 pf => ⟨0x21, pf, false, false, false, false⟩
  | .ap2 pf => ⟨0x22, pf, false, false, false, false⟩
  | .ls2 pf => ⟨0x23, pf, false, false, false, false⟩
  | .ls2Db pf => ⟨0x23, pf, true, false, false, false⟩
  | .hs2 pf => ⟨0x24, pf, false, false, false, false⟩
  | .hs2Db pf => ⟨0x24, pf, true, false, false, false⟩
  | .mm2 pf => ⟨0x25, pf, false, false, false, false⟩
  | .bp2 pf => ⟨0x26, pf, false, false, false, false⟩
  | .notch2 pf => ⟨0x27, pf, false, false, false, false⟩
  | .peak2 pf => ⟨0x28, pf, false, false, false, false⟩
  | .peak2Db pf => ⟨0x28, pf, true, false, false, false⟩
  | .peak2Bw pf => ⟨0x28, pf, false, true, false, false⟩
  | .peak2BwDb pf => ⟨0x28, pf, true, true, false, false⟩
  | .rst1 => ⟨0x40, false, false, false, false, false⟩
  | .proc1 => ⟨0x41, false, false, false, false, false⟩
  | .procn1 => ⟨0x42, false, false, false, false, false⟩
  | .rstm1Y => ⟨0x43, false, false, false, true, false⟩
  | .rstm1S => ⟨0x43, false, false, false, false, true⟩
  | .rstm1Ys => ⟨0x43, false, false, false, true, true⟩
  | .procm1 => ⟨0x44, false, false, false, false, false⟩
  | .rst2 => ⟨0x50, false, false, false, false, false⟩
  | .proc2 => ⟨0x51, false, false, false, false, false⟩
  | .procn2 => ⟨0x52, false, false, false, false, false⟩
  | .rstm2Y => ⟨0x53, false, false, false, true, false⟩
  | .rstm2S => ⟨0x53, false, false, false, false, true⟩
  | .rstm2Ys => ⟨0x53, false, false, false, true, true⟩
  | .procm2 => ⟨0x54, false, false, false, false, false⟩

/-- The word of a set of fields, its reserved bits 0 (R100). -/
def fieldsWord (f : CmdFields) : Word :=
  0#19 ++ BitVec.ofBool f.ws ++ BitVec.ofBool f.wy ++ BitVec.ofBool f.bw ++ BitVec.ofBool f.db
    ++ BitVec.ofBool f.pf ++ f.op

/-- The command word of a command (R108, R109). -/
def encode (i : Instr) : Word := fieldsWord (instrFields i)

/-- The command that the decoder reads from a word numbered as `opcode_table.json` numbers its
bits. Every command is one 32-bit word, so the bits from `nbits` up are 0 (R100). -/
def decodeTableWord (nbits w : Nat) : Option Instr :=
  match decode (BitVec.ofNat 32 (w % 2 ^ nbits)) with
  | .ok i => some i
  | .error _ => none

end Sys2Proof
end

