-- ==== Sys2Proof/Machine/State.lean ====
section
/-! DEFINITION. The architectural state of IIRCORE (`10_state.md` R30), the configuration it runs
with, the host's pending actions, and the state after power-on reset (R48, `70_reset_and_hazards.md`
R380). -/

namespace Sys2Proof.Machine

/-- The data memory with its written-bits (`20_memory.md` R70, R76), as bytes at rising addresses.
An unlisted byte holds no value, and a word is written (`mwr = 1`) exactly when its four bytes are
listed (log 8). -/
abbrev Memory := List Host.Cell

/-- The machine's state. The first field is the configuration (R6), the fields up to `mem` are the
tuple of R30, and the last two are the model's own record of the host (log 9, 10). -/
structure State where
  /-- `MEM_SIZE`, `HOST_BYTE_ORDER`, `FTZ` and the choice of `NUM` (R6, R12). No step changes it. -/
  params    : Params
  /-- `reg[0..23]`, by register number (R30, R43). -/
  regs      : Vector Word 24
  /-- `wr[0..23]`, the written-bits (R35). -/
  wr        : Vector Bool 24
  /-- `reg[31]`, `CMD`: the last command word stored (R41). -/
  cmd       : Word
  /-- `wr[31]` (R35, R41). -/
  cmdWr     : Bool
  /-- `STATUS`, register 30 (R37). -/
  status    : Word
  /-- `FCMD`, register 27 (R38). -/
  fcmd      : Word
  /-- `FINFO`, register 28 (R39). -/
  finfo     : Word
  /-- `FCH`, register 29 (R40). -/
  fch       : Word
  /-- `halted` (R42). -/
  halted    : Bool
  /-- `mem` and `mwr` (R70, R76). -/
  mem       : Memory
  /-- The host's pending port operations, oldest first (log 9). -/
  hostQueue : List HostOp
  /-- What the host's reads returned, newest first (log 10). -/
  observed  : List HostRead
  deriving DecidableEq, Repr

/-- Faults that stop the machine: none. Every contract violation is the fault entry of
`60_exceptions.md` R344, which is a next state (log 19). -/
inductive Fault where
  deriving DecidableEq, Repr

/-- Refusals: only that of a command whose meaning is not written. -/
inductive Refusal where
  /-- Raised by `exec` for a command not modelled yet. Safe: nothing is claimed of it. -/
  | notModelled (mnemonic : String)
  deriving DecidableEq, Repr

/-- The configuration of `State.reset`: `MEM_SIZE = 0x10000` (log 1), little-endian (log 2), the
reference instantiation of `NUM` (log 3) with `FTZ = false` (R6). -/
def Params.reset : Params where
  memSize   := 0x10000
  byteOrder := .little
  ftz       := false
  num       := .reference

/-- The state after power-on reset (R48): no register or memory word is written, the fault
registers are 0 and the block is not halted. The unreadable contents of the registers are 0
(log 7). -/
def State.reset : State where
  params    := Params.reset
  regs      := Vector.replicate 24 0
  wr        := Vector.replicate 24 false
  cmd       := 0
  cmdWr     := false
  status    := 0
  fcmd      := 0
  finfo     := 0
  fch       := 0
  halted    := false
  mem       := []
  hostQueue := []
  observed  := []

end Sys2Proof.Machine
end

