-- ==== Sys2Proof/Machine/Operands.lean ====
section
/-! DEFINITION. The operands of commands and of the host port: register numbers (`10_state.md`
R30), the read set of every command (`30_encoding.md` R106), the runs of words in memory and their
relations (`20_memory.md` R78 to R82). No command has an operand field (R107). -/

namespace Sys2Proof.Machine

/-- The number of a value register (R30). -/
def regNum : Reg → Fin 24
  | .fs => 0
  | .fc => 1
  | .fp => 2
  | .q => 3
  | .bw => 4
  | .gain => 5
  | .cx => 6
  | .clp => 7
  | .cbp => 8
  | .chp => 9
  | .b0 => 10
  | .b1 => 11
  | .b2 => 12
  | .a1 => 13
  | .a2 => 14
  | .x => 15
  | .y => 16
  | .s1 => 17
  | .s2 => 18
  | .xptr => 19
  | .yptr => 20
  | .sptr => 21
  | .ns => 22
  | .nch => 23

/-- The parameter registers every designer reads (R106): `FS`, `FC` and `[FP]`. -/
def designRegs (pf : Bool) : List Reg := if pf then [.fs, .fc, .fp] else [.fs, .fc]

/-- The coefficient registers of the first order. -/
def coefRegs1 : List Reg := [.b0, .b1, .a1]

/-- The coefficient registers of the second order. -/
def coefRegs2 : List Reg := [.b0, .b1, .b2, .a1, .a2]

/-- The read set of a command, in ascending register number (R106). -/
def readSet : Instr → List Reg
  | .lp1 pf => designRegs pf
  | .hp1 pf => designRegs pf
  | .ap1 pf => designRegs pf
  | .ls1 pf => designRegs pf ++ [.gain]
  | .ls1Db pf => designRegs pf ++ [.gain]
  | .hs1 pf => designRegs pf ++ [.gain]
  | .hs1Db pf => designRegs pf ++ [.gain]
  | .mm1 pf => designRegs pf ++ [.cx, .clp]
  | .lp2 pf => designRegs pf ++ [.q]
  | .hp2 pf => designRegs pf ++ [.q]
  | .ap2 pf => designRegs pf ++ [.q]
  | .ls2 pf => designRegs pf ++ [.q, .gain]
  | .ls2Db pf => designRegs pf ++ [.q, .gain]
  | .hs2 pf => designRegs pf ++ [.q, .gain]
  | .hs2Db pf => designRegs pf ++ [.q, .gain]
  | .mm2 pf => designRegs pf ++ [.q, .cx, .clp, .cbp, .chp]
  | .bp2 pf => designRegs pf ++ [.q]
  | .notch2 pf => designRegs pf ++ [.q]
  | .peak2 pf => designRegs pf ++ [.q, .gain]
  | .peak2Db pf => designRegs pf ++ [.q, .gain]
  | .peak2Bw pf => designRegs pf ++ [.bw, .gain]
  | .peak2BwDb pf => designRegs pf ++ [.bw, .gain]
  | .rst1 => coefRegs1 ++ [.x]
  | .proc1 => coefRegs1 ++ [.x, .s1]
  | .procn1 => coefRegs1 ++ [.s1, .xptr, .yptr, .ns]
  | .rstm1Y => coefRegs1 ++ [.xptr, .yptr, .nch]
  | .rstm1S => coefRegs1 ++ [.xptr, .sptr, .nch]
  | .rstm1Ys => coefRegs1 ++ [.xptr, .yptr, .sptr, .nch]
  | .procm1 => coefRegs1 ++ [.xptr, .yptr, .sptr, .ns, .nch]
  | .rst2 => coefRegs2 ++ [.x]
  | .proc2 => coefRegs2 ++ [.x, .s1, .s2]
  | .procn2 => coefRegs2 ++ [.s1, .s2, .xptr, .yptr, .ns]
  | .rstm2Y => coefRegs2 ++ [.xptr, .yptr, .nch]
  | .rstm2S => coefRegs2 ++ [.xptr, .sptr, .nch]
  | .rstm2Ys => coefRegs2 ++ [.xptr, .yptr, .sptr, .nch]
  | .procm2 => coefRegs2 ++ [.xptr, .yptr, .sptr, .ns, .nch]

/-- The register write set of a command (R106). -/
def writeSet : Instr → List Reg
  | .lp1 _ => coefRegs1
  | .hp1 _ => coefRegs1
  | .ap1 _ => coefRegs1
  | .ls1 _ => coefRegs1
  | .ls1Db _ => coefRegs1
  | .hs1 _ => coefRegs1
  | .hs1Db _ => coefRegs1
  | .mm1 _ => coefRegs1
  | .lp2 _ => coefRegs2
  | .hp2 _ => coefRegs2
  | .ap2 _ => coefRegs2
  | .ls2 _ => coefRegs2
  | .ls2Db _ => coefRegs2
  | .hs2 _ => coefRegs2
  | .hs2Db _ => coefRegs2
  | .mm2 _ => coefRegs2
  | .bp2 _ => coefRegs2
  | .notch2 _ => coefRegs2
  | .peak2 _ => coefRegs2
  | .peak2Db _ => coefRegs2
  | .peak2Bw _ => coefRegs2
  | .peak2BwDb _ => coefRegs2
  | .rst1 => [.y, .s1]
  | .proc1 => [.y, .s1]
  | .procn1 => [.s1]
  | .rstm1Y => []
  | .rstm1S => []
  | .rstm1Ys => []
  | .procm1 => []
  | .rst2 => [.y, .s1, .s2]
  | .proc2 => [.y, .s1, .s2]
  | .procn2 => [.s1, .s2]
  | .rstm2Y => []
  | .rstm2S => []
  | .rstm2Ys => []
  | .procm2 => []

/-- `Disjoint(a, La, b, Lb)` of R82, on unbounded addresses. -/
def disjointRuns (a la b lb : Nat) : Bool :=
  la == 0 || lb == 0 || decide (a + la ≤ b) || decide (b + lb ≤ a)

/-- `Same(a, La, b, Lb)` of R82. -/
def sameRuns (a la b lb : Nat) : Bool := a == b && la == lb

/-- Word `i` of a run at `base` (R78, R79, R81). -/
def wordAddr (base i : Nat) : Nat := base + 4 * i

/-- The address of channel `c`'s state cell at `SPTR = sp` (R80). -/
def cellAddr (words sp c : Nat) : Nat := sp + 4 * words * c

end Sys2Proof.Machine
end

