-- ==== Sys2Proof/Machine/Ops.lean ====
section
/-! DEFINITION. The shared operations: bytes and words of the data memory (`20_memory.md` R70 to
R77), registers and their written-bits (`10_state.md` R35), fault entry (`60_exceptions.md` R344)
and power-on reset, the only way back from it (`70_reset_and_hazards.md` R380), and how a command
runs (`30_encoding.md` R104). -/

namespace Sys2Proof.Machine

/-! ### Memory -/

/-- The byte at an address, or no value. -/
def readByte : Memory → Nat → Option Byte
  | [], _ => none
  | (b, v) :: m, a => if b = a then some v else readByte m a

/-- Write a byte, keeping the addresses strictly rising. -/
def writeByte : Memory → Nat → Byte → Memory
  | [], a, v => [(a, v)]
  | (b, u) :: m, a, v =>
    if a < b then (a, v) :: (b, u) :: m
    else if a = b then (a, v) :: m
    else (b, u) :: writeByte m a v

/-- The canonical form of a memory: its addresses rise strictly. Every listed byte differs from an
unlisted one, which holds no value. -/
abbrev Memory.wf (m : Memory) : Prop := m.Pairwise (fun p q => p.1 < q.1)

/-- The byte of a word that lies `i` bytes above its address (R72). -/
def byteOfWord (o : ByteOrder) (w : Word) (i : Nat) : Byte :=
  match o with
  | .little => w.extractLsb' (8 * i) 8
  | .big => w.extractLsb' (8 * (3 - i)) 8

/-- The word of four bytes in rising address order (R72). -/
def wordOfBytes (o : ByteOrder) (v0 v1 v2 v3 : Byte) : Word :=
  match o with
  | .little => v3 ++ v2 ++ v1 ++ v0
  | .big => v0 ++ v1 ++ v2 ++ v3

/-- The word at an address, or no value (`mwr = 0`, R76). -/
def readWord (o : ByteOrder) (m : Memory) (a : Nat) : Option Word :=
  match readByte m a, readByte m (a + 1), readByte m (a + 2), readByte m (a + 3) with
  | some v0, some v1, some v2, some v3 => some (wordOfBytes o v0 v1 v2 v3)
  | _, _, _, _ => none

/-- Write a word and set its written-bit (R76, R77). -/
def writeWord (o : ByteOrder) (m : Memory) (a : Nat) (w : Word) : Memory :=
  writeByte (writeByte (writeByte (writeByte m a (byteOfWord o w 0)) (a + 1) (byteOfWord o w 1))
    (a + 2) (byteOfWord o w 2)) (a + 3) (byteOfWord o w 3)

/-- `mem[a]` of a state, if it is written. -/
def State.memRead (s : State) (a : Nat) : Option Word := readWord s.params.byteOrder s.mem a

/-- `MemWrite(a, 4, v)` of R77. -/
def State.memWrite (s : State) (a : Nat) (v : Word) : State :=
  { s with mem := writeWord s.params.byteOrder s.mem a v }

/-! ### Registers -/

/-- `reg[N]`, the word a value register holds (R8). -/
def State.reg (s : State) (r : Reg) : Word := s.regs[regNum r]

/-- `wr[N]` (R35). -/
def State.written (s : State) (r : Reg) : Bool := s.wr[regNum r]

/-- `reg[N] <- v`, which sets the written-bit (R8, R35). -/
def State.setReg (s : State) (r : Reg) (v : Word) : State :=
  { s with regs := s.regs.set (regNum r) v, wr := s.wr.set (regNum r) true }

/-- `NUM` of the state's configuration (R12). -/
def State.num (s : State) : Num := numOf s.params

/-! ### Faults and power-on reset -/

/-- What `raise C(info, ch)` carries (R10). -/
structure Raise where
  cause : Cause
  info : Word
  ch : Word
  deriving DecidableEq, Repr

/-- `raise C(info, ch)` with natural numbers. -/
def raiseWith (c : Cause) (info ch : Nat) : Raise :=
  ⟨c, BitVec.ofNat 32 info, BitVec.ofNat 32 ch⟩

/-- `FaultEntry(C, w, info, ch)` of R344: the fault registers and `halted`, nothing else. -/
def faultEntry (r : Raise) (w : Word) (s : State) : State :=
  { s with
    status := statusOfCause r.cause
    fcmd := w
    finfo := r.info
    fch := r.ch
    halted := true }

/-- `POR` (R380): every piece of state at its value after reset. The configuration stays (R380), and
so do the host's own pending actions and record. -/
def powerOnReset (s : State) : State :=
  { State.reset with params := s.params, hostQueue := s.hostQueue, observed := s.observed }

/-- `raise r` unless the condition holds. -/
def require (ok : Bool) (r : Raise) : Except Raise Unit := if ok then .ok () else .error r

/-! ### Running a command -/

/-- How a command's procedure ends: completed, or with a fault raised in a state that keeps the
writes performed so far (`60_exceptions.md` R346). -/
inductive Ran where
  | done (s : State)
  | raised (r : Raise) (s : State)
  deriving DecidableEq, Repr

/-- A procedure that checks first and then writes all at once: nothing is written if it raises. -/
def atOnce {α : Type} (plan : Except Raise α) (write : α → State → State) (s : State) : Ran :=
  match plan with
  | .error r => .raised r s
  | .ok v => .done (write v s)

/-- `for i in i₀ .. i₀+n-1: body i` (R10), ended by the first fault, which keeps the writes of the
iterations before it (R346). -/
def repeatFrom (body : Nat → State → Ran) : (i n : Nat) → State → Ran
  | _, 0, s => .done s
  | i, n + 1, s =>
    match body i s with
    | .done t => repeatFrom body (i + 1) n t
    | .raised r t => .raised r t

/-- The state a command ends in: its own, or that of the fault entry (R104, R344). -/
def concludeRan (w : Word) : Ran → State
  | .done s => s
  | .raised r s => faultEntry r w s

/-- The lowest register of a read set whose written-bit is clear (R35, R104). -/
def firstUnwritten (s : State) (rs : List Reg) : Option Reg := rs.find? fun r => !s.written r

/-- `Execute` of R104 after decoding: the read set's written-bits, then the command's procedure. A
raised fault enters with the command's word (log 12). -/
def runCommand (i : Instr) (body : State → Ran) (s : State) : Host.Outcome State Fault Refusal :=
  match firstUnwritten s (readSet i) with
  | some r => .next (faultEntry (raiseWith .unwrittenRegister (regNum r).val 0) (encode i) s)
  | none => .next (concludeRan (encode i) (body s))

/-! ### Block accesses to memory -/

/-- `MemRead(a, 4)` of R77, for channel `ch`. -/
def memReadOrRaise (s : State) (a ch : Nat) : Except Raise Word :=
  match s.memRead a with
  | some v => .ok v
  | none => .error (raiseWith .unwrittenMemory a ch)

/-- `RangeCheck(a, n, ch)` of R74 and R75. -/
def rangeCheck (s : State) (a n ch : Nat) : Except Raise Unit :=
  if n = 0 then .ok ()
  else require (a % 4 == 0 && decide (a + 4 * n ≤ s.params.memSize)) (raiseWith .accessFault a ch)

end Sys2Proof.Machine
end

