-- ==== Sys2Proof/Machine/Design.lean ====
section
/-! DEFINITION. What every designer shares (`40_designer_shared.md`): the parameter checks (R141 to
R147), the derived-parameter checks (R148), the procedure in its order (R140), the result check
(R155) and the write-back (R156). A command supplies its prototype: the effective cutoff and the
arguments of its bilinear helper. -/

namespace Sys2Proof.Machine

/-- `PARAM_DOMAIN(info = n)`. -/
def paramDomain (n : Nat) : Raise := raiseWith .paramDomain n 0

/-- `lo <= v <= hi`: false of a NaN (R11). -/
def within (lo v hi : Word) : Bool := F32.le lo v && F32.le v hi

/-- `CheckFS` (R141). -/
def checkFs (fs : Word) : Except Raise Unit :=
  require (F32.isFinite fs && F32.lt F32.posZero fs) (paramDomain 0)

/-- `CheckFC` (R142). -/
def checkFc (fc : Word) : Except Raise Unit := require (within fMin fc fMax) (paramDomain 1)

/-- `CheckFP`, done only when `PF = 1` (R143). -/
def checkFp (pf : Bool) (fp : Word) : Except Raise Unit :=
  require (!pf || within fMin fp fMax) (paramDomain 2)

/-- `CheckQ` (R144). -/
def checkQ (q : Word) : Except Raise Unit := require (within qMin q qMax) (paramDomain 3)

/-- `CheckBW` (R145). -/
def checkBw (b : Word) : Except Raise Unit :=
  require (F32.isFinite b && F32.lt F32.posZero b && F32.le b bwMax) (paramDomain 4)

/-- `GainIn(g, db)` (R146): the linear gain. -/
def gainIn (N : Num) (db : Bool) (g : Word) : Except Raise Word :=
  if db then do
    require (within dbMin g dbMax) (paramDomain 5)
    let lin := N.dB2linF g
    require (within gMin lin gMax) (paramDomain 0x103)
    return lin
  else do
    require (within gMin g gMax) (paramDomain 5)
    return g

/-- One coefficient of `CheckMix` (R147). -/
def checkMixReg (s : State) (r : Reg) : Except Raise Unit :=
  require (F32.isFinite (s.reg r)) (paramDomain (regNum r).val)

/-- The shelves' derived cutoff (R148). -/
def checkEffective (fe : Word) : Except Raise Unit :=
  require (within fMin fe fMax) (paramDomain 0x101)

/-- The derived `Q` of the peak by bandwidth (R148). -/
def checkDerivedQ (q : Word) : Except Raise Unit :=
  require (within qMin q qMax) (paramDomain 0x102)

/-- What a first-order kind gives the procedure: `fe` and the arguments of `BL1` after `k`. -/
structure Proto1 where
  fe : Word
  beta1 : Word
  beta0 : Word
  deriving DecidableEq, Repr

/-- What a second-order kind gives the procedure: `fe` and the arguments of `BL2` after `k`. -/
structure Proto2 where
  fe : Word
  q : Word
  alpha2 : Word
  mu : Word
  alpha0 : Word
  deriving DecidableEq, Repr

/-- The direct checks all designers begin with: `FS`, `FC`, `[FP]` (R140). -/
def checkFrequencies (pf : Bool) (s : State) : Except Raise Unit := do
  checkFs (s.reg .fs)
  checkFc (s.reg .fc)
  checkFp pf (s.reg .fp)

/-- `k <- WarpRatio(fs, fc, fe, pf, fp)` on the registers (R140, R149). -/
def warpOf (pf : Bool) (fe : Word) (s : State) : Word :=
  warpRatio s.num (s.reg .fs) (s.reg .fc) fe pf (s.reg .fp)

/-- `Design` of R140 for the first order, up to the write. -/
def design1 (pf : Bool) (proto : State → Except Raise Proto1) (s : State) :
    Except Raise (Coef1 Word) := do
  checkFrequencies pf s
  let p ← proto s
  let c := bl1 s.num.toArith (warpOf pf p.fe s) p.beta1 p.beta0
  require (coefsValid s.num (.first c)) (raiseWith .designResult 0 0)
  return c

/-- `Design` of R140 for the second order, up to the write. -/
def design2 (pf : Bool) (proto : State → Except Raise Proto2) (s : State) :
    Except Raise (Coef2 Word) := do
  checkFrequencies pf s
  let p ← proto s
  let c := bl2 s.num.toArith (warpOf pf p.fe s) p.q p.alpha2 p.mu p.alpha0
  require (coefsValid s.num (.second c)) (raiseWith .designResult 0 0)
  return c

/-- `WriteCoefficients(1, c)` (R156): `B2` and `A2` are not written. -/
def writeCoef1 (c : Coef1 Word) (s : State) : State :=
  ((s.setReg .b0 c.b0).setReg .b1 c.b1).setReg .a1 c.a1

/-- `WriteCoefficients(2, c)` (R156). -/
def writeCoef2 (c : Coef2 Word) (s : State) : State :=
  ((((s.setReg .b0 c.b0).setReg .b1 c.b1).setReg .b2 c.b2).setReg .a1 c.a1).setReg .a2 c.a2

/-- A first-order designer command (R104, R140). -/
def runDesign1 (i : Instr) (pf : Bool) (proto : State → Except Raise Proto1) (s : State) :
    Host.Outcome State Fault Refusal :=
  runCommand i (fun t => atOnce (design1 pf proto t) writeCoef1 t) s

/-- A second-order designer command (R104, R140). -/
def runDesign2 (i : Instr) (pf : Bool) (proto : State → Except Raise Proto2) (s : State) :
    Host.Outcome State Fault Refusal :=
  runCommand i (fun t => atOnce (design2 pf proto t) writeCoef2 t) s

end Sys2Proof.Machine
end

