-- ==== Sys2Proof/Machine/Designer1.lean ====
section
/-! DEFINITION. The first-order designer commands (`41_designer_order1.md` R180 to R187): each is
the shared procedure with its own prototype. -/

namespace Sys2Proof.Machine

/-- The prototype of `LP1`, `1/(p + 1)` (R180). -/
def protoLp1 (s : State) : Except Raise Proto1 := .ok ⟨s.reg .fc, F32.posZero, F32.one⟩

/-- The prototype of `HP1`, `p/(p + 1)` (R181). -/
def protoHp1 (s : State) : Except Raise Proto1 := .ok ⟨s.reg .fc, F32.one, F32.posZero⟩

/-- The prototype of `AP1`, `(1 − p)/(1 + p)` (R182). -/
def protoAp1 (s : State) : Except Raise Proto1 := .ok ⟨s.reg .fc, F32.negOne, F32.one⟩

/-- The prototype of the low shelf, `(p + G)/(p + 1)` at `fe = fc/√G` (R183, R184). -/
def protoLs1 (db : Bool) (s : State) : Except Raise Proto1 := do
  let g ← gainIn s.num db (s.reg .gain)
  let fe := s.num.div (s.reg .fc) (s.num.sqrtF g)
  checkEffective fe
  return ⟨fe, F32.one, g⟩

/-- The prototype of the high shelf, `(G·p + 1)/(p + 1)` at `fe = fc·√G` (R185, R186). -/
def protoHs1 (db : Bool) (s : State) : Except Raise Proto1 := do
  let g ← gainIn s.num db (s.reg .gain)
  let fe := s.num.mul (s.reg .fc) (s.num.sqrtF g)
  checkEffective fe
  return ⟨fe, g, F32.one⟩

/-- The prototype of `MM1`, `(cx·p + (cx + clp))/(p + 1)` (R187). -/
def protoMm1 (s : State) : Except Raise Proto1 := do
  checkMixReg s .cx
  checkMixReg s .clp
  return ⟨s.reg .fc, s.reg .cx, s.num.add (s.reg .cx) (s.reg .clp)⟩

/-- `LP1`, the first-order lowpass (R180). -/
def execLp1 (pf : Bool) (s : State) : Host.Outcome State Fault Refusal :=
  runDesign1 (.lp1 pf) pf protoLp1 s

/-- `HP1`, the first-order highpass (R181). -/
def execHp1 (pf : Bool) (s : State) : Host.Outcome State Fault Refusal :=
  runDesign1 (.hp1 pf) pf protoHp1 s

/-- `AP1`, the first-order allpass (R182). -/
def execAp1 (pf : Bool) (s : State) : Host.Outcome State Fault Refusal :=
  runDesign1 (.ap1 pf) pf protoAp1 s

/-- `LS1`, the first-order low shelf with linear gain (R183). -/
def execLs1 (pf : Bool) (s : State) : Host.Outcome State Fault Refusal :=
  runDesign1 (.ls1 pf) pf (protoLs1 false) s

/-- `LS1.DB`, the first-order low shelf with gain in decibels (R184). -/
def execLs1Db (pf : Bool) (s : State) : Host.Outcome State Fault Refusal :=
  runDesign1 (.ls1Db pf) pf (protoLs1 true) s

/-- `HS1`, the first-order high shelf with linear gain (R185). -/
def execHs1 (pf : Bool) (s : State) : Host.Outcome State Fault Refusal :=
  runDesign1 (.hs1 pf) pf (protoHs1 false) s

/-- `HS1.DB`, the first-order high shelf with gain in decibels (R186). -/
def execHs1Db (pf : Bool) (s : State) : Host.Outcome State Fault Refusal :=
  runDesign1 (.hs1Db pf) pf (protoHs1 true) s

/-- `MM1`, the first-order multi-mode form (R187). -/
def execMm1 (pf : Bool) (s : State) : Host.Outcome State Fault Refusal :=
  runDesign1 (.mm1 pf) pf protoMm1 s

end Sys2Proof.Machine
end

