-- ==== Sys2Proof/Machine/Designer2.lean ====
section
/-! DEFINITION. The second-order designer commands (`42_designer_order2.md` R220 to R234): each is
the shared procedure with its own prototype. -/

namespace Sys2Proof.Machine

/-- A prototype at the user's cutoff with the register `Q` (R220, R221, R222, R229). -/
def protoQ (alpha2 mu alpha0 : Word) (s : State) : Except Raise Proto2 := do
  checkQ (s.reg .q)
  return ⟨s.reg .fc, s.reg .q, alpha2, mu, alpha0⟩

/-- The prototype of `LP2`, `1/(p² + p/q + 1)` (R220). -/
def protoLp2 : State → Except Raise Proto2 := protoQ F32.posZero F32.posZero F32.one

/-- The prototype of `HP2`, `p²/(p² + p/q + 1)` (R221). -/
def protoHp2 : State → Except Raise Proto2 := protoQ F32.one F32.posZero F32.posZero

/-- The prototype of `AP2`, `(p² − p/q + 1)/(p² + p/q + 1)` (R222). -/
def protoAp2 : State → Except Raise Proto2 := protoQ F32.one F32.negOne F32.one

/-- The prototype of `NOTCH2`, `(p² + 1)/(p² + p/q + 1)` (R229). -/
def protoNotch2 : State → Except Raise Proto2 := protoQ F32.one F32.posZero F32.one

/-- The prototype of `BP2`, `p/(p² + p/q + 1)`, whose peak gain is `q` (R228). -/
def protoBp2 (s : State) : Except Raise Proto2 := protoQ F32.posZero (s.reg .q) F32.posZero s

/-- The prototype of the low shelf, `(p² + √G·p/q + G)/(p² + p/q + 1)` at `fe = fc/G^(1/4)` (R223,
R224). -/
def protoLs2 (db : Bool) (s : State) : Except Raise Proto2 := do
  checkQ (s.reg .q)
  let g ← gainIn s.num db (s.reg .gain)
  let r := s.num.sqrtF g
  let fe := s.num.div (s.reg .fc) (s.num.sqrtF r)
  checkEffective fe
  return ⟨fe, s.reg .q, F32.one, r, g⟩

/-- The prototype of the high shelf, `(G·p² + √G·p/q + 1)/(p² + p/q + 1)` at `fe = fc·G^(1/4)`
(R225, R226). -/
def protoHs2 (db : Bool) (s : State) : Except Raise Proto2 := do
  checkQ (s.reg .q)
  let g ← gainIn s.num db (s.reg .gain)
  let r := s.num.sqrtF g
  let fe := s.num.mul (s.reg .fc) (s.num.sqrtF r)
  checkEffective fe
  return ⟨fe, s.reg .q, g, r, F32.one⟩

/-- The prototype of `MM2`, `cx + clp·LP + cbp·BP + chp·HP` (R227). -/
def protoMm2 (s : State) : Except Raise Proto2 := do
  checkQ (s.reg .q)
  checkMixReg s .cx
  checkMixReg s .clp
  checkMixReg s .cbp
  checkMixReg s .chp
  return ⟨s.reg .fc, s.reg .q, s.num.add (s.reg .cx) (s.reg .chp),
    s.num.add (s.reg .cx) (s.num.mul (s.reg .cbp) (s.reg .q)),
    s.num.add (s.reg .cx) (s.reg .clp)⟩

/-- The prototype of the peak by `Q`, `(p² + G·p/q + 1)/(p² + p/q + 1)` (R230, R231). -/
def protoPeak2 (db : Bool) (s : State) : Except Raise Proto2 := do
  checkQ (s.reg .q)
  let g ← gainIn s.num db (s.reg .gain)
  return ⟨s.reg .fc, s.reg .q, F32.one, g, F32.one⟩

/-- The prototype of the peak by bandwidth: the same with the derived `q` of R234 (R232, R233). -/
def protoPeak2Bw (db : Bool) (s : State) : Except Raise Proto2 := do
  checkBw (s.reg .bw)
  let g ← gainIn s.num db (s.reg .gain)
  let q := bwToQ s.num (s.reg .bw) g
  checkDerivedQ q
  return ⟨s.reg .fc, q, F32.one, g, F32.one⟩

/-- `LP2`, the second-order lowpass (R220). -/
def execLp2 (pf : Bool) (s : State) : Host.Outcome State Fault Refusal :=
  runDesign2 (.lp2 pf) pf protoLp2 s

/-- `HP2`, the second-order highpass (R221). -/
def execHp2 (pf : Bool) (s : State) : Host.Outcome State Fault Refusal :=
  runDesign2 (.hp2 pf) pf protoHp2 s

/-- `AP2`, the second-order allpass (R222). -/
def execAp2 (pf : Bool) (s : State) : Host.Outcome State Fault Refusal :=
  runDesign2 (.ap2 pf) pf protoAp2 s

/-- `LS2`, the second-order low shelf with linear gain (R223). -/
def execLs2 (pf : Bool) (s : State) : Host.Outcome State Fault Refusal :=
  runDesign2 (.ls2 pf) pf (protoLs2 false) s

/-- `LS2.DB`, the second-order low shelf with gain in decibels (R224). -/
def execLs2Db (pf : Bool) (s : State) : Host.Outcome State Fault Refusal :=
  runDesign2 (.ls2Db pf) pf (protoLs2 true) s

/-- `HS2`, the second-order high shelf with linear gain (R225). -/
def execHs2 (pf : Bool) (s : State) : Host.Outcome State Fault Refusal :=
  runDesign2 (.hs2 pf) pf (protoHs2 false) s

/-- `HS2.DB`, the second-order high shelf with gain in decibels (R226). -/
def execHs2Db (pf : Bool) (s : State) : Host.Outcome State Fault Refusal :=
  runDesign2 (.hs2Db pf) pf (protoHs2 true) s

/-- `MM2`, the second-order multi-mode form (R227). -/
def execMm2 (pf : Bool) (s : State) : Host.Outcome State Fault Refusal :=
  runDesign2 (.mm2 pf) pf protoMm2 s

/-- `BP2`, the second-order bandpass (R228). -/
def execBp2 (pf : Bool) (s : State) : Host.Outcome State Fault Refusal :=
  runDesign2 (.bp2 pf) pf protoBp2 s

/-- `NOTCH2`, the second-order notch (R229). -/
def execNotch2 (pf : Bool) (s : State) : Host.Outcome State Fault Refusal :=
  runDesign2 (.notch2 pf) pf protoNotch2 s

/-- `PEAK2`, the second-order peak by `Q` with linear gain (R230). -/
def execPeak2 (pf : Bool) (s : State) : Host.Outcome State Fault Refusal :=
  runDesign2 (.peak2 pf) pf (protoPeak2 false) s

/-- `PEAK2.DB`, the second-order peak by `Q` with gain in decibels (R231). -/
def execPeak2Db (pf : Bool) (s : State) : Host.Outcome State Fault Refusal :=
  runDesign2 (.peak2Db pf) pf (protoPeak2 true) s

/-- `PEAK2.BW`, the second-order peak by bandwidth with linear gain (R232). -/
def execPeak2Bw (pf : Bool) (s : State) : Host.Outcome State Fault Refusal :=
  runDesign2 (.peak2Bw pf) pf (protoPeak2Bw false) s

/-- `PEAK2.BW.DB`, the second-order peak by bandwidth with gain in decibels (R233). -/
def execPeak2BwDb (pf : Bool) (s : State) : Host.Outcome State Fault Refusal :=
  runDesign2 (.peak2BwDb pf) pf (protoPeak2Bw true) s

end Sys2Proof.Machine
end

