-- ==== Sys2Proof/Machine/Engine.lean ====
section
/-! DEFINITION. What the engine commands share: loading and checking the coefficient set
(`43_engine_reset.md` R270, R271), the checked reset and step functions (R272, R273;
`44_engine_process.md` R300, R301), and the single-channel, batched and multi-channel procedures
(R275 to R277, R302 to R307) with the alias checks of `20_memory.md` R83 to R85. -/

namespace Sys2Proof.Machine

/-- `LoadCoef` (R270). -/
def loadCoef (o : Order) (s : State) : Coefs Word :=
  match o with
  | .first => .first ⟨s.reg .b0, s.reg .b1, s.reg .a1⟩
  | .second => .second ⟨s.reg .b0, s.reg .b1, s.reg .b2, s.reg .a1, s.reg .a2⟩

/-- `CoefCheck` (R271). -/
def coefCheck (N : Num) (c : Coefs Word) : Except Raise Unit :=
  require (coefsValid N c) (raiseWith .coeffInvalid 0 0)

/-- Every state value of a cell is finite. -/
def cellFinite (o : Order) (st : Cell Word) : Bool :=
  match o with
  | .first => F32.isFinite st.s1
  | .second => F32.isFinite st.s1 && F32.isFinite st.s2

/-- The output and the next cell of one step, either order (R300, R301). -/
def stepValues (N : Num) (c : Coefs Word) (x : Word) (st : Cell Word) : Word × Cell Word :=
  match c with
  | .first c =>
    let r := stepValues1 N.toArith c x st.s1
    (r.1, ⟨r.2, st.s2⟩)
  | .second c =>
    let r := stepValues2 N.toArith c x st.s1 st.s2
    (r.1, ⟨r.2.1, r.2.2⟩)

/-- `y0` and the cell of a state reset, either order (R272, R273). -/
def resetValues (N : Num) (c : Coefs Word) (x0 : Word) : Word × Cell Word :=
  match c with
  | .first c =>
    let r := resetValues1 N.toArith F32.negOne c x0
    (r.1, ⟨r.2, F32.posZero⟩)
  | .second c =>
    let r := resetValues2 N.toArith F32.negOne c x0
    (r.1, ⟨r.2.1, r.2.2⟩)

/-- `Step1` and `Step2` with their checks, at sample `i` of channel `ch` (R300, R301). -/
def stepChecked (N : Num) (c : Coefs Word) (x : Word) (st : Cell Word) (i ch : Nat) :
    Except Raise (Word × Cell Word) := do
  require (F32.isFinite x && cellFinite (orderOf c) st) (raiseWith .valueNonfinite i ch)
  let r := stepValues N c x st
  require (F32.isFinite r.1 && cellFinite (orderOf c) r.2) (raiseWith .outputNonfinite i ch)
  return r

/-- `Reset1` and `Reset2` with their check of `x0` (R272, R273). -/
def resetChecked (N : Num) (c : Coefs Word) (x0 : Word) (ch : Nat) :
    Except Raise (Word × Cell Word) := do
  require (F32.isFinite x0) (raiseWith .valueNonfinite 0 ch)
  return resetValues N c x0

/-! ### State cells in the registers and in memory -/

/-- The state registers of an order (R33). -/
def regCell (o : Order) (s : State) : Cell Word :=
  match o with
  | .first => ⟨s.reg .s1, F32.posZero⟩
  | .second => ⟨s.reg .s1, s.reg .s2⟩

/-- Write a cell to the state registers of its order (R33). -/
def setRegCell (o : Order) (st : Cell Word) (s : State) : State :=
  match o with
  | .first => s.setReg .s1 st.s1
  | .second => (s.setReg .s1 st.s1).setReg .s2 st.s2

/-- Read channel `ch`'s cell at `a`: `s1`, then `s2` (R80, R307). -/
def memCell (o : Order) (s : State) (a ch : Nat) : Except Raise (Cell Word) :=
  match o with
  | .first => do
    let s1 ← memReadOrRaise s a ch
    return ⟨s1, F32.posZero⟩
  | .second => do
    let s1 ← memReadOrRaise s a ch
    let s2 ← memReadOrRaise s (a + 4) ch
    return ⟨s1, s2⟩

/-- Write a cell at `a` (R80). -/
def setMemCell (o : Order) (a : Nat) (st : Cell Word) (s : State) : State :=
  match o with
  | .first => s.memWrite a st.s1
  | .second => (s.memWrite a st.s1).memWrite (a + 4) st.s2

/-! ### Single-channel commands -/

/-- The values of `RST1` and `RST2` (R275, R276), up to the write. -/
def rstPlan (o : Order) (s : State) : Except Raise (Word × Cell Word) := do
  coefCheck s.num (loadCoef o s)
  let r ← resetChecked s.num (loadCoef o s) (s.reg .x) 0
  require (F32.isFinite r.1 && cellFinite o r.2) (raiseWith .outputNonfinite 0 0)
  return r

/-- The values of `PROC1` and `PROC2` (R302, R303), up to the write. -/
def procPlan (o : Order) (s : State) : Except Raise (Word × Cell Word) := do
  coefCheck s.num (loadCoef o s)
  stepChecked s.num (loadCoef o s) (s.reg .x) (regCell o s) 0 0

/-- `Y <- y; S1 <- s1 [; S2 <- s2]`, together (R275, R276, R302, R303). -/
def writeOutput (o : Order) (r : Word × Cell Word) (s : State) : State :=
  setRegCell o r.2 (s.setReg .y r.1)

/-- `RST1` or `RST2` (R275, R276). -/
def runRst (i : Instr) (o : Order) (s : State) : Host.Outcome State Fault Refusal :=
  runCommand i (fun t => atOnce (rstPlan o t) (writeOutput o) t) s

/-- `PROC1` or `PROC2` (R302, R303). -/
def runProc (i : Instr) (o : Order) (s : State) : Host.Outcome State Fault Refusal :=
  runCommand i (fun t => atOnce (procPlan o t) (writeOutput o) t) s

/-! ### Single-channel batch -/

/-- The checks of `PROCN` before its first access (R304): coefficients, state, ranges, overlap
(R83). An empty run has no range and overlaps nothing (R75). -/
def procnCheck (o : Order) (s : State) : Except Raise Unit := do
  coefCheck s.num (loadCoef o s)
  require (cellFinite o (regCell o s)) (raiseWith .valueNonfinite 0 0)
  let n := (s.reg .ns).toNat
  let xa := (s.reg .xptr).toNat
  let ya := (s.reg .yptr).toNat
  rangeCheck s xa n 0
  rangeCheck s ya n 0
  require (sameRuns xa (4 * n) ya (4 * n) || disjointRuns xa (4 * n) ya (4 * n))
    (raiseWith .aliasViolation 0 0)

/-- Sample `i` of `PROCN` (R304): the state is threaded through the registers. -/
def procnSample (o : Order) (c : Coefs Word) (xa ya i : Nat) (s : State) : Ran :=
  atOnce
    (do
      let x ← memReadOrRaise s (wordAddr xa i) 0
      stepChecked s.num c x (regCell o s) i 0)
    (fun r t => setRegCell o r.2 (t.memWrite (wordAddr ya i) r.1)) s

/-- `PROCN(order)` (R304). -/
def procnBody (o : Order) (s : State) : Ran :=
  match procnCheck o s with
  | .error r => .raised r s
  | .ok () =>
    repeatFrom (procnSample o (loadCoef o s) (s.reg .xptr).toNat (s.reg .yptr).toNat) 0
      (s.reg .ns).toNat s

/-! ### Batched reset -/

/-- `AliasCheckRSTM(wy, ws)` (R85). -/
def rstmAliasOk (o : Order) (wy ws : Bool) (n xa ya sp : Nat) : Bool :=
  (!wy || sameRuns ya (4 * n) xa (4 * n) || disjointRuns ya (4 * n) xa (4 * n))
    && (!ws || disjointRuns sp (4 * orderWords o * n) xa (4 * n))
    && (!(wy && ws) || disjointRuns sp (4 * orderWords o * n) ya (4 * n))

/-- The checks of `RSTM` before its first access, for `NCH ≠ 0` (R277). -/
def rstmCheck (o : Order) (wy ws : Bool) (s : State) : Except Raise Unit := do
  let n := (s.reg .nch).toNat
  let xa := (s.reg .xptr).toNat
  let ya := (s.reg .yptr).toNat
  let sp := (s.reg .sptr).toNat
  rangeCheck s xa n 0
  rangeCheck s ya (if wy then n else 0) 0
  rangeCheck s sp (if ws then orderWords o * n else 0) 0
  require (rstmAliasOk o wy ws n xa ya sp) (raiseWith .aliasViolation 0 0)

/-- The values of channel `ch` of `RSTM`: only the wanted outputs are checked (R277, U32). -/
def rstmValues (N : Num) (o : Order) (wy ws : Bool) (c : Coefs Word) (xa ch : Nat) (s : State) :
    Except Raise (Word × Cell Word) := do
  let x0 ← memReadOrRaise s (wordAddr xa ch) ch
  let r ← resetChecked N c x0 ch
  require (!wy || F32.isFinite r.1) (raiseWith .outputNonfinite 0 ch)
  require (!ws || cellFinite o r.2) (raiseWith .outputNonfinite 0 ch)
  return r

/-- The writes of channel `ch` of `RSTM` (R277). -/
def rstmWrite (o : Order) (wy ws : Bool) (ya sp ch : Nat) (r : Word × Cell Word) (s : State) :
    State :=
  let t := if wy then s.memWrite (wordAddr ya ch) r.1 else s
  if ws then setMemCell o (cellAddr (orderWords o) sp ch) r.2 t else t

/-- Channel `ch` of `RSTM` (R277). -/
def rstmChannel (o : Order) (wy ws : Bool) (c : Coefs Word) (xa ya sp ch : Nat) (s : State) : Ran :=
  atOnce (rstmValues s.num o wy ws c xa ch s) (rstmWrite o wy ws ya sp ch) s

/-- `RSTM(order, wy, ws)` (R277). -/
def rstmBody (o : Order) (wy ws : Bool) (s : State) : Ran :=
  match coefCheck s.num (loadCoef o s) with
  | .error r => .raised r s
  | .ok () =>
    if (s.reg .nch).toNat = 0 then .done s
    else
      match rstmCheck o wy ws s with
      | .error r => .raised r s
      | .ok () =>
        repeatFrom
          (rstmChannel o wy ws (loadCoef o s) (s.reg .xptr).toNat (s.reg .yptr).toNat
            (s.reg .sptr).toNat) 0 (s.reg .nch).toNat s

/-! ### Multi-channel batch -/

/-- The words `MemReadU(base + 4·ch)` for `n` channels from `ch` up: a pointer array (R79, R307). -/
def readPointers (s : State) (base : Nat) : (ch n : Nat) → Except Raise (List Nat)
  | _, 0 => .ok []
  | ch, n + 1 => do
    let v ← memReadOrRaise s (wordAddr base ch) ch
    let rest ← readPointers s base (ch + 1) n
    return v.toNat :: rest

/-- The range checks of the channels' runs, from channel `ch` up (R307). -/
def checkChannelRuns (s : State) (m : Nat) : (ch : Nat) → (runs : List (Nat × Nat)) →
    Except Raise Unit
  | _, [] => .ok ()
  | ch, (xb, yb) :: rest => do
    rangeCheck s xb m ch
    rangeCheck s yb m ch
    checkChannelRuns s m (ch + 1) rest

/-- The conditions of R84 on two different channels' runs of length `l`: the first one's output
is disjoint from the second one's output (1) and input (2). -/
def channelsApart (l : Nat) (p q : Nat × Nat) : Bool :=
  disjointRuns p.2 l q.2 l && disjointRuns p.2 l q.1 l

/-- Items 1 and 2 of R84 for every pair of different channels, by position in the list. -/
def allChannelsApart (l : Nat) : List (Nat × Nat) → Bool
  | [] => true
  | p :: rest =>
    rest.all (fun q => channelsApart l p q && channelsApart l q p) && allChannelsApart l rest

/-- `AliasCheckPROCM()` (R84), on the channels' `(xb, yb)`: `n` channels of `m` samples, the
pointer arrays at `px` and `py`, the state cells at `sp`. -/
def procmAliasOk (o : Order) (m n px py sp : Nat) (runs : List (Nat × Nat)) : Bool :=
  let l := 4 * m
  let ls := 4 * orderWords o * n
  allChannelsApart l runs
    && runs.all (fun p => sameRuns p.2 l p.1 l || disjointRuns p.2 l p.1 l)
    && runs.all (fun p => disjointRuns sp ls p.1 l && disjointRuns sp ls p.2 l)
    && disjointRuns px (4 * n) sp ls && disjointRuns py (4 * n) sp ls
    && runs.all (fun p => disjointRuns px (4 * n) p.2 l && disjointRuns py (4 * n) p.2 l)

/-- The checks of `PROCM` before its first sample, for `NCH ≠ 0` and `NS ≠ 0`, and the channels'
input and output bases (R307). -/
def procmPlan (o : Order) (s : State) : Except Raise (List (Nat × Nat)) := do
  let m := (s.reg .ns).toNat
  let n := (s.reg .nch).toNat
  let px := (s.reg .xptr).toNat
  let py := (s.reg .yptr).toNat
  let sp := (s.reg .sptr).toNat
  rangeCheck s px n 0
  rangeCheck s py n 0
  rangeCheck s sp (orderWords o * n) 0
  let xb ← readPointers s px 0 n
  let yb ← readPointers s py 0 n
  let runs := xb.zip yb
  checkChannelRuns s m 0 runs
  require (procmAliasOk o m n px py sp runs) (raiseWith .aliasViolation 0 0)
  return runs

/-- The reads and the step of sample `i` of channel `ch` of `PROCM`, in the order `x`, `s1`, `s2`
(R307). -/
def procmValues (o : Order) (c : Coefs Word) (sp xb i ch : Nat) (s : State) :
    Except Raise (Word × Cell Word) := do
  let x ← memReadOrRaise s (wordAddr xb i) ch
  let st ← memCell o s (cellAddr (orderWords o) sp ch) ch
  stepChecked s.num c x st i ch

/-- Sample `i` of channel `ch` of `PROCM` (R307). -/
def procmSample (o : Order) (c : Coefs Word) (sp : Nat) (runs : List (Nat × Nat)) (i ch : Nat)
    (s : State) : Ran :=
  let run := runs.getD ch (0, 0)
  atOnce (procmValues o c sp run.1 i ch s)
    (fun r t => setMemCell o (cellAddr (orderWords o) sp ch) r.2
      (t.memWrite (wordAddr run.2 i) r.1)) s

/-- `PROCM(order)` (R307): sample-outer, channel-inner. -/
def procmBody (o : Order) (s : State) : Ran :=
  match coefCheck s.num (loadCoef o s) with
  | .error r => .raised r s
  | .ok () =>
    if (s.reg .nch).toNat = 0 ∨ (s.reg .ns).toNat = 0 then .done s
    else
      match procmPlan o s with
      | .error r => .raised r s
      | .ok runs =>
        repeatFrom
          (fun i t => repeatFrom
            (procmSample o (loadCoef o s) (s.reg .sptr).toNat runs i) 0 (s.reg .nch).toNat t)
          0 (s.reg .ns).toNat s

end Sys2Proof.Machine
end

