-- ==== Sys2Proof/Machine/EngineProcess.lean ====
section
/-! DEFINITION. The processing commands (`44_engine_process.md` R302 to R309). -/

namespace Sys2Proof.Machine

/-- `PROC1`, the first-order step of one channel (R302). -/
def execProc1 (s : State) : Host.Outcome State Fault Refusal := runProc .proc1 .first s

/-- `PROC2`, the second-order step of one channel (R303). -/
def execProc2 (s : State) : Host.Outcome State Fault Refusal := runProc .proc2 .second s

/-- `PROCN1`, the first-order batch over `NS` samples of one channel (R305). -/
def execProcn1 (s : State) : Host.Outcome State Fault Refusal :=
  runCommand .procn1 (procnBody .first) s

/-- `PROCN2`, the second-order batch over `NS` samples of one channel (R306). -/
def execProcn2 (s : State) : Host.Outcome State Fault Refusal :=
  runCommand .procn2 (procnBody .second) s

/-- `PROCM1`, the first-order batch over `NCH × NS` (R308). -/
def execProcm1 (s : State) : Host.Outcome State Fault Refusal :=
  runCommand .procm1 (procmBody .first) s

/-- `PROCM2`, the second-order batch over `NCH × NS` (R309). -/
def execProcm2 (s : State) : Host.Outcome State Fault Refusal :=
  runCommand .procm2 (procmBody .second) s

end Sys2Proof.Machine
end

