-- ==== Sys2Proof/Machine/EngineReset.lean ====
section
/-! DEFINITION. The state-reset commands (`43_engine_reset.md` R275 to R283). -/

namespace Sys2Proof.Machine

/-- `RST1`, the first-order state reset of one channel (R275). -/
def execRst1 (s : State) : Host.Outcome State Fault Refusal := runRst .rst1 .first s

/-- `RST2`, the second-order state reset of one channel (R276). -/
def execRst2 (s : State) : Host.Outcome State Fault Refusal := runRst .rst2 .second s

/-- `RSTM1.Y`, the first-order batched reset that wants only the output (R278). -/
def execRstm1Y (s : State) : Host.Outcome State Fault Refusal :=
  runCommand .rstm1Y (rstmBody .first true false) s

/-- `RSTM1.S`, the first-order batched reset that wants only the state (R279). -/
def execRstm1S (s : State) : Host.Outcome State Fault Refusal :=
  runCommand .rstm1S (rstmBody .first false true) s

/-- `RSTM1.YS`, the first-order batched reset that wants both (R280). -/
def execRstm1Ys (s : State) : Host.Outcome State Fault Refusal :=
  runCommand .rstm1Ys (rstmBody .first true true) s

/-- `RSTM2.Y`, the second-order batched reset that wants only the output (R281). -/
def execRstm2Y (s : State) : Host.Outcome State Fault Refusal :=
  runCommand .rstm2Y (rstmBody .second true false) s

/-- `RSTM2.S`, the second-order batched reset that wants only the state (R282). -/
def execRstm2S (s : State) : Host.Outcome State Fault Refusal :=
  runCommand .rstm2S (rstmBody .second false true) s

/-- `RSTM2.YS`, the second-order batched reset that wants both (R283). -/
def execRstm2Ys (s : State) : Host.Outcome State Fault Refusal :=
  runCommand .rstm2Ys (rstmBody .second true true) s

end Sys2Proof.Machine
end

