-- ==== Sys2Proof/Machine/Dispatch.lean ====
section
/-! DEFINITION. The dispatch of a decoded command to its meaning, one arm per row of the opcode
table (`30_encoding.md` R101, R104). -/

namespace Sys2Proof.Machine

def exec (i : Instr) (s : State) : Host.Outcome State Fault Refusal :=
  match i with
  | .lp1 pf => Sys2Proof.Machine.execLp1 pf s
  | .hp1 pf => Sys2Proof.Machine.execHp1 pf s
  | .ap1 pf => Sys2Proof.Machine.execAp1 pf s
  | .ls1 pf => Sys2Proof.Machine.execLs1 pf s
  | .ls1Db pf => Sys2Proof.Machine.execLs1Db pf s
  | .hs1 pf => Sys2Proof.Machine.execHs1 pf s
  | .hs1Db pf => Sys2Proof.Machine.execHs1Db pf s
  | .mm1 pf => Sys2Proof.Machine.execMm1 pf s
  | .lp2 pf => Sys2Proof.Machine.execLp2 pf s
  | .hp2 pf => Sys2Proof.Machine.execHp2 pf s
  | .ap2 pf => Sys2Proof.Machine.execAp2 pf s
  | .ls2 pf => Sys2Proof.Machine.execLs2 pf s
  | .ls2Db pf => Sys2Proof.Machine.execLs2Db pf s
  | .hs2 pf => Sys2Proof.Machine.execHs2 pf s
  | .hs2Db pf => Sys2Proof.Machine.execHs2Db pf s
  | .mm2 pf => Sys2Proof.Machine.execMm2 pf s
  | .bp2 pf => Sys2Proof.Machine.execBp2 pf s
  | .notch2 pf => Sys2Proof.Machine.execNotch2 pf s
  | .peak2 pf => Sys2Proof.Machine.execPeak2 pf s
  | .peak2Db pf => Sys2Proof.Machine.execPeak2Db pf s
  | .peak2Bw pf => Sys2Proof.Machine.execPeak2Bw pf s
  | .peak2BwDb pf => Sys2Proof.Machine.execPeak2BwDb pf s
  | .rst1 => Sys2Proof.Machine.execRst1 s
  | .proc1 => Sys2Proof.Machine.execProc1 s
  | .procn1 => Sys2Proof.Machine.execProcn1 s
  | .rstm1Y => Sys2Proof.Machine.execRstm1Y s
  | .rstm1S => Sys2Proof.Machine.execRstm1S s
  | .rstm1Ys => Sys2Proof.Machine.execRstm1Ys s
  | .procm1 => Sys2Proof.Machine.execProcm1 s
  | .rst2 => Sys2Proof.Machine.execRst2 s
  | .proc2 => Sys2Proof.Machine.execProc2 s
  | .procn2 => Sys2Proof.Machine.execProcn2 s
  | .rstm2Y => Sys2Proof.Machine.execRstm2Y s
  | .rstm2S => Sys2Proof.Machine.execRstm2S s
  | .rstm2Ys => Sys2Proof.Machine.execRstm2Ys s
  | .procm2 => Sys2Proof.Machine.execProcm2 s

end Sys2Proof.Machine
end

