-- ==== Sys2Proof/Machine/HostPort.lean ====
section
/-! DEFINITION. The host port (`20_memory.md` R71): register writes and reads (`10_state.md` R35 to
R42), the issue of a command (`30_encoding.md` R104), memory writes and reads, and power-on reset.
Each operation is one atomic step (`00_scope.md` R5). -/

namespace Sys2Proof.Machine

/-- A fault of a host-port operation: entered when the block is not halted, ignored when it is
(R36 to R40, R71, R344). -/
def hostFault (c : Cause) (info : Nat) (s : State) : State :=
  if s.halted then s else faultEntry (raiseWith c info 0) 0 s

/-- The host's record of what a read returned (log 10). -/
def recordRead (r : HostRead) (s : State) : State := { s with observed := r :: s.observed }

/-- `reg[31] <- w`, which sets its written-bit (R41). -/
def storeCommand (w : Word) (s : State) : State := { s with cmd := w, cmdWr := true }

/-- A write of a word to `CMD` (R41, R104): ignored while halted; else the word is stored, decoded
and executed, and a word that is no command is `ILLEGAL_COMMAND` (R105). -/
def issueCommand (w : Word) (s : State) : Host.Outcome State Fault Refusal :=
  if s.halted then .next s
  else
    match decode w with
    | .ok i => exec i (storeCommand w s)
    | .error _ => .next (faultEntry (raiseWith .illegalCommand 0 0) w (storeCommand w s))

/-- `WR n, v` (R71): the value registers take any word, halted or not (R42, R43), register 31 issues
a command, and the others cannot be written (R36 to R40). -/
def hostWriteReg (n : Fin 32) (v : Word) (s : State) : Host.Outcome State Fault Refusal :=
  if h : n.val < 24 then .next { s with regs := s.regs.set n.val v, wr := s.wr.set n.val true }
  else if n.val = 31 then issueCommand v s
  else .next (hostFault .registerAccess n.val s)

/-- What a read of register `n` returns: no value where the written-bit is clear or the number is
reserved (R35 to R41). -/
def hostRegValue (n : Fin 32) (s : State) : Option Word :=
  if h : n.val < 24 then (if s.wr[n.val] then some s.regs[n.val] else none)
  else if n.val = 27 then some s.fcmd
  else if n.val = 28 then some s.finfo
  else if n.val = 29 then some s.fch
  else if n.val = 30 then some s.status
  else if n.val = 31 then (if s.cmdWr then some s.cmd else none)
  else none

/-- `RD n` (R71): a read of a reserved number is a fault (R36). -/
def hostReadReg (n : Fin 32) (s : State) : State :=
  let t := recordRead (.reg n (hostRegValue n s)) s
  if n.val = 24 ∨ n.val = 25 ∨ n.val = 26 then hostFault .registerAccess n.val t else t

/-- A host memory access is aligned and in range (R71). -/
def hostAddrOk (a : Word) (s : State) : Bool :=
  a.toNat % 4 == 0 && decide (a.toNat + 4 ≤ s.params.memSize)

/-- `WRM a, v` (R71). -/
def hostWriteMem (a v : Word) (s : State) : State :=
  if hostAddrOk a s then s.memWrite a.toNat v else hostFault .accessFault a.toNat s

/-- `RDM a` (R71). -/
def hostReadMem (a : Word) (s : State) : State :=
  if hostAddrOk a s then recordRead (.mem a (s.memRead a.toNat)) s
  else hostFault .accessFault a.toNat (recordRead (.mem a none) s)

/-- One operation of the host port (R71). -/
def hostOperation (op : HostOp) (s : State) : Host.Outcome State Fault Refusal :=
  match op with
  | .wr n v => hostWriteReg n v s
  | .rd n => .next (hostReadReg n s)
  | .wrm a v => .next (hostWriteMem a v s)
  | .rdm a => .next (hostReadMem a s)
  | .por => .next (powerOnReset s)

/-- The machine's next step: the host's oldest pending action. With none pending the block is idle
and holds its state (`60_exceptions.md` R353; log 9). -/
def nextAction (s : State) : Host.Outcome State Fault Refusal :=
  match s.hostQueue with
  | [] => .next s
  | op :: rest => hostOperation op { s with hostQueue := rest }

end Sys2Proof.Machine
end

