-- ==== Sys2Proof/Machine/Step.lean ====
section
/-! DEFINITION. One step of the machine, and how a command word is placed where the next step takes
it (log 9, 11). -/

namespace Sys2Proof.Machine

/-- One step: the host's next action (`00_scope.md` R5, `20_memory.md` R87). -/
def step (s : State) : Host.Outcome State Fault Refusal := nextAction s

/-- The state in which the host's next action writes a command word to `CMD` (R41). Every command is
one 32-bit word, so the bits from `nbits` up are 0 (R100). Nothing else changes; while the block is
halted the write is ignored, as R41 says (log 11). -/
def State.withFetchWord (s : State) (nbits w : Nat) : State :=
  { s with hostQueue := .wr 31 (BitVec.ofNat 32 (w % 2 ^ nbits)) :: s.hostQueue }

end Sys2Proof.Machine
end

