-- ==== Sys2Proof/Machine/Assembler.lean ====
section
/-! DEFINITION. The assembler's names and the host-program syntax (`30_encoding.md` R109 to R111):
mnemonics with suffixes, register names, values, the pseudo-instructions and their expansion to
host-port operations (log 16). -/

namespace Sys2Proof.Machine

/-- All commands, each designer with and without `PF`: the 58 legal words (R108). -/
def allCommands : List Instr :=
  [Instr.lp1, .hp1, .ap1, .ls1, .ls1Db, .hs1, .hs1Db, .mm1,
    .lp2, .hp2, .ap2, .ls2, .ls2Db, .hs2, .hs2Db, .mm2, .bp2, .notch2,
    .peak2, .peak2Db, .peak2Bw, .peak2BwDb].flatMap (fun c => [c false, c true])
  ++ [.rst1, .proc1, .procn1, .rstm1Y, .rstm1S, .rstm1Ys, .procm1,
    .rst2, .proc2, .procn2, .rstm2Y, .rstm2S, .rstm2Ys, .procm2]

/-- A designer's name with the suffix `.PF` where it is set (R109). -/
def withPf (name : String) (pf : Bool) : String := if pf then name ++ ".PF" else name

/-- The mnemonic and suffixes of a command (R109). -/
def mnemonic : Instr → String
  | .lp1 pf => withPf "LP1" pf
  | .hp1 pf => withPf "HP1" pf
  | .ap1 pf => withPf "AP1" pf
  | .ls1 pf => withPf "LS1" pf
  | .ls1Db pf => withPf "LS1.DB" pf
  | .hs1 pf => withPf "HS1" pf
  | .hs1Db pf => withPf "HS1.DB" pf
  | .mm1 pf => withPf "MM1" pf
  | .lp2 pf => withPf "LP2" pf
  | .hp2 pf => withPf "HP2" pf
  | .ap2 pf => withPf "AP2" pf
  | .ls2 pf => withPf "LS2" pf
  | .ls2Db pf => withPf "LS2.DB" pf
  | .hs2 pf => withPf "HS2" pf
  | .hs2Db pf => withPf "HS2.DB" pf
  | .mm2 pf => withPf "MM2" pf
  | .bp2 pf => withPf "BP2" pf
  | .notch2 pf => withPf "NOTCH2" pf
  | .peak2 pf => withPf "PEAK2" pf
  | .peak2Db pf => withPf "PEAK2.DB" pf
  | .peak2Bw pf => withPf "PEAK2.BW" pf
  | .peak2BwDb pf => withPf "PEAK2.BW.DB" pf
  | .rst1 => "RST1"
  | .proc1 => "PROC1"
  | .procn1 => "PROCN1"
  | .rstm1Y => "RSTM1.Y"
  | .rstm1S => "RSTM1.S"
  | .rstm1Ys => "RSTM1.YS"
  | .procm1 => "PROCM1"
  | .rst2 => "RST2"
  | .proc2 => "PROC2"
  | .procn2 => "PROCN2"
  | .rstm2Y => "RSTM2.Y"
  | .rstm2S => "RSTM2.S"
  | .rstm2Ys => "RSTM2.YS"
  | .procm2 => "PROCM2"

/-- The names of the registers (R30). -/
def registerNames : List (String × Fin 32) :=
  [("FS", 0), ("FC", 1), ("FP", 2), ("Q", 3), ("BW", 4), ("GAIN", 5), ("CX", 6), ("CLP", 7),
    ("CBP", 8), ("CHP", 9), ("B0", 10), ("B1", 11), ("B2", 12), ("A1", 13), ("A2", 14), ("X", 15),
    ("Y", 16), ("S1", 17), ("S2", 18), ("XPTR", 19), ("YPTR", 20), ("SPTR", 21), ("NS", 22),
    ("NCH", 23), ("FCMD", 27), ("FINFO", 28), ("FCH", 29), ("STATUS", 30), ("CMD", 31)]

/-! ### Tokens. A token is a list of characters in capitals: names are case-insensitive (R109). -/

/-- A line's tokens: its characters up to `;`, split at spaces and commas. -/
def tokensFrom : (word : List Char) → List Char → List (List Char)
  | word, [] => if word.isEmpty then [] else [word.reverse]
  | word, c :: cs =>
    if c == ';' then (if word.isEmpty then [] else [word.reverse])
    else if c == ' ' || c == ',' || c == '\t' then
      (if word.isEmpty then tokensFrom [] cs else word.reverse :: tokensFrom [] cs)
    else tokensFrom (c.toUpper :: word) cs

/-- A digit's value, hexadecimal digits in capitals. -/
def digitValue (c : Char) : Nat :=
  if '0' ≤ c ∧ c ≤ '9' then c.toNat - 48
  else if 'A' ≤ c ∧ c ≤ 'F' then c.toNat - 55
  else 16

/-- A number of at least one digit in a base, most significant digit first. -/
def numberOf (base : Nat) (cs : List Char) : Option Nat :=
  if cs.isEmpty || cs.any (fun c => base ≤ digitValue c) then none
  else some (cs.foldl (fun n c => n * base + digitValue c) 0)

/-- The part before a character and the part after it, if it stands there. -/
def splitAtChar (x : Char) (cs : List Char) : List Char × Option (List Char) :=
  match cs.dropWhile (· != x) with
  | [] => (cs, none)
  | _ :: after => (cs.takeWhile (· != x), some after)

/-- An exponent: digits with an optional minus sign. -/
def exponentOf : List Char → Option Int
  | '-' :: cs => (numberOf 10 cs).map fun n => -(n : Int)
  | cs => (numberOf 10 cs).map fun n => (n : Int)

/-- An unsigned natural number, decimal or hexadecimal, that fits a word. -/
def naturalOf (cs : List Char) : Option Word :=
  let n := match cs with
    | '0' :: 'X' :: ds => numberOf 16 ds
    | ds => numberOf 10 ds
  n.bind fun v => if v < 2 ^ 32 then some (BitVec.ofNat 32 v) else none

/-- A decimal number with a point or an exponent: the nearest binary32 word (R110). -/
def decimalOf (neg : Bool) (cs : List Char) : Option Word :=
  let (mant, ex) := splitAtChar 'E' cs
  let (ip, fp) := splitAtChar '.' mant
  let fr := fp.getD []
  if ex.isNone && fp.isNone then none
  else do
    let digits ← numberOf 10 (ip ++ fr)
    let e ← match ex with
      | none => some 0
      | some t => exponentOf t
    return F32.ofDecimal neg digits (e - fr.length)

/-- A `<value>` of R110: a raw hexadecimal word, an unsigned integer, or a binary32 number. -/
def valueOf (cs : List Char) : Option Word :=
  match naturalOf cs with
  | some w => some w
  | none =>
    match cs with
    | '-' :: ds => decimalOf true ds
    | _ => decimalOf false cs

/-- A `<reg>` of R110: a register's name or a number from 0 to 31. The rule does not say in which
base the number stands. DESIGN CHOICE, safe: decimal only (log 16). -/
def registerOf (cs : List Char) : Option (Fin 32) :=
  match registerNames.find? (fun p => p.1.toList == cs) with
  | some p => some p.2
  | none => (numberOf 10 cs).bind fun n => if h : n < 32 then some ⟨n, h⟩ else none

/-- The command of a mnemonic. -/
def commandOf (cs : List Char) : Option Instr :=
  allCommands.find? fun i => (mnemonic i).toList == cs

/-- `WR CMD, <word>`: what a command mnemonic expands to (R110, R111). -/
def commandOp (i : Instr) : HostOp := .wr 31 (encode i)

/-- `SETC1 b0, b1, a1` (R111). -/
def setc1Ops (b0 b1 a1 : Word) : List HostOp := [.wr 10 b0, .wr 11 b1, .wr 13 a1]

/-- `SETC2 b0, b1, b2, a1, a2` (R111). -/
def setc2Ops (b0 b1 b2 a1 a2 : Word) : List HostOp :=
  [.wr 10 b0, .wr 11 b1, .wr 12 b2, .wr 13 a1, .wr 14 a2]

/-- `WRMV a, v0, …, vk` (R111); an address of more than 32 bits is no operand of the host port. -/
def wrmvOps : (a : Nat) → List Word → Option (List HostOp)
  | _, [] => some []
  | a, v :: vs =>
    if a < 2 ^ 32 then (wrmvOps (a + 4) vs).map fun ops => .wrm (BitVec.ofNat 32 a) v :: ops
    else none

/-- The host operations of a line's tokens (R110, R111). -/
def opsOfTokens : List (List Char) → Option (List HostOp)
  | [] => some []
  | head :: args =>
    if head == "WR".toList then
      match args with
      | [r, v] => do return [.wr (← registerOf r) (← valueOf v)]
      | _ => none
    else if head == "RD".toList then
      match args with
      | [r] => do return [.rd (← registerOf r)]
      | _ => none
    else if head == "WRM".toList then
      match args with
      | [a, v] => do return [.wrm (← naturalOf a) (← valueOf v)]
      | _ => none
    else if head == "RDM".toList then
      match args with
      | [a] => do return [.rdm (← naturalOf a)]
      | _ => none
    else if head == "POR".toList then (if args.isEmpty then some [.por] else none)
    else if head == "SETC1".toList then
      match args.mapM valueOf with
      | some [b0, b1, a1] => some (setc1Ops b0 b1 a1)
      | _ => none
    else if head == "SETC2".toList then
      match args.mapM valueOf with
      | some [b0, b1, b2, a1, a2] => some (setc2Ops b0 b1 b2 a1 a2)
      | _ => none
    else if head == "WRMV".toList then
      match args with
      | a :: v :: vs => do wrmvOps (← naturalOf a).toNat (← (v :: vs).mapM valueOf)
      | _ => none
    else if args.isEmpty then (commandOf head).map fun i => [commandOp i]
    else none

/-- The host operations of one line of a host program (R110). -/
def assembleLine (line : String) : Option (List HostOp) := opsOfTokens (tokensFrom [] line.toList)

/-- A host program: its lines' operations in order (R110). -/
def assemble (lines : List String) : Option (List HostOp) := (lines.mapM assembleLine).map List.flatten

end Sys2Proof.Machine
end

