-- ==== Sys2Proof/WellFormed.lean ====
section
/-! DEFINITION. Which command-word fields, which configurations and which host operations are
well formed (`30_encoding.md` R101, R103; `00_scope.md` R6; `10_state.md` R36 to R40, `20_memory.md`
R71). The decoder of `Decode.lean` is written from R105 and does not use these checks. -/

namespace Sys2Proof

/-- The `OP` values of R101. -/
def CmdFields.assignedOps : List (BitVec 8) :=
  [0x10, 0x11, 0x12, 0x13, 0x14, 0x15, 0x20, 0x21, 0x22, 0x23, 0x24, 0x25, 0x26, 0x27, 0x28,
   0x40, 0x41, 0x42, 0x43, 0x44, 0x50, 0x51, 0x52, 0x53, 0x54]

/-- The operation is one of R101. -/
def CmdFields.opAssigned (f : CmdFields) : Bool := CmdFields.assignedOps.contains f.op

/-- `PF` is set on a designer only: group `0x1` or `0x2` (R103). -/
def CmdFields.pfLegal (f : CmdFields) : Bool := !f.pf || f.op >>> 4 == 1 || f.op >>> 4 == 2

/-- `DB` is set on `LS1`, `HS1`, `LS2`, `HS2` or `PEAK2` only (R103). -/
def CmdFields.dbLegal (f : CmdFields) : Bool :=
  !f.db || [0x13, 0x14, 0x23, 0x24, 0x28].contains f.op

/-- `BW` is set on `PEAK2` only (R103). -/
def CmdFields.bwLegal (f : CmdFields) : Bool := !f.bw || f.op == 0x28

/-- `WY` and `WS` are set on `RSTM1` and `RSTM2` only, which need at least one of them (R103). -/
def CmdFields.outputsLegal (f : CmdFields) : Bool :=
  if f.op == 0x43 || f.op == 0x53 then f.wy || f.ws else !f.wy && !f.ws

/-- A set of fields that R103 makes a legal command word. -/
def CmdFields.wellFormed (f : CmdFields) : Bool :=
  f.opAssigned && f.pfLegal && f.dbLegal && f.bwLegal && f.outputsLegal

/-- `MEM_SIZE` is a multiple of 4 with `4 ≤ MEM_SIZE ≤ 2^32` (R6). -/
def Params.wellFormed (p : Params) : Bool :=
  p.memSize % 4 == 0 && decide (4 ≤ p.memSize) && decide (p.memSize ≤ 2 ^ 32)

/-- A register number a host may read: not reserved (R36). -/
def HostOp.readable (n : Fin 32) : Bool := !(n.val == 24 || n.val == 25 || n.val == 26)

/-- A register number a host may write: neither reserved nor read-only (R36 to R40). -/
def HostOp.writable (n : Fin 32) : Bool := decide (n.val < 24) || n.val == 31

/-- A host memory access that exists: word-aligned and inside the memory (R71). -/
def HostOp.addressable (p : Params) (a : Word) : Bool :=
  a.toNat % 4 == 0 && decide (a.toNat + 4 ≤ p.memSize)

/-- A host operation that raises no host-port fault of its own (R71; a command written to `CMD` may
still fault). -/
def HostOp.wellFormed (p : Params) : HostOp → Bool
  | .wr n _ => HostOp.writable n
  | .rd n => HostOp.readable n
  | .wrm a _ => HostOp.addressable p a
  | .rdm a => HostOp.addressable p a
  | .por => true

end Sys2Proof
end

