-- ==== Sys2Proof/Safety.lean ====
section
/-! DEFINITION. What a legal state and a safe run are, and the terms the statements use: operands
that lie in their domains, runs inside the memory, and the scalar processing of one channel that
the batch commands must agree with. -/

namespace Sys2Proof.Machine

/-! ### The invariant -/

/-- The listed bytes come in whole words: the written-bit is one per word (`20_memory.md` R76). -/
def Memory.wholeWords (m : Memory) : Bool :=
  m.all fun p => [0, 1, 2, 3].all fun j => (readByte m (p.1 / 4 * 4 + j)).isSome

/-- Every listed byte lies below `MEM_SIZE` (R70). -/
def Memory.inside (size : Nat) (m : Memory) : Bool := m.all fun p => decide (p.1 < size)

/-- The word is a command (`30_encoding.md` R105). -/
def isCommand (w : Word) : Bool := (decode w).toOption.isSome

/-- What `FCMD`, `FINFO` and `FCH` may hold beside a cause (`60_exceptions.md` R342), in a memory of
`size` bytes. -/
def recordLegal (size : Nat) (c : Cause) (fcmd finfo fch : Word) : Bool :=
  match c with
  | .illegalCommand => !isCommand fcmd && finfo == 0 && fch == 0
  | .unwrittenRegister => isCommand fcmd && decide (finfo.toNat < 24) && fch == 0
  | .paramDomain => isCommand fcmd
      && [0, 1, 2, 3, 4, 5, 6, 7, 8, 9, 0x101, 0x102, 0x103].contains finfo.toNat && fch == 0
  | .designResult => isCommand fcmd && finfo == 0 && fch == 0
  | .coeffInvalid => isCommand fcmd && finfo == 0 && fch == 0
  | .valueNonfinite => isCommand fcmd
  | .outputNonfinite => isCommand fcmd
  | .accessFault => isCommand fcmd || (fcmd == 0 && fch == 0)
  | .aliasViolation => isCommand fcmd && finfo == 0 && fch == 0
  | .unwrittenMemory => isCommand fcmd && finfo.toNat % 4 == 0 && decide (finfo.toNat + 4 ≤ size)
  | .registerAccess => fcmd == 0 && decide (24 ≤ finfo.toNat) && decide (finfo.toNat ≤ 30)
      && fch == 0

/-- The fault registers of a state: all 0 while the block is not halted (R37 to R40), and a legal
record of one cause while it is. -/
def faultRegsLegal (s : State) : Prop :=
  (s.halted = false ∧ s.status = 0 ∧ s.fcmd = 0 ∧ s.finfo = 0 ∧ s.fch = 0) ∨
  (s.halted = true ∧ ∃ c, s.status = statusOfCause c ∧
    recordLegal s.params.memSize c s.fcmd s.finfo s.fch = true)

/-- The invariant of the machine: a legal configuration (`00_scope.md` R6), a memory in its canonical
form, of whole words inside the data memory (R70, R76), and legal fault registers. -/
structure State.Inv (s : State) : Prop where
  params : s.params.wellFormed = true
  canonical : Memory.wf s.mem
  wholeWords : Memory.wholeWords s.mem = true
  inside : Memory.inside s.params.memSize s.mem = true
  faultRegs : faultRegsLegal s

/-- A run of `k` steps that ends with `STATUS.FAULT = 0`, the premise of every claim about a run
(`60_exceptions.md` R345). -/
def safeRun (k : Nat) (s t : State) : Prop :=
  Host.Core.run Sys2Proof.core k s = .next t ∧ statusFault t.status = false

/-! ### Operands in their domains -/

/-- Every register of a list is written (`10_state.md` R35). -/
abbrev allWritten (s : State) (rs : List Reg) : Prop := ∀ r ∈ rs, s.written r = true

/-- `lo <= v <= hi` as IEEE comparisons. -/
abbrev inDomain (lo v hi : Word) : Prop := F32.le lo v = true ∧ F32.le v hi = true

/-- `FS`, `FC` and, with `PF`, `FP` in their domains (`40_designer_shared.md` R141 to R143). -/
abbrev frequenciesOk (pf : Bool) (s : State) : Prop :=
  F32.isFinite (s.reg .fs) = true ∧ F32.lt F32.posZero (s.reg .fs) = true ∧
  inDomain fMin (s.reg .fc) fMax ∧ (pf = true → inDomain fMin (s.reg .fp) fMax)

/-- `G` is the linear gain of `GAIN` (R146), linear or in decibels. -/
abbrev linearGain (s : State) (db : Bool) (g : Word) : Prop :=
  (db = false ∧ g = s.reg .gain ∧ inDomain gMin g gMax) ∨
  (db = true ∧ inDomain dbMin (s.reg .gain) dbMax ∧ g = s.num.dB2linF (s.reg .gain) ∧
    inDomain gMin g gMax)

/-- A run of `n` words at `a` is aligned and inside the memory (`20_memory.md` R74). -/
abbrev runInMemory (s : State) (a n : Nat) : Prop := a % 4 = 0 ∧ a + 4 * n ≤ s.params.memSize

/-- The address lies in the run of `n` words at `a` (R82). -/
abbrev inRun (a n addr : Nat) : Prop := a ≤ addr ∧ addr < a + 4 * n

/-- The words of a run are written and hold the list (R78). -/
abbrev runHolds (o : ByteOrder) (m : Memory) (a : Nat) (ws : List Word) : Prop :=
  ∀ (j : Nat) (h : j < ws.length), readWord o m (wordAddr a j) = some ws[j]

/-- The state cell at `a` is written and holds the cell (R80); the first order has `s1` alone. -/
abbrev cellHolds (o : ByteOrder) (ord : Order) (m : Memory) (a : Nat) (st : Cell Word) : Prop :=
  readWord o m a = some st.s1 ∧ (ord = .second → readWord o m (a + 4) = some st.s2)

/-- The two runs of `n` words are the same run or share no byte (`Same` or `Disjoint`, R82). -/
abbrev sameOrApart (a b n : Nat) : Prop := a = b ∨ a + 4 * n ≤ b ∨ b + 4 * n ≤ a

/-- The runs of `n` words at `a` and of `k` words at `b`, neither empty, share no byte (R82). -/
abbrev apart (a n b k : Nat) : Prop := a + 4 * n ≤ b ∨ b + 4 * k ≤ a

/-! ### Kinds of command -/

/-- The bit `PF` of a designer (R102); no value for an engine command. -/
def designerPf : Instr → Option Bool
  | .lp1 pf | .hp1 pf | .ap1 pf | .ls1 pf | .ls1Db pf | .hs1 pf | .hs1Db pf | .mm1 pf => some pf
  | .lp2 pf | .hp2 pf | .ap2 pf | .ls2 pf | .ls2Db pf | .hs2 pf | .hs2Db pf | .mm2 pf => some pf
  | .bp2 pf | .notch2 pf | .peak2 pf | .peak2Db pf | .peak2Bw pf | .peak2BwDb pf => some pf
  | .rst1 | .proc1 | .procn1 | .rstm1Y | .rstm1S | .rstm1Ys | .procm1 => none
  | .rst2 | .proc2 | .procn2 | .rstm2Y | .rstm2S | .rstm2Ys | .procm2 => none

/-- The order of an engine command (R101); no value for a designer. -/
def engineOrder : Instr → Option Order
  | .rst1 | .proc1 | .procn1 | .rstm1Y | .rstm1S | .rstm1Ys | .procm1 => some .first
  | .rst2 | .proc2 | .procn2 | .rstm2Y | .rstm2S | .rstm2Ys | .procm2 => some .second
  | .lp1 _ | .hp1 _ | .ap1 _ | .ls1 _ | .ls1Db _ | .hs1 _ | .hs1Db _ | .mm1 _ => none
  | .lp2 _ | .hp2 _ | .ap2 _ | .ls2 _ | .ls2Db _ | .hs2 _ | .hs2Db _ | .mm2 _ => none
  | .bp2 _ | .notch2 _ | .peak2 _ | .peak2Db _ | .peak2Bw _ | .peak2BwDb _ => none

/-- The commands that reach the data memory (`20_memory.md` R70). -/
def isBatch : Instr → Bool
  | .procn1 | .rstm1Y | .rstm1S | .rstm1Ys | .procm1 => true
  | .procn2 | .rstm2Y | .rstm2S | .rstm2Ys | .procm2 => true
  | .rst1 | .proc1 | .rst2 | .proc2 => false
  | .lp1 _ | .hp1 _ | .ap1 _ | .ls1 _ | .ls1Db _ | .hs1 _ | .hs1Db _ | .mm1 _ => false
  | .lp2 _ | .hp2 _ | .ap2 _ | .ls2 _ | .ls2Db _ | .hs2 _ | .hs2Db _ | .mm2 _ => false
  | .bp2 _ | .notch2 _ | .peak2 _ | .peak2Db _ | .peak2Bw _ | .peak2BwDb _ => false

/-- The single-sample command of an order (`44_engine_process.md` R302, R303). -/
def procCommand : Order → Instr
  | .first => .proc1
  | .second => .proc2

/-- The single-channel batch command of an order (R305, R306). -/
def procnCommand : Order → Instr
  | .first => .procn1
  | .second => .procn2

/-- The multi-channel batch command of an order (R308, R309). -/
def procmCommand : Order → Instr
  | .first => .procm1
  | .second => .procm2

/-- The six batched resets: the command, its order and its flags `WY` and `WS`
(`43_engine_reset.md` R278 to R283). -/
def rstmCommands : List (Instr × Order × Bool × Bool) :=
  [(.rstm1Y, .first, true, false), (.rstm1S, .first, false, true), (.rstm1Ys, .first, true, true),
   (.rstm2Y, .second, true, false), (.rstm2S, .second, false, true),
   (.rstm2Ys, .second, true, true)]

/-! ### Rows of the opcode table -/

/-- The `mask` of a command's row (`30_encoding.md` R108). -/
def rowMask (i : Instr) : Word := if (designerPf i).isSome then 0xFFFFFEFF else 0xFFFFFFFF

/-- The `match` of a command's row (R108). -/
def rowMatch : Instr → Word
  | .lp1 _ => 0x00000010
  | .hp1 _ => 0x00000011
  | .ap1 _ => 0x00000012
  | .ls1 _ => 0x00000013
  | .ls1Db _ => 0x00000213
  | .hs1 _ => 0x00000014
  | .hs1Db _ => 0x00000214
  | .mm1 _ => 0x00000015
  | .lp2 _ => 0x00000020
  | .hp2 _ => 0x00000021
  | .ap2 _ => 0x00000022
  | .ls2 _ => 0x00000023
  | .ls2Db _ => 0x00000223
  | .hs2 _ => 0x00000024
  | .hs2Db _ => 0x00000224
  | .mm2 _ => 0x00000025
  | .bp2 _ => 0x00000026
  | .notch2 _ => 0x00000027
  | .peak2 _ => 0x00000028
  | .peak2Db _ => 0x00000228
  | .peak2Bw _ => 0x00000428
  | .peak2BwDb _ => 0x00000628
  | .rst1 => 0x00000040
  | .proc1 => 0x00000041
  | .procn1 => 0x00000042
  | .rstm1Y => 0x00000843
  | .rstm1S => 0x00001043
  | .rstm1Ys => 0x00001843
  | .procm1 => 0x00000044
  | .rst2 => 0x00000050
  | .proc2 => 0x00000051
  | .procn2 => 0x00000052
  | .rstm2Y => 0x00000853
  | .rstm2S => 0x00001053
  | .rstm2Ys => 0x00001853
  | .procm2 => 0x00000054

/-- The fields of a word, by their bit positions (R100). -/
def wordFields (w : Word) : CmdFields where
  op := w.extractLsb' 0 8
  pf := w.getLsbD 8
  db := w.getLsbD 9
  bw := w.getLsbD 10
  wy := w.getLsbD 11
  ws := w.getLsbD 12

/-! ### Scalar processing -/

/-- One channel's samples processed in order from a state cell, if every input, state value and
result is finite (`44_engine_process.md` R300, R301): the outputs and the last cell. -/
def channelRun (N : Num) (c : Coefs Word) : (st : Cell Word) → List Word →
    Option (List Word × Cell Word)
  | st, [] => some ([], st)
  | st, x :: xs =>
    if F32.isFinite x && cellFinite (orderOf c) st then
      let r := stepValues N c x st
      if F32.isFinite r.1 && cellFinite (orderOf c) r.2 then
        (channelRun N c r.2 xs).map fun p => (r.1 :: p.1, p.2)
      else none
    else none

/-- The host loop of R310: each input goes to `X`, the command runs, and `Y` is collected, up to
the first fault. The outputs collected and the last state. -/
def scalarLoop (i : Instr) : List Word → State → List Word × State
  | [], s => ([], s)
  | x :: xs, s =>
    match exec i (s.setReg .x x) with
    | .next t =>
      if t.halted then ([], t)
      else
        let r := scalarLoop i xs t
        (t.reg .y :: r.1, r.2)
    | _ => ([], s)

end Sys2Proof.Machine
end

