-- ==== Sys2Proof/Certificates/Slice0/Obligations.lean ====
section
/-! DEFINITION. The statements about IIRCORE for the provers. In all of them `exec` runs a command
whose word is `encode i`, `step` is one host action, and a statement over every state ranges over
every configuration: memory size, byte order, `FTZ` and either instantiation of `NUM`. -/

section

open Sys2Proof Sys2Proof.Machine

/-! ### Encoding -/

/-- Words written out bit by bit from R100 and R101 decode to the commands they stand for, and words
that R105 makes illegal decode to none. -/
def Obligations.WrittenOutWordsDecode : Prop :=
  decode 0b00000000000000000000000000010000#32 = .ok (.lp1 false) ∧
  decode 0b00000000000000000000000100010000#32 = .ok (.lp1 true) ∧
  decode 0b00000000000000000000001000010011#32 = .ok (.ls1Db false) ∧
  decode 0b00000000000000000000001100100100#32 = .ok (.hs2Db true) ∧
  decode 0b00000000000000000000011100101000#32 = .ok (.peak2BwDb true) ∧
  decode 0b00000000000000000000010000101000#32 = .ok (.peak2Bw false) ∧
  decode 0b00000000000000000000000001000000#32 = .ok .rst1 ∧
  decode 0b00000000000000000000000001010001#32 = .ok .proc2 ∧
  decode 0b00000000000000000000000001000010#32 = .ok .procn1 ∧
  decode 0b00000000000000000001100001010011#32 = .ok .rstm2Ys ∧
  decode 0b00000000000000000001000001000011#32 = .ok .rstm1S ∧
  decode 0b00000000000000000000000001010100#32 = .ok .procm2 ∧
  isCommand 0b00000000000000000000000000000000#32 = false ∧
  isCommand 0b00000000000000000000000001000011#32 = false ∧
  isCommand 0b00000000000000000000001000010000#32 = false ∧
  isCommand 0b00000000000000000010000000010000#32 = false

/-- A word decodes to a command exactly when it is the word of that command: decoding is injective
on the legal words and the encoder is its inverse, both ways. -/
def Obligations.DecodeIffEncode : Prop :=
  ∀ (w : Word) (i : Instr), decode w = .ok i ↔ w = encode i

/-- R108: the 36 rows, of 25 operations, are all the legal words; exactly one row matches each legal
word, no row matches an illegal one, and there are 58 legal words. -/
def Obligations.LegalWordsAreTheTableRows : Prop :=
  (allCommands.map rowMatch).dedup.length = 36 ∧
  (allCommands.map fun i => (rowMatch i).extractLsb' 0 8).dedup.length = 25 ∧
  (∀ (w : Word) (i : Instr), decode w = .ok i → w &&& rowMask i = rowMatch i) ∧
  (∀ (w : Word) (i : Instr), w &&& rowMask i = rowMatch i →
    ∃ j, decode w = .ok j ∧ rowMatch j = rowMatch i) ∧
  ∃ ws : List Word, ws.Nodup ∧ ws.length = 58 ∧ ∀ w, w ∈ ws ↔ isCommand w = true

/-- R103 and R105: a word is a command exactly when its reserved bits are 0, its operation is
assigned and each set flag is legal on it; and the command has the word's fields. -/
def Obligations.DecodeAcceptsExactlyTheLegalWords : Prop :=
  (∀ w : Word, (∃ i, decode w = .ok i) ↔
    w.extractLsb' 13 19 = 0#19 ∧ (wordFields w).wellFormed = true) ∧
  ∀ (w : Word) (i : Instr), decode w = .ok i → instrFields i = wordFields w

/-! ### One step and the host port -/

/-- R104: the step in which the host writes a legal word to `CMD`, the block not halted, is `exec` of
the decoded command at the state that has stored the word and taken the action from the queue. The
second part says it of a word placed by `State.withFetchWord` (log 11). -/
def Obligations.StepRunsTheDecodedCommand : Prop :=
  (∀ (s : State) (w : Word) (i : Instr) (rest : List HostOp),
    s.hostQueue = .wr 31 w :: rest → s.halted = false → decode w = .ok i →
    step s = exec i { s with hostQueue := rest, cmd := w, cmdWr := true }) ∧
  ∀ (s : State) (nbits w : Nat) (i : Instr),
    s.halted = false → decodeTableWord nbits w = some i →
    step (s.withFetchWord nbits w) = exec i { s with cmd := encode i, cmdWr := true }

/-- R41: the command register. A write while not halted stores the word and executes it (a word that
is no command faults); a write while halted is ignored; a read returns the last word stored, or
none; POR clears the written-bit. The queue of actions and the record of reads are the model's form of
the host (log 9, 10). -/
def Obligations.CommandRegister : Prop :=
  ∀ (s : State) (rest : List HostOp),
    (∀ w, s.hostQueue = .wr 31 w :: rest → s.halted = false →
      (∀ i, decode w = .ok i →
        step s = exec i { s with hostQueue := rest, cmd := w, cmdWr := true }) ∧
      (isCommand w = false →
        step s = .next { s with
          hostQueue := rest, cmd := w, cmdWr := true,
          status := 0x101, fcmd := w, finfo := 0, fch := 0, halted := true })) ∧
    (∀ w, s.hostQueue = .wr 31 w :: rest → s.halted = true →
      step s = .next { s with hostQueue := rest }) ∧
    (s.hostQueue = .rd 31 :: rest →
      step s = .next { s with
        hostQueue := rest,
        observed := .reg 31 (if s.cmdWr then some s.cmd else none) :: s.observed }) ∧
    (s.hostQueue = .por :: rest → ∃ t, step s = .next t ∧ t.cmdWr = false)

/-- R42, R43: a host write of registers 0 to 23 takes any word unchanged and sets the written-bit,
halted or not, and changes nothing else. -/
def Obligations.HostWritesValueRegister : Prop :=
  ∀ (s : State) (r : Reg) (v : Word) (rest : List HostOp),
    s.hostQueue = .wr ((regNum r).castLE (by decide)) v :: rest →
    ∃ t, step s = .next t ∧ t.reg r = v ∧ t.written r = true ∧
      (∀ r', r' ≠ r → t.reg r' = s.reg r' ∧ t.written r' = s.written r') ∧
      t = { s with hostQueue := rest, regs := t.regs, wr := t.wr }

/-- R36: registers 24, 25 and 26 are reserved. While not halted an access of them is
`REGISTER_ACCESS(info = n)` with `FCMD = 0`; while halted it is ignored and a read returns none. The
queue of actions and the record of reads are the model's form of the host (log 9, 10). -/
def Obligations.ReservedRegisters : Prop :=
  ∀ (s : State) (n : Fin 32) (rest : List HostOp), 24 ≤ n.val → n.val ≤ 26 →
    (s.halted = false →
      (∀ v, s.hostQueue = .wr n v :: rest →
        step s = .next { s with
          hostQueue := rest, status := 0x10B, fcmd := 0, finfo := BitVec.ofNat 32 n.val, fch := 0,
          halted := true }) ∧
      (s.hostQueue = .rd n :: rest → ∃ obs,
        step s = .next { s with
          hostQueue := rest, status := 0x10B, fcmd := 0, finfo := BitVec.ofNat 32 n.val, fch := 0,
          halted := true, observed := obs })) ∧
    (s.halted = true →
      (∀ v, s.hostQueue = .wr n v :: rest → step s = .next { s with hostQueue := rest }) ∧
      (s.hostQueue = .rd n :: rest →
        step s = .next { s with hostQueue := rest, observed := .reg n none :: s.observed }))

/-- R37 to R40: registers 27 to 30 are read-only to the host. While not halted a write is
`REGISTER_ACCESS(info = n)`; while halted it is ignored. -/
def Obligations.ReadOnlyRegisters : Prop :=
  ∀ (s : State) (n : Fin 32) (v : Word) (rest : List HostOp), 27 ≤ n.val → n.val ≤ 30 →
    s.hostQueue = .wr n v :: rest →
    (s.halted = false → step s = .next { s with
      hostQueue := rest, status := 0x10B, fcmd := 0, finfo := BitVec.ofNat 32 n.val, fch := 0,
      halted := true }) ∧
    (s.halted = true → step s = .next { s with hostQueue := rest })

/-- R35, R37 to R40, R42: a host read of a register, halted or not, returns its word, or no value
where the written-bit is clear, and changes nothing; registers 27 to 30 always hold a value. The
record of what was read is the model's (log 10). -/
def Obligations.HostReadsRegister : Prop :=
  ∀ (s : State) (rest : List HostOp),
    (∀ r, s.hostQueue = .rd ((regNum r).castLE (by decide)) :: rest →
      step s = .next { s with
        hostQueue := rest,
        observed := .reg ((regNum r).castLE (by decide))
          (if s.written r then some (s.reg r) else none) :: s.observed }) ∧
    (s.hostQueue = .rd 27 :: rest → step s = .next { s with
      hostQueue := rest, observed := .reg 27 (some s.fcmd) :: s.observed }) ∧
    (s.hostQueue = .rd 28 :: rest → step s = .next { s with
      hostQueue := rest, observed := .reg 28 (some s.finfo) :: s.observed }) ∧
    (s.hostQueue = .rd 29 :: rest → step s = .next { s with
      hostQueue := rest, observed := .reg 29 (some s.fch) :: s.observed }) ∧
    (s.hostQueue = .rd 30 :: rest → step s = .next { s with
      hostQueue := rest, observed := .reg 30 (some s.status) :: s.observed })

/-- R71: host memory accesses. A misaligned or out-of-range one faults while not halted and has no
effect while halted; otherwise `WRM` writes the word and sets its written-bit, leaving every other
byte as it was, and `RDM` returns the word, or no value where it is unwritten. -/
def Obligations.HostMemoryAccess : Prop :=
  ∀ (s : State) (a : Word) (rest : List HostOp),
    (¬(a.toNat % 4 = 0 ∧ a.toNat + 4 ≤ s.params.memSize) →
      (s.halted = false →
        (∀ v, s.hostQueue = .wrm a v :: rest → step s = .next { s with
          hostQueue := rest, status := 0x108, fcmd := 0, finfo := a, fch := 0, halted := true }) ∧
        (s.hostQueue = .rdm a :: rest → ∃ obs, step s = .next { s with
          hostQueue := rest, status := 0x108, fcmd := 0, finfo := a, fch := 0, halted := true,
          observed := obs })) ∧
      (s.halted = true →
        (∀ v, s.hostQueue = .wrm a v :: rest → step s = .next { s with hostQueue := rest }) ∧
        (s.hostQueue = .rdm a :: rest → step s = .next { s with
          hostQueue := rest, observed := .mem a none :: s.observed }))) ∧
    (a.toNat % 4 = 0 → a.toNat + 4 ≤ s.params.memSize →
      (∀ v, s.hostQueue = .wrm a v :: rest → ∃ m,
        step s = .next { s with hostQueue := rest, mem := m } ∧
        readWord s.params.byteOrder m a.toNat = some v ∧
        ∀ x, ¬inRun a.toNat 1 x → readByte m x = readByte s.mem x) ∧
      (s.hostQueue = .rdm a :: rest → step s = .next { s with
        hostQueue := rest, observed := .mem a (s.memRead a.toNat) :: s.observed }))

/-- R48, R380, R381: power-on reset, halted or not, clears every written-bit of a register or memory
word, the fault registers and `halted`, and leaves the configuration; the reset state of the machine is
such a state. -/
def Obligations.PowerOnReset : Prop :=
  (∀ (s : State) (rest : List HostOp), s.hostQueue = .por :: rest →
    ∃ t, step s = .next t ∧
      (∀ r, t.written r = false) ∧ t.cmdWr = false ∧ (∀ a, t.memRead a = none) ∧
      t.status = 0 ∧ t.fcmd = 0 ∧ t.finfo = 0 ∧ t.fch = 0 ∧ t.halted = false ∧
      t.params = s.params) ∧
  (∀ r, State.reset.written r = false) ∧ State.reset.cmdWr = false ∧
  (∀ a, State.reset.memRead a = none) ∧ State.reset.status = 0 ∧ State.reset.fcmd = 0 ∧
  State.reset.finfo = 0 ∧ State.reset.fch = 0 ∧ State.reset.halted = false

/-- R345, R381: while the block is halted no command runs and no operation faults: a `CMD` write and
every operation that would fault change nothing but the host's own queue and record, and the fault
registers and `CMD` stay until POR, the only way out. The queue and the record are the model's form of
the host (log 9, 10). -/
def Obligations.HaltedUntilPowerOnReset : Prop :=
  ∀ (s : State) (op : HostOp) (rest : List HostOp),
    s.hostQueue = op :: rest → s.halted = true →
    (op ≠ .por → ∃ t, step s = .next t ∧ t.halted = true ∧ t.status = s.status ∧
      t.fcmd = s.fcmd ∧ t.finfo = s.finfo ∧ t.fch = s.fch ∧ t.cmd = s.cmd ∧ t.cmdWr = s.cmdWr) ∧
    ((∃ w, op = .wr 31 w) → step s = .next { s with hostQueue := rest }) ∧
    (op.wellFormed s.params = false →
      ∃ obs, step s = .next { s with hostQueue := rest, observed := obs }) ∧
    (op = .por → ∃ t, step s = .next t ∧ t.halted = false)

/-! ### The invariant and the step as a whole -/

/-- Every step keeps the invariant: a legal configuration, a canonical memory of whole words inside
`MEM_SIZE`, and fault registers that are all 0 or record one fault of R342. -/
def Obligations.StepKeepsInvariant : Prop :=
  ∀ s t : State, s.Inv → step s = .next t → t.Inv

/-- The state after reset meets the invariant. Its `MEM_SIZE` is the model's choice (log 1). -/
def Obligations.ResetMeetsInvariant : Prop := State.reset.Inv

/-- R391, R380, R353: every step answers a next state, keeps the configuration, and takes one host
action; with none pending the block holds its state (the queue is the model's, log 9). -/
def Obligations.StepAnswersNext : Prop :=
  ∀ s : State, ∃ t, step s = .next t ∧ t.params = s.params ∧ t.hostQueue = s.hostQueue.tail ∧
    (s.hostQueue = [] → t = s)

/-- R104, R344: a command either leaves the fault registers and `halted` as they were, or enters a
fault with one of the causes a command can raise, its own word in `FCMD`, and `halted` set. -/
def Obligations.CommandsAndTheFaultRegisters : Prop :=
  ∀ (i : Instr) (s t : State), exec i s = .next t →
    (t.status = s.status ∧ t.fcmd = s.fcmd ∧ t.finfo = s.finfo ∧ t.fch = s.fch ∧
      t.halted = s.halted) ∨
    (t.halted = true ∧ t.fcmd = encode i ∧
      ∃ c, t.status = 0x100#32 ||| BitVec.ofNat 32 (causeCode c) ∧
        c ≠ .illegalCommand ∧ c ≠ .registerAccess ∧
        (designerPf i = none → c ≠ .paramDomain ∧ c ≠ .designResult) ∧
        (engineOrder i = none → c = .unwrittenRegister ∨ c = .paramDomain ∨ c = .designResult) ∧
        (isBatch i = false → c ≠ .accessFault ∧ c ≠ .aliasViolation ∧ c ≠ .unwrittenMemory))

/-! ### Frames -/

/-- The register frame of every command (R106): a register outside the write set keeps its word and
its written-bit; `CMD`, the configuration and the host's queue and record are unchanged; a command
that is no batch leaves all of memory as it was; and a `PROCN` of no samples writes no register. -/
def Obligations.CommandsWriteOnlyTheirWriteSet : Prop :=
  ∀ (i : Instr) (s t : State), exec i s = .next t →
    (∀ r, r ∉ writeSet i → t.reg r = s.reg r ∧ t.written r = s.written r) ∧
    t.cmd = s.cmd ∧ t.cmdWr = s.cmdWr ∧ t.params = s.params ∧ t.hostQueue = s.hostQueue ∧
    t.observed = s.observed ∧ (isBatch i = false → t.mem = s.mem) ∧
    ((i = .procn1 ∨ i = .procn2) → (s.reg .ns).toNat = 0 →
      ∀ r, t.reg r = s.reg r ∧ t.written r = s.written r)

/-- The memory frame of the batch commands (R78 to R81, R304, R277, R307): every byte outside the
output run, the wanted arrays, or the channels' output runs and the state array reads as before,
whether the command completes or faults. -/
def Obligations.BatchCommandsWriteOnlyTheirRuns : Prop :=
  (∀ (o : Order) (s t : State), exec (procnCommand o) s = .next t →
    ∀ x, ¬inRun (s.reg .yptr).toNat (s.reg .ns).toNat x → readByte t.mem x = readByte s.mem x) ∧
  (∀ (i : Instr) (o : Order) (wy ws : Bool), (i, o, wy, ws) ∈ rstmCommands →
    ∀ s t : State, exec i s = .next t →
    ∀ x, (wy = true → ¬inRun (s.reg .yptr).toNat (s.reg .nch).toNat x) →
      (ws = true → ¬inRun (s.reg .sptr).toNat (orderWords o * (s.reg .nch).toNat) x) →
      readByte t.mem x = readByte s.mem x) ∧
  ∀ (o : Order) (s t : State), exec (procmCommand o) s = .next t →
    ∀ x, (∀ (c : Nat) (v : Word), c < (s.reg .nch).toNat →
        s.memRead (wordAddr (s.reg .yptr).toNat c) = some v →
        ¬inRun v.toNat (s.reg .ns).toNat x) →
      ¬inRun (s.reg .sptr).toNat (orderWords o * (s.reg .nch).toNat) x →
      readByte t.mem x = readByte s.mem x

/-- R235 and, for the engine commands, R106: a register outside the read set changes none of a
command's results. The two runs agree on everything, but for that register itself where the command
does not write it. -/
def Obligations.RegistersOutsideTheReadSetDoNotMatter : Prop :=
  ∀ (i : Instr) (s : State) (r : Reg) (v : Word), r ∉ readSet i →
    ∃ t t', exec i s = .next t ∧ exec i (s.setReg r v) = .next t' ∧
      (t' = t.setReg r v ∨ (r ∈ writeSet i ∧ t' = t))

/-! ### Faults of every command -/

/-- R35, R104, R343: before anything else a command faults on the lowest register of its read set that
is not written, and changes nothing but the fault registers. -/
def Obligations.UnwrittenRegisterFaultsFirst : Prop :=
  ∀ (i : Instr) (s : State) (r : Reg), r ∈ readSet i → s.written r = false →
    (∀ r' ∈ readSet i, (regNum r').val < (regNum r).val → s.written r' = true) →
    exec i s = .next { s with
      status := 0x102, fcmd := encode i, finfo := BitVec.ofNat 32 (regNum r).val, fch := 0,
      halted := true }

/-- R346, the first two points: a command that faults with a cause that is checked before its first
write, or that is no batch command, leaves every register, written-bit and memory word as it was. -/
def Obligations.FaultsBeforeTheFirstWriteArePrecise : Prop :=
  ∀ (i : Instr) (s t : State), s.halted = false → exec i s = .next t → t.halted = true →
    (isBatch i = false ∨ t.status ∈ [0x102#32, 0x103#32, 0x104#32, 0x105#32, 0x108#32, 0x109#32]) →
    t = { s with
      status := t.status, fcmd := t.fcmd, finfo := t.finfo, fch := t.fch, halted := true }

/-! ### Designers: the parameter checks -/

/-- R141, R142, R143: the sample rate, the cutoff and, with `PF`, the prewarp frequency are checked in
this order by every designer. -/
def Obligations.FrequencyDomainFaults : Prop :=
  ∀ (i : Instr) (pf : Bool) (s : State), designerPf i = some pf → allWritten s (readSet i) →
    (¬(F32.isFinite (s.reg .fs) = true ∧ F32.lt 0 (s.reg .fs) = true) →
      exec i s = .next (faultEntry ⟨.paramDomain, 0, 0⟩ (encode i) s)) ∧
    (F32.isFinite (s.reg .fs) = true → F32.lt 0 (s.reg .fs) = true →
      ¬inDomain 0x358637BD (s.reg .fc) 0x5368D4A5 →
      exec i s = .next (faultEntry ⟨.paramDomain, 1, 0⟩ (encode i) s)) ∧
    (F32.isFinite (s.reg .fs) = true → F32.lt 0 (s.reg .fs) = true →
      inDomain 0x358637BD (s.reg .fc) 0x5368D4A5 → pf = true →
      ¬inDomain 0x358637BD (s.reg .fp) 0x5368D4A5 →
      exec i s = .next (faultEntry ⟨.paramDomain, 2, 0⟩ (encode i) s))

/-- R144, R145: after the frequencies, a second-order designer that reads `Q` checks it, and the peak by
bandwidth checks `BW`. -/
def Obligations.WidthDomainFaults : Prop :=
  ∀ (i : Instr) (pf : Bool) (s : State), designerPf i = some pf → allWritten s (readSet i) →
    frequenciesOk pf s →
    (.q ∈ readSet i → ¬inDomain 0x358637BD (s.reg .q) 0x49742400 →
      exec i s = .next (faultEntry ⟨.paramDomain, 3, 0⟩ (encode i) s)) ∧
    ((i = .peak2Bw pf ∨ i = .peak2BwDb pf) →
      ¬(F32.isFinite (s.reg .bw) = true ∧ F32.lt 0 (s.reg .bw) = true ∧
        F32.le (s.reg .bw) 0x42B40000 = true) →
      exec i s = .next (faultEntry ⟨.paramDomain, 4, 0⟩ (encode i) s))

/-- R146: after the frequencies and the width, `GAIN` outside its range faults with 5, in decibels
for a `.DB` command, and a converted gain outside the linear range faults with `0x103`. -/
def Obligations.GainDomainFaults : Prop :=
  ∀ (pf : Bool) (s : State), frequenciesOk pf s →
    (∀ i ∈ [Instr.ls1 pf, .hs1 pf, .ls2 pf, .hs2 pf, .peak2 pf, .peak2Bw pf],
      allWritten s (readSet i) →
      (.q ∈ readSet i → inDomain qMin (s.reg .q) qMax) →
      (.bw ∈ readSet i → F32.isFinite (s.reg .bw) = true ∧ F32.lt 0 (s.reg .bw) = true ∧
        F32.le (s.reg .bw) bwMax = true) →
      ¬inDomain 0x0DA24260 (s.reg .gain) 0x7149F2CA →
      exec i s = .next (faultEntry ⟨.paramDomain, 5, 0⟩ (encode i) s)) ∧
    (∀ i ∈ [Instr.ls1Db pf, .hs1Db pf, .ls2Db pf, .hs2Db pf, .peak2Db pf, .peak2BwDb pf],
      allWritten s (readSet i) →
      (.q ∈ readSet i → inDomain qMin (s.reg .q) qMax) →
      (.bw ∈ readSet i → F32.isFinite (s.reg .bw) = true ∧ F32.lt 0 (s.reg .bw) = true ∧
        F32.le (s.reg .bw) bwMax = true) →
      (¬inDomain 0xC4160000 (s.reg .gain) 0x44160000 →
        exec i s = .next (faultEntry ⟨.paramDomain, 5, 0⟩ (encode i) s)) ∧
      (inDomain 0xC4160000 (s.reg .gain) 0x44160000 →
        ¬inDomain 0x0DA24260 (s.num.dB2linF (s.reg .gain)) 0x7149F2CA →
        exec i s = .next (faultEntry ⟨.paramDomain, 0x103, 0⟩ (encode i) s)))

/-- R147: the first mixing coefficient in ascending register number that is not finite faults with its
register number, after the frequencies and, for `MM2`, `Q`. -/
def Obligations.MixDomainFaults : Prop :=
  ∀ (pf : Bool) (s : State), frequenciesOk pf s →
    ∀ (i : Instr) (mix : List Reg),
      (i, mix) ∈ [(Instr.mm1 pf, [Reg.cx, .clp]), (.mm2 pf, [.cx, .clp, .cbp, .chp])] →
      allWritten s (readSet i) → (.q ∈ readSet i → inDomain qMin (s.reg .q) qMax) →
      ∀ r ∈ mix, F32.isFinite (s.reg r) = false →
        (∀ r' ∈ mix, (regNum r').val < (regNum r).val → F32.isFinite (s.reg r') = true) →
        exec i s
          = .next (faultEntry ⟨.paramDomain, BitVec.ofNat 32 (regNum r).val, 0⟩ (encode i) s)

/-- R148: after the direct checks, a shelf's effective cutoff outside the cutoff range faults with
`0x101`, and the `Q` derived from a bandwidth outside the `Q` range with `0x102`. -/
def Obligations.DerivedDomainFaults : Prop :=
  ∀ (pf db : Bool) (g : Word) (s : State), frequenciesOk pf s → linearGain s db g →
    (∀ (i : Instr) (fe : Word),
      (i, fe) ∈ [
        (if db then Instr.ls1Db pf else .ls1 pf, s.num.div (s.reg .fc) (s.num.sqrtF g)),
        (if db then .hs1Db pf else .hs1 pf, s.num.mul (s.reg .fc) (s.num.sqrtF g)),
        (if db then .ls2Db pf else .ls2 pf,
          s.num.div (s.reg .fc) (s.num.sqrtF (s.num.sqrtF g))),
        (if db then .hs2Db pf else .hs2 pf,
          s.num.mul (s.reg .fc) (s.num.sqrtF (s.num.sqrtF g)))] →
      allWritten s (readSet i) → (.q ∈ readSet i → inDomain qMin (s.reg .q) qMax) →
      ¬inDomain 0x358637BD fe 0x5368D4A5 →
      exec i s = .next (faultEntry ⟨.paramDomain, 0x101, 0⟩ (encode i) s)) ∧
    (∀ i : Instr, i = (if db then .peak2BwDb pf else .peak2Bw pf) → allWritten s (readSet i) →
      F32.isFinite (s.reg .bw) = true → F32.lt 0 (s.reg .bw) = true →
      F32.le (s.reg .bw) bwMax = true →
      ¬inDomain 0x358637BD (bwToQ s.num (s.reg .bw) g) 0x49742400 →
      exec i s = .next (faultEntry ⟨.paramDomain, 0x102, 0⟩ (encode i) s))

/-! ### Designers: results -/

/-- R149, R151, R152, R154, R155, R234, R271: the warp ratio, the two bilinear helpers, the bandwidth
conversion and the stability predicates are the spec's procedures, operation by operation, and a
coefficient set is valid, for a designer's result and for an engine command, exactly where every
coefficient of its order is finite and the order's stability predicate holds. -/
def Obligations.SharedDesignFormulas : Prop :=
  (∀ (N : Sys2Proof.Machine.Num) (fs fc fe fp : Word) (pf : Bool),
    warpRatio N fs fc fe pf fp =
      (let fw := if pf then fp else fc
       let lim := N.mul 0x3EFF7CEE fs
       let fwc := if F32.le fw lim then fw else lim
       N.mul (N.tanF (N.div (N.mul 0x40490FDB fwc) fs)) (N.div fe fwc))) ∧
  (∀ (N : Sys2Proof.Machine.Num) (k beta1 beta0 : Word),
    bl1 N.toArith k beta1 beta0 =
      (let d := N.rcp (N.add N.one k)
       ⟨N.mul (N.add beta1 (N.mul beta0 k)) d, N.mul (N.sub (N.mul beta0 k) beta1) d,
        N.mul (N.sub k N.one) d⟩)) ∧
  (∀ (N : Sys2Proof.Machine.Num) (k q alpha2 mu alpha0 : Word),
    bl2 N.toArith k q alpha2 mu alpha0 =
      (let kq := N.div k q
       let k2 := N.mul k k
       let d := N.rcp (N.add (N.add N.one kq) k2)
       ⟨N.mul (N.add (N.add alpha2 (N.mul mu kq)) (N.mul alpha0 k2)) d,
        N.mul (N.mul N.two (N.sub (N.mul alpha0 k2) alpha2)) d,
        N.mul (N.add (N.sub alpha2 (N.mul mu kq)) (N.mul alpha0 k2)) d,
        N.mul (N.mul N.two (N.sub k2 N.one)) d,
        N.mul (N.add (N.sub N.one kq) k2) d⟩)) ∧
  (∀ (N : Sys2Proof.Machine.Num) (b g : Word),
    bwToQ N b g =
      (let r := N.pow2F b
       N.div (N.sqrtF (N.mul r g)) (N.sub r N.one))) ∧
  (∀ a1 : Word, stable1 a1 =
    (F32.isFinite a1 && F32.le 0xBF800000 a1 && F32.le a1 0x3F800000)) ∧
  (∀ (N : Sys2Proof.Machine.Num) (a1 a2 : Word), stable2 N a1 a2 =
    (F32.isFinite a1 && F32.isFinite a2 && F32.le (F32.abs a1) 0x40000000
      && F32.le (N.sub (F32.abs a1) N.one) a2 && F32.le a2 0x3F800000)) ∧
  (∀ (N : Sys2Proof.Machine.Num) (c : Coef1 Word), coefsValid N (.first c) =
    (F32.isFinite c.b0 && F32.isFinite c.b1 && F32.isFinite c.a1 && stable1 c.a1)) ∧
  (∀ (N : Sys2Proof.Machine.Num) (c : Coef2 Word), coefsValid N (.second c) =
    (F32.isFinite c.b0 && F32.isFinite c.b1 && F32.isFinite c.b2 && F32.isFinite c.a1
      && F32.isFinite c.a2 && stable2 N c.a1 c.a2)) ∧
  ∀ p : Params, (numOf p).one = 0x3F800000 ∧ (numOf p).two = 0x40000000 ∧ (numOf p).zero = 0

/-- R180, R181, R182, R155, R156: `LP1`, `HP1` and `AP1` write the set of the first-order helper with
their prototype's coefficients, or fault with `DESIGN_RESULT` where it is not finite or not
stable. -/
def Obligations.Lp1Hp1Ap1Result : Prop :=
  ∀ (pf : Bool) (s : State) (i : Instr) (beta1 beta0 : Word),
    (i, beta1, beta0) ∈ [(Instr.lp1 pf, 0x00000000#32, 0x3F800000#32),
      (.hp1 pf, 0x3F800000, 0x00000000), (.ap1 pf, 0xBF800000, 0x3F800000)] →
    allWritten s (readSet i) → frequenciesOk pf s →
    ∀ c, c = bl1 s.num.toArith
        (warpRatio s.num (s.reg .fs) (s.reg .fc) (s.reg .fc) pf (s.reg .fp)) beta1 beta0 →
    (coefsValid s.num (.first c) = true →
      exec i s = .next (((s.setReg .b0 c.b0).setReg .b1 c.b1).setReg .a1 c.a1)) ∧
    (coefsValid s.num (.first c) = false →
      exec i s = .next (faultEntry ⟨.designResult, 0, 0⟩ (encode i) s))

/-- R183, R184: `LS1` and `LS1.DB` design the low shelf at the effective cutoff `fc/√G`. -/
def Obligations.Ls1Result : Prop :=
  ∀ (pf db : Bool) (s : State) (i : Instr) (g fe : Word),
    i = (if db then .ls1Db pf else .ls1 pf) → allWritten s (readSet i) → frequenciesOk pf s →
    linearGain s db g → fe = s.num.div (s.reg .fc) (s.num.sqrtF g) →
    inDomain 0x358637BD fe 0x5368D4A5 →
    ∀ c, c = bl1 s.num.toArith
        (warpRatio s.num (s.reg .fs) (s.reg .fc) fe pf (s.reg .fp)) 0x3F800000 g →
    (coefsValid s.num (.first c) = true →
      exec i s = .next (((s.setReg .b0 c.b0).setReg .b1 c.b1).setReg .a1 c.a1)) ∧
    (coefsValid s.num (.first c) = false →
      exec i s = .next (faultEntry ⟨.designResult, 0, 0⟩ (encode i) s))

/-- R185, R186: `HS1` and `HS1.DB` design the high shelf at the effective cutoff `fc·√G`. -/
def Obligations.Hs1Result : Prop :=
  ∀ (pf db : Bool) (s : State) (i : Instr) (g fe : Word),
    i = (if db then .hs1Db pf else .hs1 pf) → allWritten s (readSet i) → frequenciesOk pf s →
    linearGain s db g → fe = s.num.mul (s.reg .fc) (s.num.sqrtF g) →
    inDomain 0x358637BD fe 0x5368D4A5 →
    ∀ c, c = bl1 s.num.toArith
        (warpRatio s.num (s.reg .fs) (s.reg .fc) fe pf (s.reg .fp)) g 0x3F800000 →
    (coefsValid s.num (.first c) = true →
      exec i s = .next (((s.setReg .b0 c.b0).setReg .b1 c.b1).setReg .a1 c.a1)) ∧
    (coefsValid s.num (.first c) = false →
      exec i s = .next (faultEntry ⟨.designResult, 0, 0⟩ (encode i) s))

/-- R187: `MM1` designs `(cx·p + (cx + clp))/(p + 1)` from finite mixing coefficients. -/
def Obligations.Mm1Result : Prop :=
  ∀ (pf : Bool) (s : State), allWritten s (readSet (.mm1 pf)) → frequenciesOk pf s →
    F32.isFinite (s.reg .cx) = true → F32.isFinite (s.reg .clp) = true →
    ∀ c, c = bl1 s.num.toArith
        (warpRatio s.num (s.reg .fs) (s.reg .fc) (s.reg .fc) pf (s.reg .fp))
        (s.reg .cx) (s.num.add (s.reg .cx) (s.reg .clp)) →
    (coefsValid s.num (.first c) = true →
      exec (.mm1 pf) s = .next (((s.setReg .b0 c.b0).setReg .b1 c.b1).setReg .a1 c.a1)) ∧
    (coefsValid s.num (.first c) = false →
      exec (.mm1 pf) s = .next (faultEntry ⟨.designResult, 0, 0⟩ (encode (.mm1 pf)) s))

/-- R220, R221, R222, R228, R229: `LP2`, `HP2`, `AP2`, `NOTCH2` and `BP2` write the set of the
second-order helper with their prototype's coefficients. -/
def Obligations.Lp2Hp2Ap2Notch2Bp2Result : Prop :=
  ∀ (pf : Bool) (s : State) (i : Instr) (alpha2 mu alpha0 : Word),
    (i, alpha2, mu, alpha0) ∈ [
      (Instr.lp2 pf, 0x00000000#32, 0x00000000#32, 0x3F800000#32),
      (.hp2 pf, 0x3F800000, 0x00000000, 0x00000000), (.ap2 pf, 0x3F800000, 0xBF800000, 0x3F800000),
      (.notch2 pf, 0x3F800000, 0x00000000, 0x3F800000),
      (.bp2 pf, 0x00000000, s.reg .q, 0x00000000)] →
    allWritten s (readSet i) → frequenciesOk pf s → inDomain 0x358637BD (s.reg .q) 0x49742400 →
    ∀ c, c = bl2 s.num.toArith
        (warpRatio s.num (s.reg .fs) (s.reg .fc) (s.reg .fc) pf (s.reg .fp)) (s.reg .q)
        alpha2 mu alpha0 →
    (coefsValid s.num (.second c) = true →
      exec i s = .next (((((s.setReg .b0 c.b0).setReg .b1 c.b1).setReg .b2 c.b2).setReg
        .a1 c.a1).setReg .a2 c.a2)) ∧
    (coefsValid s.num (.second c) = false →
      exec i s = .next (faultEntry ⟨.designResult, 0, 0⟩ (encode i) s))

/-- R223, R224: `LS2` and `LS2.DB` design the low shelf at the effective cutoff `fc/√√G`. -/
def Obligations.Ls2Result : Prop :=
  ∀ (pf db : Bool) (s : State) (i : Instr) (g r fe : Word),
    i = (if db then .ls2Db pf else .ls2 pf) → allWritten s (readSet i) → frequenciesOk pf s →
    inDomain 0x358637BD (s.reg .q) 0x49742400 → linearGain s db g → r = s.num.sqrtF g →
    fe = s.num.div (s.reg .fc) (s.num.sqrtF r) → inDomain 0x358637BD fe 0x5368D4A5 →
    ∀ c, c = bl2 s.num.toArith
        (warpRatio s.num (s.reg .fs) (s.reg .fc) fe pf (s.reg .fp)) (s.reg .q) 0x3F800000 r g →
    (coefsValid s.num (.second c) = true →
      exec i s = .next (((((s.setReg .b0 c.b0).setReg .b1 c.b1).setReg .b2 c.b2).setReg
        .a1 c.a1).setReg .a2 c.a2)) ∧
    (coefsValid s.num (.second c) = false →
      exec i s = .next (faultEntry ⟨.designResult, 0, 0⟩ (encode i) s))

/-- R225, R226: `HS2` and `HS2.DB` design the high shelf at the effective cutoff `fc·√√G`. -/
def Obligations.Hs2Result : Prop :=
  ∀ (pf db : Bool) (s : State) (i : Instr) (g r fe : Word),
    i = (if db then .hs2Db pf else .hs2 pf) → allWritten s (readSet i) → frequenciesOk pf s →
    inDomain 0x358637BD (s.reg .q) 0x49742400 → linearGain s db g → r = s.num.sqrtF g →
    fe = s.num.mul (s.reg .fc) (s.num.sqrtF r) → inDomain 0x358637BD fe 0x5368D4A5 →
    ∀ c, c = bl2 s.num.toArith
        (warpRatio s.num (s.reg .fs) (s.reg .fc) fe pf (s.reg .fp)) (s.reg .q) g r 0x3F800000 →
    (coefsValid s.num (.second c) = true →
      exec i s = .next (((((s.setReg .b0 c.b0).setReg .b1 c.b1).setReg .b2 c.b2).setReg
        .a1 c.a1).setReg .a2 c.a2)) ∧
    (coefsValid s.num (.second c) = false →
      exec i s = .next (faultEntry ⟨.designResult, 0, 0⟩ (encode i) s))

/-- R227: `MM2` designs `cx + clp·LP + cbp·BP + chp·HP` from finite mixing coefficients. -/
def Obligations.Mm2Result : Prop :=
  ∀ (pf : Bool) (s : State), allWritten s (readSet (.mm2 pf)) → frequenciesOk pf s →
    inDomain 0x358637BD (s.reg .q) 0x49742400 →
    F32.isFinite (s.reg .cx) = true → F32.isFinite (s.reg .clp) = true →
    F32.isFinite (s.reg .cbp) = true → F32.isFinite (s.reg .chp) = true →
    ∀ c, c = bl2 s.num.toArith
        (warpRatio s.num (s.reg .fs) (s.reg .fc) (s.reg .fc) pf (s.reg .fp)) (s.reg .q)
        (s.num.add (s.reg .cx) (s.reg .chp))
        (s.num.add (s.reg .cx) (s.num.mul (s.reg .cbp) (s.reg .q)))
        (s.num.add (s.reg .cx) (s.reg .clp)) →
    (coefsValid s.num (.second c) = true →
      exec (.mm2 pf) s = .next (((((s.setReg .b0 c.b0).setReg .b1 c.b1).setReg .b2 c.b2).setReg
        .a1 c.a1).setReg .a2 c.a2)) ∧
    (coefsValid s.num (.second c) = false →
      exec (.mm2 pf) s = .next (faultEntry ⟨.designResult, 0, 0⟩ (encode (.mm2 pf)) s))

/-- R230, R231: `PEAK2` and `PEAK2.DB` design the peak by `Q`. -/
def Obligations.Peak2Result : Prop :=
  ∀ (pf db : Bool) (s : State) (i : Instr) (g : Word),
    i = (if db then .peak2Db pf else .peak2 pf) → allWritten s (readSet i) → frequenciesOk pf s →
    inDomain 0x358637BD (s.reg .q) 0x49742400 → linearGain s db g →
    ∀ c, c = bl2 s.num.toArith
        (warpRatio s.num (s.reg .fs) (s.reg .fc) (s.reg .fc) pf (s.reg .fp)) (s.reg .q)
        0x3F800000 g 0x3F800000 →
    (coefsValid s.num (.second c) = true →
      exec i s = .next (((((s.setReg .b0 c.b0).setReg .b1 c.b1).setReg .b2 c.b2).setReg
        .a1 c.a1).setReg .a2 c.a2)) ∧
    (coefsValid s.num (.second c) = false →
      exec i s = .next (faultEntry ⟨.designResult, 0, 0⟩ (encode i) s))

/-- R232, R233, R234: `PEAK2.BW` and `PEAK2.BW.DB` design the peak with the `Q` derived from the
bandwidth and the linear gain. -/
def Obligations.Peak2BwResult : Prop :=
  ∀ (pf db : Bool) (s : State) (i : Instr) (g r q : Word),
    i = (if db then .peak2BwDb pf else .peak2Bw pf) → allWritten s (readSet i) →
    frequenciesOk pf s → F32.isFinite (s.reg .bw) = true → F32.lt 0 (s.reg .bw) = true →
    F32.le (s.reg .bw) 0x42B40000 = true → linearGain s db g → r = s.num.pow2F (s.reg .bw) →
    q = s.num.div (s.num.sqrtF (s.num.mul r g)) (s.num.sub r s.num.one) →
    inDomain 0x358637BD q 0x49742400 →
    ∀ c, c = bl2 s.num.toArith
        (warpRatio s.num (s.reg .fs) (s.reg .fc) (s.reg .fc) pf (s.reg .fp)) q
        0x3F800000 g 0x3F800000 →
    (coefsValid s.num (.second c) = true →
      exec i s = .next (((((s.setReg .b0 c.b0).setReg .b1 c.b1).setReg .b2 c.b2).setReg
        .a1 c.a1).setReg .a2 c.a2)) ∧
    (coefsValid s.num (.second c) = false →
      exec i s = .next (faultEntry ⟨.designResult, 0, 0⟩ (encode i) s))

/-- R155, R156: a designer that raises nothing leaves all coefficient registers of its order written
with a set that the engine's own check accepts, so the block never emits a set it would reject. -/
def Obligations.DesignedCoefficientsAreValid : Prop :=
  ∀ (i : Instr) (pf : Bool) (s t : State), designerPf i = some pf → exec i s = .next t →
    t.halted = false →
    (writeSet i = coefRegs1 ∧ allWritten t coefRegs1 ∧
      coefsValid s.num (.first ⟨t.reg .b0, t.reg .b1, t.reg .a1⟩) = true) ∨
    (writeSet i = coefRegs2 ∧ allWritten t coefRegs2 ∧
      coefsValid s.num
        (.second ⟨t.reg .b0, t.reg .b1, t.reg .b2, t.reg .a1, t.reg .a2⟩) = true)

/-- R157: the `.DB` command with `GAIN = g` in the decibel range writes the same coefficient words as
the linear command with `GAIN = dB2linF(g)`, and faults as it does, but for `FINFO = 0x103` in
place of 5. `FCMD` holds each command's own word. -/
def Obligations.DecibelCommandsAreWrappers : Prop :=
  ∀ (pf : Bool) (dbi lini : Instr) (s : State),
    (dbi, lini) ∈ [(Instr.ls1Db pf, Instr.ls1 pf), (.hs1Db pf, .hs1 pf), (.ls2Db pf, .ls2 pf),
      (.hs2Db pf, .hs2 pf), (.peak2Db pf, .peak2 pf), (.peak2BwDb pf, .peak2Bw pf)] →
    s.halted = false → s.written .gain = true → inDomain 0xC4160000 (s.reg .gain) 0x44160000 →
    ∃ t u, exec dbi s = .next t ∧
      exec lini (s.setReg .gain (s.num.dB2linF (s.reg .gain))) = .next u ∧
      (∀ r, r ≠ .gain → t.reg r = u.reg r ∧ t.written r = u.written r) ∧
      t.status = u.status ∧ t.fch = u.fch ∧ t.halted = u.halted ∧
      (u.halted = true → u.status = 0x103 → u.finfo = 5 → t.finfo = 0x103) ∧
      (¬(u.halted = true ∧ u.status = 0x103 ∧ u.finfo = 5) → t.finfo = u.finfo)

/-- R187, R227: the multi-mode commands with the mixes of the plain responses write the same words as
those commands and fault as they do: `MM1` with those of `LP1`, `HP1` and `AP1`; `MM2` with the
constant mixes of `LP2`, `HP2` and `BP2`, and, where `CBP·Q` in `NUM` is −1 or −2, with the mixes
`−1/q` and `−2/q` of `NOTCH2`, `AP2` and the second one of `HP2`. At the example `q` of R227 the
rounded product is one unit off and the words agree by the later roundings (a test, no clause). -/
def Obligations.MultiModeSpecialCases : Prop :=
  (∀ (pf : Bool) (s : State) (i : Instr) (cx clp : Word),
    (i, cx, clp) ∈ [(Instr.lp1 pf, 0x00000000#32, 0x3F800000#32),
      (.hp1 pf, 0x3F800000, 0xBF800000), (.ap1 pf, 0xBF800000, 0x40000000)] →
    allWritten s (readSet (.mm1 pf)) → s.reg .cx = cx → s.reg .clp = clp →
    ∃ t u, exec (.mm1 pf) s = .next t ∧ exec i s = .next u ∧ t = { u with fcmd := t.fcmd } ∧
      (s.halted = false → u.halted = false → t = u)) ∧
  (∀ (pf : Bool) (s : State) (i : Instr) (cx clp cbp chp : Word),
    (i, cx, clp, cbp, chp) ∈ [
      (Instr.lp2 pf, 0x00000000#32, 0x3F800000#32, 0x00000000#32, 0x00000000#32),
      (.hp2 pf, 0x00000000, 0x00000000, 0x00000000, 0x3F800000),
      (.bp2 pf, 0x00000000, 0x00000000, 0x3F800000, 0x00000000)] →
    allWritten s (readSet (.mm2 pf)) → s.reg .cx = cx → s.reg .clp = clp → s.reg .cbp = cbp →
    s.reg .chp = chp →
    ∃ t u, exec (.mm2 pf) s = .next t ∧ exec i s = .next u ∧ t = { u with fcmd := t.fcmd } ∧
      (s.halted = false → u.halted = false → t = u)) ∧
  (∀ (pf : Bool) (s : State) (i : Instr) (clp product : Word),
    (i, clp, product) ∈ [(Instr.notch2 pf, 0x00000000#32, 0xBF800000#32),
      (.ap2 pf, 0x00000000, 0xC0000000), (.hp2 pf, 0xBF800000, 0xBF800000)] →
    allWritten s (readSet (.mm2 pf)) → s.reg .cx = 0x3F800000 → s.reg .clp = clp →
    F32.isFinite (s.reg .cbp) = true → s.num.mul (s.reg .cbp) (s.reg .q) = product →
    s.reg .chp = 0x00000000 →
    ∃ t u, exec (.mm2 pf) s = .next t ∧ exec i s = .next u ∧ t = { u with fcmd := t.fcmd } ∧
      (s.halted = false → u.halted = false → t = u))

/-- R151, R152: in the ideal meaning over the rationals, the helpers' DC gain is `β0` (`α0`) and their
Nyquist gain `β1` (`α2`), and the set is strictly inside the stability region for `k > 0` and
`q > 0`. The denominators are those of the rules and not 0 (log 18). -/
def Obligations.IdealDesignGainsAndStability : Prop :=
  (∀ k beta1 beta0 : Rat, 0 < k →
    let c := bl1 idealArith k beta1 beta0
    c.b0 + c.b1 = beta0 * (1 + c.a1) ∧ c.b0 - c.b1 = beta1 * (1 - c.a1) ∧
    -1 < c.a1 ∧ c.a1 < 1) ∧
  ∀ k q alpha2 mu alpha0 : Rat, 0 < k → 0 < q →
    let c := bl2 idealArith k q alpha2 mu alpha0
    c.b0 + c.b1 + c.b2 = alpha0 * (1 + c.a1 + c.a2) ∧
    c.b0 - c.b1 + c.b2 = alpha2 * (1 - c.a1 + c.a2) ∧
    c.a2 < 1 ∧ 0 < 1 + c.a1 + c.a2 ∧ 0 < 1 - c.a1 + c.a2

/-! ### Engine: checks and single-channel commands -/

/-- R271: every engine command, the empty batches included, faults with `COEFF_INVALID` where a
coefficient is not finite or the set is not stable, before anything else. -/
def Obligations.InvalidCoefficientsFault : Prop :=
  ∀ (i : Instr) (o : Order) (s : State), engineOrder i = some o → allWritten s (readSet i) →
    coefsValid s.num (match o with
      | .first => .first ⟨s.reg .b0, s.reg .b1, s.reg .a1⟩
      | .second => .second ⟨s.reg .b0, s.reg .b1, s.reg .b2, s.reg .a1, s.reg .a2⟩) = false →
    exec i s = .next (faultEntry ⟨.coeffInvalid, 0, 0⟩ (encode i) s)

/-- R275, R272: `RST1` writes the first-order fixed point to `Y` and `S1`, zero at `a1 = −1`; an
input or a result that is not finite faults. -/
def Obligations.Rst1Result : Prop :=
  ∀ (s : State) (b0 b1 a1 x d kx y0 s0 : Word), allWritten s [.b0, .b1, .a1, .x] →
    b0 = s.reg .b0 → b1 = s.reg .b1 → a1 = s.reg .a1 → x = s.reg .x →
    coefsValid s.num (.first ⟨b0, b1, a1⟩) = true →
    d = s.num.rcp (s.num.add 0x3F800000 a1) → kx = s.num.mul d x →
    y0 = (if F32.eqv a1 0xBF800000 then 0 else s.num.mul kx (s.num.add b0 b1)) →
    s0 = (if F32.eqv a1 0xBF800000 then 0 else s.num.mul kx (s.num.sub b1 (s.num.mul a1 b0))) →
    (F32.isFinite x = true → F32.isFinite y0 = true → F32.isFinite s0 = true →
      exec .rst1 s = .next ((s.setReg .y y0).setReg .s1 s0)) ∧
    (F32.isFinite x = false →
      exec .rst1 s = .next (faultEntry ⟨.valueNonfinite, 0, 0⟩ 0x40 s)) ∧
    (F32.isFinite x = true → ¬(F32.isFinite y0 = true ∧ F32.isFinite s0 = true) →
      exec .rst1 s = .next (faultEntry ⟨.outputNonfinite, 0, 0⟩ 0x40 s))

/-- R276, R273: `RST2` writes the second-order fixed point to `Y`, `S1` and `S2`, zero where the
rounded `a1 + a2` is −1; an input or a result that is not finite faults. -/
def Obligations.Rst2Result : Prop :=
  ∀ (s : State) (b0 b1 b2 a1 a2 x sa d kx y0 s1 s2 : Word),
    allWritten s [.b0, .b1, .b2, .a1, .a2, .x] →
    b0 = s.reg .b0 → b1 = s.reg .b1 → b2 = s.reg .b2 → a1 = s.reg .a1 → a2 = s.reg .a2 →
    x = s.reg .x → coefsValid s.num (.second ⟨b0, b1, b2, a1, a2⟩) = true →
    sa = s.num.add a1 a2 → d = s.num.rcp (s.num.add 0x3F800000 sa) → kx = s.num.mul d x →
    y0 = (if F32.eqv sa 0xBF800000 then 0
      else s.num.mul kx (s.num.add (s.num.add b0 b1) b2)) →
    s1 = (if F32.eqv sa 0xBF800000 then 0
      else s.num.mul kx (s.num.sub (s.num.add b1 b2) (s.num.mul b0 sa))) →
    s2 = (if F32.eqv sa 0xBF800000 then 0
      else s.num.mul kx (s.num.sub (s.num.mul b2 (s.num.add 0x3F800000 a1))
        (s.num.mul a2 (s.num.add b0 b1)))) →
    (F32.isFinite x = true → F32.isFinite y0 = true → F32.isFinite s1 = true →
      F32.isFinite s2 = true →
      exec .rst2 s = .next (((s.setReg .y y0).setReg .s1 s1).setReg .s2 s2)) ∧
    (F32.isFinite x = false →
      exec .rst2 s = .next (faultEntry ⟨.valueNonfinite, 0, 0⟩ 0x50 s)) ∧
    (F32.isFinite x = true →
      ¬(F32.isFinite y0 = true ∧ F32.isFinite s1 = true ∧ F32.isFinite s2 = true) →
      exec .rst2 s = .next (faultEntry ⟨.outputNonfinite, 0, 0⟩ 0x50 s))

/-- R302, R300: `PROC1` computes `y = b0·x + s` from the old state and `s' = b1·x − a1·y` from the new
output and writes them to `Y` and `S1`; a value or a result that is not finite faults. -/
def Obligations.Proc1Result : Prop :=
  ∀ (s : State) (x st y st' : Word), allWritten s [.b0, .b1, .a1, .x, .s1] →
    coefsValid s.num (.first ⟨s.reg .b0, s.reg .b1, s.reg .a1⟩) = true →
    x = s.reg .x → st = s.reg .s1 → y = s.num.add (s.num.mul (s.reg .b0) x) st →
    st' = s.num.sub (s.num.mul (s.reg .b1) x) (s.num.mul (s.reg .a1) y) →
    (F32.isFinite x = true → F32.isFinite st = true → F32.isFinite y = true →
      F32.isFinite st' = true →
      exec .proc1 s = .next ((s.setReg .y y).setReg .s1 st')) ∧
    (¬(F32.isFinite x = true ∧ F32.isFinite st = true) →
      exec .proc1 s = .next (faultEntry ⟨.valueNonfinite, 0, 0⟩ 0x41 s)) ∧
    (F32.isFinite x = true → F32.isFinite st = true →
      ¬(F32.isFinite y = true ∧ F32.isFinite st' = true) →
      exec .proc1 s = .next (faultEntry ⟨.outputNonfinite, 0, 0⟩ 0x41 s))

/-- R303, R301: `PROC2` computes `y = b0·x + s1`, `s1' = (b1·x − a1·y) + s2` and `s2' = b2·x − a2·y`
and writes them to `Y`, `S1` and `S2`; a value or a result that is not finite faults. -/
def Obligations.Proc2Result : Prop :=
  ∀ (s : State) (x s1 s2 y s1' s2' : Word),
    allWritten s [.b0, .b1, .b2, .a1, .a2, .x, .s1, .s2] →
    coefsValid s.num
      (.second ⟨s.reg .b0, s.reg .b1, s.reg .b2, s.reg .a1, s.reg .a2⟩) = true →
    x = s.reg .x → s1 = s.reg .s1 → s2 = s.reg .s2 →
    y = s.num.add (s.num.mul (s.reg .b0) x) s1 →
    s1' = s.num.add (s.num.sub (s.num.mul (s.reg .b1) x) (s.num.mul (s.reg .a1) y)) s2 →
    s2' = s.num.sub (s.num.mul (s.reg .b2) x) (s.num.mul (s.reg .a2) y) →
    (F32.isFinite x = true → F32.isFinite s1 = true → F32.isFinite s2 = true →
      F32.isFinite y = true → F32.isFinite s1' = true → F32.isFinite s2' = true →
      exec .proc2 s = .next (((s.setReg .y y).setReg .s1 s1').setReg .s2 s2')) ∧
    (¬(F32.isFinite x = true ∧ F32.isFinite s1 = true ∧ F32.isFinite s2 = true) →
      exec .proc2 s = .next (faultEntry ⟨.valueNonfinite, 0, 0⟩ 0x51 s)) ∧
    (F32.isFinite x = true → F32.isFinite s1 = true → F32.isFinite s2 = true →
      ¬(F32.isFinite y = true ∧ F32.isFinite s1' = true ∧ F32.isFinite s2' = true) →
      exec .proc2 s = .next (faultEntry ⟨.outputNonfinite, 0, 0⟩ 0x51 s))

/-! ### Engine: single-channel batch -/

/-- R304, R305, R306: `PROCN` over `NS` samples, none included, completes where the coefficients are
valid, the runs lie in memory and are the same or apart, the inputs are written, and every value is
finite: the outputs stand at `YPTR`, the last state in `S1` (and `S2`), and every other byte of memory
and every other register is as before. -/
def Obligations.ProcnCompletes : Prop :=
  ∀ (o : Order) (s : State) (n xa ya : Nat) (xs ys : List Word) (st : Cell Word),
    allWritten s (readSet (procnCommand o)) → coefsValid s.num (loadCoef o s) = true →
    cellFinite o (regCell o s) = true →
    n = (s.reg .ns).toNat → xa = (s.reg .xptr).toNat → ya = (s.reg .yptr).toNat →
    (n ≠ 0 → runInMemory s xa n ∧ runInMemory s ya n ∧ sameOrApart xa ya n) →
    xs.length = n → runHolds s.params.byteOrder s.mem xa xs →
    channelRun s.num (loadCoef o s) (regCell o s) xs = some (ys, st) →
    ∃ m, exec (procnCommand o) s = .next { setRegCell o st s with mem := m } ∧
      ys.length = n ∧ runHolds s.params.byteOrder m ya ys ∧
      ∀ a, ¬inRun ya n a → readByte m a = readByte s.mem a

/-- R304, R74, R83: the checks of `PROCN` before its first access, in their order: the state registers,
the input run, the output run, a partial overlap. Each faults and changes nothing else. -/
def Obligations.ProcnChecks : Prop :=
  ∀ (o : Order) (s : State) (n xa ya : Nat),
    allWritten s (readSet (procnCommand o)) → coefsValid s.num (loadCoef o s) = true →
    n = (s.reg .ns).toNat → xa = (s.reg .xptr).toNat → ya = (s.reg .yptr).toNat →
    (cellFinite o (regCell o s) = false →
      exec (procnCommand o) s
        = .next (faultEntry ⟨.valueNonfinite, 0, 0⟩ (encode (procnCommand o)) s)) ∧
    (cellFinite o (regCell o s) = true → n ≠ 0 →
      (¬runInMemory s xa n →
        exec (procnCommand o) s
          = .next (faultEntry ⟨.accessFault, s.reg .xptr, 0⟩ (encode (procnCommand o)) s)) ∧
      (runInMemory s xa n → ¬runInMemory s ya n →
        exec (procnCommand o) s
          = .next (faultEntry ⟨.accessFault, s.reg .yptr, 0⟩ (encode (procnCommand o)) s)) ∧
      (runInMemory s xa n → runInMemory s ya n → ¬sameOrApart xa ya n →
        exec (procnCommand o) s
          = .next (faultEntry ⟨.aliasViolation, 0, 0⟩ (encode (procnCommand o)) s)))

/-- R304, R346: a `PROCN` that faults at sample `k` keeps the outputs of the samples before it and the
state after them; the faulting sample writes nothing. The sample faults where its input is unwritten,
where it is not finite, or where its output or next state is not finite. -/
def Obligations.ProcnFaultKeepsCompletedSamples : Prop :=
  ∀ (o : Order) (s : State) (n xa ya : Nat) (xs ys : List Word) (st : Cell Word) (f : Raise),
    allWritten s (readSet (procnCommand o)) → coefsValid s.num (loadCoef o s) = true →
    cellFinite o (regCell o s) = true →
    n = (s.reg .ns).toNat → xa = (s.reg .xptr).toNat → ya = (s.reg .yptr).toNat →
    runInMemory s xa n → runInMemory s ya n → sameOrApart xa ya n →
    xs.length < n → runHolds s.params.byteOrder s.mem xa xs →
    channelRun s.num (loadCoef o s) (regCell o s) xs = some (ys, st) →
    ((s.memRead (wordAddr xa xs.length) = none ∧
        f = ⟨.unwrittenMemory, BitVec.ofNat 32 (wordAddr xa xs.length), 0⟩) ∨
      (∃ x, s.memRead (wordAddr xa xs.length) = some x ∧ F32.isFinite x = false ∧
        f = ⟨.valueNonfinite, BitVec.ofNat 32 xs.length, 0⟩) ∨
      (∃ x, s.memRead (wordAddr xa xs.length) = some x ∧ F32.isFinite x = true ∧
        channelRun s.num (loadCoef o s) st [x] = none ∧
        f = ⟨.outputNonfinite, BitVec.ofNat 32 xs.length, 0⟩)) →
    ∃ m, exec (procnCommand o) s
        = .next (faultEntry f (encode (procnCommand o)) { setRegCell o st s with mem := m }) ∧
      runHolds s.params.byteOrder m ya ys ∧
      ∀ a, ¬inRun ya xs.length a → readByte m a = readByte s.mem a

/-- R310: a `PROCN` over a run of inputs and the host loop of single-sample commands over the same
inputs end with the same outputs and the same state, and where one faults the other faults at the same
sample with the same cause; `FINFO` of `PROCN` is the sample's index, that of the loop 0. -/
def Obligations.BatchEqualsScalarLoop : Prop :=
  ∀ (o : Order) (s t u : State) (n xa ya : Nat) (xs ys : List Word),
    allWritten s (readSet (procnCommand o)) → s.halted = false →
    n = (s.reg .ns).toNat → n ≠ 0 → xa = (s.reg .xptr).toNat → ya = (s.reg .yptr).toNat →
    runInMemory s xa n → runInMemory s ya n → sameOrApart xa ya n →
    xs.length = n → runHolds s.params.byteOrder s.mem xa xs →
    scalarLoop (procCommand o) xs s = (ys, u) → exec (procnCommand o) s = .next t →
    t.halted = u.halted ∧ t.status = u.status ∧ regCell o t = regCell o u ∧
    runHolds s.params.byteOrder t.mem ya ys ∧
    (u.halted = true →
      ys.length < n ∧ t.finfo = BitVec.ofNat 32 ys.length ∧ u.finfo = 0) ∧
    (u.halted = false → ys.length = n)

/-! ### Engine: batched reset -/

/-- R277 to R283: a batched reset of `NCH` channels, none included, completes where the coefficients
are valid, the wanted arrays lie in memory apart as R85 asks, the inputs are written and finite and
the wanted results are finite: each channel's wanted output and state stand in their arrays, and
every other byte of memory and every register is as before. -/
def Obligations.RstmCompletes : Prop :=
  ∀ (i : Instr) (o : Order) (wy ws : Bool), (i, o, wy, ws) ∈ rstmCommands →
  ∀ (s : State) (n xa ya sp : Nat) (xs : List Word),
    allWritten s (readSet i) → coefsValid s.num (loadCoef o s) = true →
    n = (s.reg .nch).toNat → xa = (s.reg .xptr).toNat → ya = (s.reg .yptr).toNat →
    sp = (s.reg .sptr).toNat →
    (n ≠ 0 → runInMemory s xa n ∧
      (wy = true → runInMemory s ya n ∧ sameOrApart xa ya n) ∧
      (ws = true → runInMemory s sp (orderWords o * n) ∧ apart sp (orderWords o * n) xa n) ∧
      (wy = true → ws = true → apart sp (orderWords o * n) ya n)) →
    xs.length = n → runHolds s.params.byteOrder s.mem xa xs →
    (∀ x ∈ xs, F32.isFinite x = true ∧
      (wy = true → F32.isFinite (resetValues s.num (loadCoef o s) x).1 = true) ∧
      (ws = true → cellFinite o (resetValues s.num (loadCoef o s) x).2 = true)) →
    ∃ m, exec i s = .next { s with mem := m } ∧
      (wy = true → runHolds s.params.byteOrder m ya
        (xs.map fun x => (resetValues s.num (loadCoef o s) x).1)) ∧
      (ws = true → ∀ (c : Nat) (h : c < xs.length),
        cellHolds s.params.byteOrder o m (cellAddr (orderWords o) sp c)
          (resetValues s.num (loadCoef o s) xs[c]).2) ∧
      ∀ a, (wy = true → ¬inRun ya n a) → (ws = true → ¬inRun sp (orderWords o * n) a) →
        readByte m a = readByte s.mem a

/-- R277, R85, R346: the checks of a batched reset in their order (input, output, state, overlap), each
of which changes nothing else, and a fault at channel `k`, which keeps the writes of the channels
before it: its input is unwritten, not finite, or a wanted result is not finite. -/
def Obligations.RstmFaults : Prop :=
  ∀ (i : Instr) (o : Order) (wy ws : Bool), (i, o, wy, ws) ∈ rstmCommands →
  ∀ (s : State) (n xa ya sp : Nat),
    allWritten s (readSet i) → coefsValid s.num (loadCoef o s) = true →
    n = (s.reg .nch).toNat → n ≠ 0 → xa = (s.reg .xptr).toNat → ya = (s.reg .yptr).toNat →
    sp = (s.reg .sptr).toNat →
    (¬runInMemory s xa n →
      exec i s = .next (faultEntry ⟨.accessFault, s.reg .xptr, 0⟩ (encode i) s)) ∧
    (runInMemory s xa n →
      (wy = true → ¬runInMemory s ya n →
        exec i s = .next (faultEntry ⟨.accessFault, s.reg .yptr, 0⟩ (encode i) s)) ∧
      ((wy = true → runInMemory s ya n) →
        (ws = true → ¬runInMemory s sp (orderWords o * n) →
          exec i s = .next (faultEntry ⟨.accessFault, s.reg .sptr, 0⟩ (encode i) s)) ∧
        ((ws = true → runInMemory s sp (orderWords o * n)) →
          (¬((wy = true → sameOrApart xa ya n) ∧
              (ws = true → apart sp (orderWords o * n) xa n) ∧
              (wy = true → ws = true → apart sp (orderWords o * n) ya n)) →
            exec i s = .next (faultEntry ⟨.aliasViolation, 0, 0⟩ (encode i) s)) ∧
          ((wy = true → sameOrApart xa ya n) → (ws = true → apart sp (orderWords o * n) xa n) →
            (wy = true → ws = true → apart sp (orderWords o * n) ya n) →
            ∀ (xs : List Word) (f : Raise), xs.length < n →
              runHolds s.params.byteOrder s.mem xa xs →
              (∀ x ∈ xs, F32.isFinite x = true ∧
                (wy = true → F32.isFinite (resetValues s.num (loadCoef o s) x).1 = true) ∧
                (ws = true → cellFinite o (resetValues s.num (loadCoef o s) x).2 = true)) →
              ((s.memRead (wordAddr xa xs.length) = none ∧
                  f = ⟨.unwrittenMemory, BitVec.ofNat 32 (wordAddr xa xs.length),
                    BitVec.ofNat 32 xs.length⟩) ∨
                (∃ x, s.memRead (wordAddr xa xs.length) = some x ∧ F32.isFinite x = false ∧
                  f = ⟨.valueNonfinite, 0, BitVec.ofNat 32 xs.length⟩) ∨
                (∃ x, s.memRead (wordAddr xa xs.length) = some x ∧ F32.isFinite x = true ∧
                  ¬((wy = true → F32.isFinite (resetValues s.num (loadCoef o s) x).1 = true) ∧
                    (ws = true → cellFinite o (resetValues s.num (loadCoef o s) x).2 = true)) ∧
                  f = ⟨.outputNonfinite, 0, BitVec.ofNat 32 xs.length⟩)) →
              ∃ m, exec i s = .next (faultEntry f (encode i) { s with mem := m }) ∧
                (wy = true → runHolds s.params.byteOrder m ya
                  (xs.map fun x => (resetValues s.num (loadCoef o s) x).1)) ∧
                (ws = true → ∀ (c : Nat) (h : c < xs.length),
                  cellHolds s.params.byteOrder o m (cellAddr (orderWords o) sp c)
                    (resetValues s.num (loadCoef o s) xs[c]).2) ∧
                ∀ a, (wy = true → ¬inRun ya xs.length a) →
                  (ws = true → ¬inRun sp (orderWords o * xs.length) a) →
                  readByte m a = readByte s.mem a))))

/-! ### Engine: multi-channel batch -/

/-- R307, R308, R309: `PROCM` over `NCH` channels of `NS` samples completes where the coefficients are
valid, the arrays and the channels' runs lie in memory, the conditions of R84 hold, every word read
is written and every value is finite: each channel's outputs stand in its run, its last state in its
cell, and every other byte of memory and every register is as before. With no channel or no sample
it does nothing. -/
def Obligations.ProcmCompletes : Prop :=
  ∀ (o : Order) (s : State) (m n px py sp : Nat),
    allWritten s (readSet (procmCommand o)) → coefsValid s.num (loadCoef o s) = true →
    m = (s.reg .ns).toNat → n = (s.reg .nch).toNat → px = (s.reg .xptr).toNat →
    py = (s.reg .yptr).toNat → sp = (s.reg .sptr).toNat →
    ((n = 0 ∨ m = 0) → exec (procmCommand o) s = .next s) ∧
    ∀ (xb yb : Nat → Word) (xs ys : Nat → List Word) (st st' : Nat → Cell Word),
      n ≠ 0 → m ≠ 0 →
      runInMemory s px n → runInMemory s py n → runInMemory s sp (orderWords o * n) →
      (∀ c < n, s.memRead (wordAddr px c) = some (xb c) ∧
        s.memRead (wordAddr py c) = some (yb c) ∧
        runInMemory s (xb c).toNat m ∧ runInMemory s (yb c).toNat m) →
      (∀ c < n, ∀ c' < n, c ≠ c' →
        apart (yb c).toNat m (yb c').toNat m ∧ apart (yb c).toNat m (xb c').toNat m) →
      (∀ c < n, sameOrApart (yb c).toNat (xb c).toNat m ∧
        apart sp (orderWords o * n) (xb c).toNat m ∧
        apart sp (orderWords o * n) (yb c).toNat m ∧
        apart px n (yb c).toNat m ∧ apart py n (yb c).toNat m) →
      apart px n sp (orderWords o * n) → apart py n sp (orderWords o * n) →
      (∀ c < n, (xs c).length = m ∧ runHolds s.params.byteOrder s.mem (xb c).toNat (xs c) ∧
        cellHolds s.params.byteOrder o s.mem (cellAddr (orderWords o) sp c) (st c) ∧
        channelRun s.num (loadCoef o s) (st c) (xs c) = some (ys c, st' c)) →
      ∃ mem', exec (procmCommand o) s = .next { s with mem := mem' } ∧
        (∀ c < n, runHolds s.params.byteOrder mem' (yb c).toNat (ys c) ∧
          cellHolds s.params.byteOrder o mem' (cellAddr (orderWords o) sp c) (st' c)) ∧
        ∀ a, (∀ c < n, ¬inRun (yb c).toNat m a) → ¬inRun sp (orderWords o * n) a →
          readByte mem' a = readByte s.mem a

/-- R307, R74, R84: the checks of `PROCM` before its first sample, in their order: the runs of the three
registers, an unwritten pointer (its array index in `FCH`), a channel's run (its channel in `FCH`),
then the aliasing contract. Each faults and changes nothing else. -/
def Obligations.ProcmChecks : Prop :=
  ∀ (o : Order) (s : State) (m n px py sp : Nat),
    allWritten s (readSet (procmCommand o)) → coefsValid s.num (loadCoef o s) = true →
    m = (s.reg .ns).toNat → n = (s.reg .nch).toNat → m ≠ 0 → n ≠ 0 →
    px = (s.reg .xptr).toNat → py = (s.reg .yptr).toNat → sp = (s.reg .sptr).toNat →
    (¬runInMemory s px n →
      exec (procmCommand o) s
        = .next (faultEntry ⟨.accessFault, s.reg .xptr, 0⟩ (encode (procmCommand o)) s)) ∧
    (runInMemory s px n → ¬runInMemory s py n →
      exec (procmCommand o) s
        = .next (faultEntry ⟨.accessFault, s.reg .yptr, 0⟩ (encode (procmCommand o)) s)) ∧
    (runInMemory s px n → runInMemory s py n → ¬runInMemory s sp (orderWords o * n) →
      exec (procmCommand o) s
        = .next (faultEntry ⟨.accessFault, s.reg .sptr, 0⟩ (encode (procmCommand o)) s)) ∧
    (runInMemory s px n → runInMemory s py n → runInMemory s sp (orderWords o * n) →
      (∀ c < n, s.memRead (wordAddr px c) = none →
        (∀ c' < c, s.memRead (wordAddr px c') ≠ none) →
        exec (procmCommand o) s = .next (faultEntry
          ⟨.unwrittenMemory, BitVec.ofNat 32 (wordAddr px c), BitVec.ofNat 32 c⟩
          (encode (procmCommand o)) s)) ∧
      ∀ xb : Nat → Word, (∀ c < n, s.memRead (wordAddr px c) = some (xb c)) →
        (∀ c < n, s.memRead (wordAddr py c) = none →
          (∀ c' < c, s.memRead (wordAddr py c') ≠ none) →
          exec (procmCommand o) s = .next (faultEntry
            ⟨.unwrittenMemory, BitVec.ofNat 32 (wordAddr py c), BitVec.ofNat 32 c⟩
            (encode (procmCommand o)) s)) ∧
        ∀ yb : Nat → Word, (∀ c < n, s.memRead (wordAddr py c) = some (yb c)) →
          (∀ c < n, (∀ c' < c, runInMemory s (xb c').toNat m ∧ runInMemory s (yb c').toNat m) →
            (¬runInMemory s (xb c).toNat m →
              exec (procmCommand o) s = .next (faultEntry
                ⟨.accessFault, xb c, BitVec.ofNat 32 c⟩ (encode (procmCommand o)) s)) ∧
            (runInMemory s (xb c).toNat m → ¬runInMemory s (yb c).toNat m →
              exec (procmCommand o) s = .next (faultEntry
                ⟨.accessFault, yb c, BitVec.ofNat 32 c⟩ (encode (procmCommand o)) s))) ∧
          ((∀ c < n, runInMemory s (xb c).toNat m ∧ runInMemory s (yb c).toNat m) →
            ¬((∀ c < n, ∀ c' < n, c ≠ c' → apart (yb c).toNat m (yb c').toNat m ∧
                  apart (yb c).toNat m (xb c').toNat m) ∧
                (∀ c < n, sameOrApart (yb c).toNat (xb c).toNat m ∧
                  apart sp (orderWords o * n) (xb c).toNat m ∧
                  apart sp (orderWords o * n) (yb c).toNat m ∧
                  apart px n (yb c).toNat m ∧ apart py n (yb c).toNat m) ∧
                apart px n sp (orderWords o * n) ∧ apart py n sp (orderWords o * n)) →
            exec (procmCommand o) s
              = .next (faultEntry ⟨.aliasViolation, 0, 0⟩ (encode (procmCommand o)) s)))

/-- R307, R346: a `PROCM` that faults at sample `k` of channel `ch` keeps every step before it in
sample-outer, channel-inner order: the channels below `ch` have done `k + 1` samples, the others `k`;
their outputs stand in their runs and the last states in the cells of those that have done a sample,
and every other byte of memory is as before. Only those cells need be written. The sample reads its
input, then the cell's `s1`, then `s2` in the second order, and faults on the first of them that is
unwritten, where the input or the cell is not finite, or where a result is not finite. -/
def Obligations.ProcmFaultKeepsCompletedSteps : Prop :=
  ∀ (o : Order) (s : State) (m n px py sp k ch : Nat) (xb yb : Nat → Word)
    (xs ys : Nat → List Word) (st st' : Nat → Cell Word) (f : Raise),
    allWritten s (readSet (procmCommand o)) → coefsValid s.num (loadCoef o s) = true →
    m = (s.reg .ns).toNat → n = (s.reg .nch).toNat → px = (s.reg .xptr).toNat →
    py = (s.reg .yptr).toNat → sp = (s.reg .sptr).toNat →
    runInMemory s px n → runInMemory s py n → runInMemory s sp (orderWords o * n) →
    (∀ c < n, s.memRead (wordAddr px c) = some (xb c) ∧
      s.memRead (wordAddr py c) = some (yb c) ∧
      runInMemory s (xb c).toNat m ∧ runInMemory s (yb c).toNat m) →
    (∀ c < n, ∀ c' < n, c ≠ c' →
      apart (yb c).toNat m (yb c').toNat m ∧ apart (yb c).toNat m (xb c').toNat m) →
    (∀ c < n, sameOrApart (yb c).toNat (xb c).toNat m ∧
      apart sp (orderWords o * n) (xb c).toNat m ∧
      apart sp (orderWords o * n) (yb c).toNat m ∧
      apart px n (yb c).toNat m ∧ apart py n (yb c).toNat m) →
    apart px n sp (orderWords o * n) → apart py n sp (orderWords o * n) →
    k < m → ch < n →
    (∀ c < n, (xs c).length = (if c < ch then k + 1 else k) ∧
      runHolds s.params.byteOrder s.mem (xb c).toNat (xs c) ∧
      (k ≠ 0 ∨ c < ch →
        cellHolds s.params.byteOrder o s.mem (cellAddr (orderWords o) sp c) (st c)) ∧
      channelRun s.num (loadCoef o s) (st c) (xs c) = some (ys c, st' c)) →
    ((s.memRead (wordAddr (xb ch).toNat k) = none ∧
        f = ⟨.unwrittenMemory, BitVec.ofNat 32 (wordAddr (xb ch).toNat k), BitVec.ofNat 32 ch⟩) ∨
      (∃ x, s.memRead (wordAddr (xb ch).toNat k) = some x ∧
        s.memRead (cellAddr (orderWords o) sp ch) = none ∧
        f = ⟨.unwrittenMemory, BitVec.ofNat 32 (cellAddr (orderWords o) sp ch),
          BitVec.ofNat 32 ch⟩) ∨
      (∃ x s1, s.memRead (wordAddr (xb ch).toNat k) = some x ∧ o = .second ∧
        s.memRead (cellAddr (orderWords o) sp ch) = some s1 ∧
        s.memRead (cellAddr (orderWords o) sp ch + 4) = none ∧
        f = ⟨.unwrittenMemory, BitVec.ofNat 32 (cellAddr (orderWords o) sp ch + 4),
          BitVec.ofNat 32 ch⟩) ∨
      (∃ x, s.memRead (wordAddr (xb ch).toNat k) = some x ∧
        cellHolds s.params.byteOrder o s.mem (cellAddr (orderWords o) sp ch) (st ch) ∧
        ¬(F32.isFinite x = true ∧ cellFinite o (st' ch) = true) ∧
        f = ⟨.valueNonfinite, BitVec.ofNat 32 k, BitVec.ofNat 32 ch⟩) ∨
      (∃ x, s.memRead (wordAddr (xb ch).toNat k) = some x ∧
        cellHolds s.params.byteOrder o s.mem (cellAddr (orderWords o) sp ch) (st ch) ∧
        F32.isFinite x = true ∧ cellFinite o (st' ch) = true ∧
        channelRun s.num (loadCoef o s) (st' ch) [x] = none ∧
        f = ⟨.outputNonfinite, BitVec.ofNat 32 k, BitVec.ofNat 32 ch⟩)) →
    ∃ mem', exec (procmCommand o) s
        = .next (faultEntry f (encode (procmCommand o)) { s with mem := mem' }) ∧
      (∀ c < n, runHolds s.params.byteOrder mem' (yb c).toNat (ys c) ∧
        (k ≠ 0 ∨ c < ch →
          cellHolds s.params.byteOrder o mem' (cellAddr (orderWords o) sp c) (st' c))) ∧
      ∀ a, (∀ c < n, ¬inRun (yb c).toNat (ys c).length a) →
        (∀ c < n, k ≠ 0 ∨ c < ch →
          ¬inRun (cellAddr (orderWords o) sp c) (orderWords o) a) →
        readByte mem' a = readByte s.mem a

/-- R311: a `PROCM` that completes produces for every channel the same output run and final cell as
`PROCN` run on that channel alone, with `S1` (and `S2`) loaded from the channel's initial cell. -/
def Obligations.ChannelsAreIndependent : Prop :=
  ∀ (o : Order) (s t : State) (c : Nat) (xb yb : Word) (st : Cell Word),
    s.halted = false → exec (procmCommand o) s = .next t → t.halted = false →
    (s.reg .ns).toNat ≠ 0 → c < (s.reg .nch).toNat →
    s.memRead (wordAddr (s.reg .xptr).toNat c) = some xb →
    s.memRead (wordAddr (s.reg .yptr).toNat c) = some yb →
    cellHolds s.params.byteOrder o s.mem
      (cellAddr (orderWords o) (s.reg .sptr).toNat c) st →
    ∃ u, exec (procnCommand o)
        (setRegCell o st ((s.setReg .xptr xb).setReg .yptr yb)) = .next u ∧ u.halted = false ∧
      (∀ j < (s.reg .ns).toNat,
        t.memRead (wordAddr yb.toNat j) = u.memRead (wordAddr yb.toNat j)) ∧
      cellHolds s.params.byteOrder o t.mem
        (cellAddr (orderWords o) (s.reg .sptr).toNat c) (regCell o u)

/-! ### Properties of the engine -/

/-- R274, the fixed point in the ideal meaning: over the rationals, away from the boundary, the step
from the reset state returns `y0` and the same state, in both orders. At the boundary the reset is
zero. -/
def Obligations.IdealResetIsAFixedPoint : Prop :=
  (∀ (c : Coef1 Rat) (x0 : Rat), 1 + c.a1 ≠ 0 →
    stepValues1 idealArith c x0 (resetValues1 idealArith (-1) c x0).2
      = resetValues1 idealArith (-1) c x0) ∧
  (∀ (c : Coef2 Rat) (x0 : Rat), 1 + c.a1 + c.a2 ≠ 0 →
    stepValues2 idealArith c x0 (resetValues2 idealArith (-1) c x0).2.1
      (resetValues2 idealArith (-1) c x0).2.2 = resetValues2 idealArith (-1) c x0) ∧
  (∀ (c : Coef1 Rat) (x0 : Rat), c.a1 = -1 → resetValues1 idealArith (-1) c x0 = (0, 0)) ∧
  ∀ (c : Coef2 Rat) (x0 : Rat), c.a1 + c.a2 = -1 →
    resetValues2 idealArith (-1) c x0 = (0, 0, 0)

/-- R300, R301, R275, R276, R277: no engine command ever stores a value that is not finite, whether it
completes or faults: `Y`, `S1` and `S2` and every aligned memory word keep their value or become
finite. -/
def Obligations.EngineStoresOnlyFiniteValues : Prop :=
  ∀ (i : Instr) (o : Order) (s t : State), engineOrder i = some o → exec i s = .next t →
    (∀ r, t.reg r = s.reg r ∨ F32.isFinite (t.reg r) = true) ∧
    ∀ a, a % 4 = 0 → t.memRead a = s.memRead a ∨
      ∃ v, t.memRead a = some v ∧ F32.isFinite v = true

/-- R389, R76: a word that the host writes reads back bit for bit: a value register, halted or not, and
an in-range aligned memory word. The record of what was read is the model's (log 10). -/
def Obligations.HostRoundTrip : Prop :=
  (∀ (s : State) (r : Reg) (v : Word) (rest : List HostOp),
    s.hostQueue = .wr ((regNum r).castLE (by decide)) v
      :: .rd ((regNum r).castLE (by decide)) :: rest →
    ∃ t, Host.Core.run Sys2Proof.core 2 s = .next t ∧
      t.observed = .reg ((regNum r).castLE (by decide)) (some v) :: s.observed) ∧
  ∀ (s : State) (a v : Word) (rest : List HostOp),
    a.toNat % 4 = 0 → a.toNat + 4 ≤ s.params.memSize →
    s.hostQueue = .wrm a v :: .rdm a :: rest →
    ∃ t, Host.Core.run Sys2Proof.core 2 s = .next t ∧
      t.observed = .mem a (some v) :: s.observed

end
end

