-- ==== Sys2Proof/Laws/Memory.lean ====
section
/-! SUPPORT. The data memory: a read after a write, what a write leaves alone, and that every memory
operation keeps the canonical form, whole words and the bounds. -/

namespace Sys2Proof.Machine

/-! ### Bytes -/

@[simp] theorem readByte_writeByte_same (m : Memory) (a : Nat) (v : Byte) :
    readByte (writeByte m a v) a = some v := by
  induction m with
  | nil => simp [writeByte, readByte]
  | cons p m ih =>
    obtain ⟨b, u⟩ := p
    unfold writeByte
    split
    · simp [readByte]
    · split
      · simp [readByte]
      · simpa [readByte, Ne.symm ‹¬a = b›] using ih

theorem readByte_writeByte_ne (m : Memory) {a x : Nat} (v : Byte) (h : a ≠ x) :
    readByte (writeByte m a v) x = readByte m x := by
  induction m with
  | nil => simp [writeByte, readByte, h]
  | cons p m ih =>
    obtain ⟨b, u⟩ := p
    unfold writeByte
    split
    · simp [readByte, h]
    · split
      · subst ‹a = b›; simp [readByte, h]
      · simp [readByte, ih]

theorem readByte_writeByte (m : Memory) (a x : Nat) (v : Byte) :
    readByte (writeByte m a v) x = if a = x then some v else readByte m x := by
  by_cases h : a = x
  · subst h; simp
  · simp [h, readByte_writeByte_ne]

/-- An entry of a memory after a write is the written byte or one that was there. -/
theorem mem_writeByte {m : Memory} {a : Nat} {v : Byte} {p : Host.Cell}
    (h : p ∈ writeByte m a v) : p = (a, v) ∨ p ∈ m := by
  induction m with
  | nil => simpa [writeByte] using h
  | cons q m ih =>
    obtain ⟨b, u⟩ := q
    unfold writeByte at h
    split at h
    · simpa using h
    · split at h
      · rcases List.mem_cons.mp h with h | h
        · exact .inl h
        · exact .inr (List.mem_cons_of_mem _ h)
      · rcases List.mem_cons.mp h with h | h
        · exact .inr (h ▸ List.mem_cons_self ..)
        · exact (ih h).imp id (List.mem_cons_of_mem _)

/-- A write of a byte keeps the canonical form. -/
theorem wf_writeByte {m : Memory} (a : Nat) (v : Byte) (h : Memory.wf m) :
    Memory.wf (writeByte m a v) := by
  induction m with
  | nil => simp [Memory.wf, writeByte]
  | cons q m ih =>
    obtain ⟨b, u⟩ := q
    obtain ⟨hb, hm⟩ := List.pairwise_cons.mp h
    unfold writeByte
    split
    · refine List.pairwise_cons.mpr ⟨fun p hp => ?_, h⟩
      rcases List.mem_cons.mp hp with rfl | hp
      · assumption
      · exact Nat.lt_trans ‹a < b› (hb p hp)
    · split
      · subst ‹a = b›; exact List.pairwise_cons.mpr ⟨hb, hm⟩
      · refine List.pairwise_cons.mpr ⟨fun p hp => ?_, ih hm⟩
        rcases mem_writeByte hp with rfl | hp
        · show b < a; omega
        · exact hb p hp

/-- A listed byte reads back. -/
theorem readByte_of_mem {m : Memory} {p : Host.Cell} (h : p ∈ m) : (readByte m p.1).isSome := by
  induction m with
  | nil => simp at h
  | cons q m ih =>
    obtain ⟨b, u⟩ := q
    unfold readByte
    split
    · rfl
    · rcases List.mem_cons.mp h with rfl | h
      · exact absurd rfl ‹¬b = _›
      · exact ih h

/-- A byte that reads is listed. -/
theorem mem_of_readByte {m : Memory} {a : Nat} (h : (readByte m a).isSome) :
    ∃ v, (a, v) ∈ m := by
  induction m with
  | nil => simp [readByte] at h
  | cons q m ih =>
    obtain ⟨b, u⟩ := q
    unfold readByte at h
    split at h
    · exact ⟨u, by simp [‹b = a›]⟩
    · obtain ⟨v, hv⟩ := ih h
      exact ⟨v, List.mem_cons_of_mem _ hv⟩

/-! ### Words -/

theorem wordOfBytes_byteOfWord (o : ByteOrder) (w : Word) :
    wordOfBytes o (byteOfWord o w 0) (byteOfWord o w 1) (byteOfWord o w 2) (byteOfWord o w 3) = w := by
  cases o <;> simp only [wordOfBytes, byteOfWord] <;> ext i hi <;>
    simp only [BitVec.getElem_append, BitVec.getElem_extractLsb'] <;>
    (split_ifs <;> rw [BitVec.getElem_eq_testBit_toNat, ← BitVec.testBit_toNat] <;> congr 1 <;> omega)

theorem readByte_writeWord (o : ByteOrder) (m : Memory) (a x : Nat) (w : Word) :
    readByte (writeWord o m a w) x
      = if a ≤ x ∧ x < a + 4 then some (byteOfWord o w (x - a)) else readByte m x := by
  unfold writeWord
  simp only [readByte_writeByte]
  by_cases h : a ≤ x ∧ x < a + 4
  · obtain ⟨j, rfl⟩ : ∃ j, x = a + j := ⟨x - a, by omega⟩
    have hj : j = 0 ∨ j = 1 ∨ j = 2 ∨ j = 3 := by omega
    rcases hj with rfl | rfl | rfl | rfl <;> simp
  · rw [if_neg (by omega), if_neg (by omega), if_neg (by omega), if_neg (by omega), if_neg h]

/-- A byte outside the written word reads as before (`20_memory.md` R77). -/
theorem readByte_writeWord_outside (o : ByteOrder) (m : Memory) {a x : Nat} (w : Word)
    (h : x < a ∨ a + 4 ≤ x) : readByte (writeWord o m a w) x = readByte m x := by
  rw [readByte_writeWord, if_neg (by omega)]

@[simp] theorem readWord_writeWord_same (o : ByteOrder) (m : Memory) (a : Nat) (w : Word) :
    readWord o (writeWord o m a w) a = some w := by
  simp [readWord, readByte_writeWord, wordOfBytes_byteOfWord]

theorem readWord_congr {o : ByteOrder} {m m' : Memory} {a : Nat}
    (h : ∀ x, a ≤ x → x < a + 4 → readByte m' x = readByte m x) :
    readWord o m' a = readWord o m a := by
  simp [readWord, h a (by omega) (by omega), h (a + 1) (by omega) (by omega),
    h (a + 2) (by omega) (by omega), h (a + 3) (by omega) (by omega)]

/-- A word disjoint from the written one reads as before (R77). -/
theorem readWord_writeWord_disjoint (o : ByteOrder) (m : Memory) {a b : Nat} (w : Word)
    (h : b + 4 ≤ a ∨ a + 4 ≤ b) : readWord o (writeWord o m a w) b = readWord o m b :=
  readWord_congr fun _ _ _ => readByte_writeWord_outside o m w (by omega)

/-- A write of a word keeps the canonical form. -/
theorem wf_writeWord (o : ByteOrder) {m : Memory} (a : Nat) (w : Word) (h : Memory.wf m) :
    Memory.wf (writeWord o m a w) := by
  unfold writeWord
  exact wf_writeByte _ _ (wf_writeByte _ _ (wf_writeByte _ _ (wf_writeByte _ _ h)))

/-- A written word has a value exactly where its four bytes are listed (R76). -/
theorem readWord_isSome (o : ByteOrder) (m : Memory) (a : Nat) :
    (readWord o m a).isSome = ((readByte m a).isSome && (readByte m (a + 1)).isSome
      && (readByte m (a + 2)).isSome && (readByte m (a + 3)).isSome) := by
  unfold readWord
  cases readByte m a <;> cases readByte m (a + 1) <;> cases readByte m (a + 2) <;>
    cases readByte m (a + 3) <;> rfl

/-! ### Whole words and bounds -/

theorem wholeWords_iff (m : Memory) : Memory.wholeWords m = true ↔
    ∀ x, (readByte m x).isSome → ∀ y, y / 4 = x / 4 → (readByte m y).isSome := by
  unfold Memory.wholeWords
  simp only [List.all_eq_true]
  constructor
  · intro h x hx y hy
    obtain ⟨v, hv⟩ := mem_of_readByte hx
    have := h _ hv (y % 4) (by have := Nat.mod_lt y (by decide : 0 < 4); simp; omega)
    have e : x / 4 * 4 + y % 4 = y := by omega
    simpa [e] using this
  · intro h p hp j hj
    have hj : j < 4 := by simp at hj; omega
    exact h p.1 (readByte_of_mem hp) _ (by omega)

theorem inside_iff (n : Nat) (m : Memory) : Memory.inside n m = true ↔
    ∀ x, (readByte m x).isSome → x < n := by
  unfold Memory.inside
  simp only [List.all_eq_true, decide_eq_true_eq]
  constructor
  · intro h x hx
    obtain ⟨v, hv⟩ := mem_of_readByte hx
    exact h _ hv
  · intro h p hp
    exact h p.1 (readByte_of_mem hp)

/-- An aligned write keeps the memory made of whole words (R76). -/
theorem wholeWords_writeWord (o : ByteOrder) {m : Memory} {a : Nat} (w : Word) (ha : a % 4 = 0)
    (h : Memory.wholeWords m = true) : Memory.wholeWords (writeWord o m a w) = true := by
  rw [wholeWords_iff] at h ⊢
  intro x hx y hy
  rw [readByte_writeWord] at hx ⊢
  split
  · rfl
  · rw [if_neg (by omega)] at hx
    exact h x hx y hy

/-- A write below the bound keeps the memory below it (R70). -/
theorem inside_writeWord (o : ByteOrder) {m : Memory} {a n : Nat} (w : Word) (ha : a + 4 ≤ n)
    (h : Memory.inside n m = true) : Memory.inside n (writeWord o m a w) = true := by
  rw [inside_iff] at h ⊢
  intro x hx
  rw [readByte_writeWord] at hx
  split at hx
  · omega
  · exact h x hx

/-- A memory of whole words has a value at an aligned address as soon as one byte is listed. -/
theorem readWord_isSome_of_byte (o : ByteOrder) {m : Memory} {a : Nat} (ha : a % 4 = 0)
    (h : Memory.wholeWords m = true) (hb : (readByte m a).isSome) : (readWord o m a).isSome := by
  rw [wholeWords_iff] at h
  rw [readWord_isSome]
  simp [hb, h a hb (a + 1) (by omega), h a hb (a + 2) (by omega), h a hb (a + 3) (by omega)]

/-! ### Two memories in canonical form -/

/-- Memories in canonical form that read alike are equal. -/
theorem memory_ext {m m' : Memory} (h : Memory.wf m) (h' : Memory.wf m')
    (e : ∀ x, readByte m x = readByte m' x) : m = m' := by
  induction m generalizing m' with
  | nil =>
    cases m' with
    | nil => rfl
    | cons q m' => simpa [readByte] using e q.1
  | cons p m ih =>
    cases m' with
    | nil => simpa [readByte] using e p.1
    | cons q m' =>
      obtain ⟨b, u⟩ := p
      obtain ⟨c, v⟩ := q
      obtain ⟨hb, hm⟩ := List.pairwise_cons.mp h
      obtain ⟨hc, hm'⟩ := List.pairwise_cons.mp h'
      have low : ∀ {n : Memory} {x : Nat}, (∀ p ∈ n, x < p.1) → ∀ y ≤ x, readByte n y = none := by
        intro n x hn y hy
        cases hr : readByte n y with
        | none => rfl
        | some w =>
          obtain ⟨w', hw⟩ := mem_of_readByte (m := n) (a := y) (by simp [hr])
          have := hn _ hw
          simp at this
          omega
      have hbc : b = c := by
        rcases Nat.lt_trichotomy b c with hlt | heq | hgt
        · have := e b
          simp [readByte, Nat.ne_of_gt hlt, low hc b (by show b ≤ c; omega)] at this
        · exact heq
        · have := e c
          simp [readByte, Nat.ne_of_gt hgt, low hb c (by show c ≤ b; omega)] at this
      subst hbc
      have huv : u = v := by simpa [readByte] using e b
      subst huv
      congr 1
      refine ih hm hm' fun x => ?_
      by_cases hx : b = x
      · subst hx
        rw [low hb b (by simp), low hc b (by simp)]
      · simpa [readByte, hx] using e x

end Sys2Proof.Machine
end

