-- ==== Sys2Proof/Laws/State.lean ====
section
/-! SUPPORT. One lemma per field for each update of the state, and what a register reads after a
write. -/

namespace Sys2Proof.Machine

/-! ### Register numbers -/

/-- The value registers in the order of their numbers. -/
def valueRegs : List Reg :=
  [.fs, .fc, .fp, .q, .bw, .gain, .cx, .clp, .cbp, .chp, .b0, .b1, .b2, .a1, .a2, .x, .y, .s1, .s2,
   .xptr, .yptr, .sptr, .ns, .nch]

/-- A register's number is its place in the register map. -/
theorem valueRegs_regNum (r : Reg) : valueRegs.getD (regNum r).val .fs = r := by cases r <;> rfl

/-- Different registers have different numbers. -/
theorem regNum_inj {r r' : Reg} : regNum r = regNum r' ↔ r = r' :=
  ⟨fun h => by rw [← valueRegs_regNum r, h, valueRegs_regNum], fun h => h ▸ rfl⟩

/-! ### `reg[N] <- v` -/

@[simp] theorem setReg_params (s : State) (r : Reg) (v : Word) : (s.setReg r v).params = s.params := rfl
@[simp] theorem setReg_cmd (s : State) (r : Reg) (v : Word) : (s.setReg r v).cmd = s.cmd := rfl
@[simp] theorem setReg_cmdWr (s : State) (r : Reg) (v : Word) : (s.setReg r v).cmdWr = s.cmdWr := rfl
@[simp] theorem setReg_status (s : State) (r : Reg) (v : Word) : (s.setReg r v).status = s.status := rfl
@[simp] theorem setReg_fcmd (s : State) (r : Reg) (v : Word) : (s.setReg r v).fcmd = s.fcmd := rfl
@[simp] theorem setReg_finfo (s : State) (r : Reg) (v : Word) : (s.setReg r v).finfo = s.finfo := rfl
@[simp] theorem setReg_fch (s : State) (r : Reg) (v : Word) : (s.setReg r v).fch = s.fch := rfl
@[simp] theorem setReg_halted (s : State) (r : Reg) (v : Word) : (s.setReg r v).halted = s.halted := rfl
@[simp] theorem setReg_mem (s : State) (r : Reg) (v : Word) : (s.setReg r v).mem = s.mem := rfl
@[simp] theorem setReg_hostQueue (s : State) (r : Reg) (v : Word) : (s.setReg r v).hostQueue = s.hostQueue := rfl
@[simp] theorem setReg_observed (s : State) (r : Reg) (v : Word) : (s.setReg r v).observed = s.observed := rfl

/-! ### `memWrite` -/

@[simp] theorem memWrite_params (s : State) (a : Nat) (v : Word) : (s.memWrite a v).params = s.params := rfl
@[simp] theorem memWrite_regs (s : State) (a : Nat) (v : Word) : (s.memWrite a v).regs = s.regs := rfl
@[simp] theorem memWrite_wr (s : State) (a : Nat) (v : Word) : (s.memWrite a v).wr = s.wr := rfl
@[simp] theorem memWrite_cmd (s : State) (a : Nat) (v : Word) : (s.memWrite a v).cmd = s.cmd := rfl
@[simp] theorem memWrite_cmdWr (s : State) (a : Nat) (v : Word) : (s.memWrite a v).cmdWr = s.cmdWr := rfl
@[simp] theorem memWrite_status (s : State) (a : Nat) (v : Word) : (s.memWrite a v).status = s.status := rfl
@[simp] theorem memWrite_fcmd (s : State) (a : Nat) (v : Word) : (s.memWrite a v).fcmd = s.fcmd := rfl
@[simp] theorem memWrite_finfo (s : State) (a : Nat) (v : Word) : (s.memWrite a v).finfo = s.finfo := rfl
@[simp] theorem memWrite_fch (s : State) (a : Nat) (v : Word) : (s.memWrite a v).fch = s.fch := rfl
@[simp] theorem memWrite_halted (s : State) (a : Nat) (v : Word) : (s.memWrite a v).halted = s.halted := rfl
@[simp] theorem memWrite_mem (s : State) (a : Nat) (v : Word) : (s.memWrite a v).mem = writeWord s.params.byteOrder s.mem a v := rfl
@[simp] theorem memWrite_hostQueue (s : State) (a : Nat) (v : Word) : (s.memWrite a v).hostQueue = s.hostQueue := rfl
@[simp] theorem memWrite_observed (s : State) (a : Nat) (v : Word) : (s.memWrite a v).observed = s.observed := rfl

/-! ### `faultEntry` -/

@[simp] theorem faultEntry_params (r : Raise) (w : Word) (s : State) : (faultEntry r w s).params = s.params := rfl
@[simp] theorem faultEntry_regs (r : Raise) (w : Word) (s : State) : (faultEntry r w s).regs = s.regs := rfl
@[simp] theorem faultEntry_wr (r : Raise) (w : Word) (s : State) : (faultEntry r w s).wr = s.wr := rfl
@[simp] theorem faultEntry_cmd (r : Raise) (w : Word) (s : State) : (faultEntry r w s).cmd = s.cmd := rfl
@[simp] theorem faultEntry_cmdWr (r : Raise) (w : Word) (s : State) : (faultEntry r w s).cmdWr = s.cmdWr := rfl
@[simp] theorem faultEntry_status (r : Raise) (w : Word) (s : State) : (faultEntry r w s).status = statusOfCause r.cause := rfl
@[simp] theorem faultEntry_fcmd (r : Raise) (w : Word) (s : State) : (faultEntry r w s).fcmd = w := rfl
@[simp] theorem faultEntry_finfo (r : Raise) (w : Word) (s : State) : (faultEntry r w s).finfo = r.info := rfl
@[simp] theorem faultEntry_fch (r : Raise) (w : Word) (s : State) : (faultEntry r w s).fch = r.ch := rfl
@[simp] theorem faultEntry_halted (r : Raise) (w : Word) (s : State) : (faultEntry r w s).halted = true := rfl
@[simp] theorem faultEntry_mem (r : Raise) (w : Word) (s : State) : (faultEntry r w s).mem = s.mem := rfl
@[simp] theorem faultEntry_hostQueue (r : Raise) (w : Word) (s : State) : (faultEntry r w s).hostQueue = s.hostQueue := rfl
@[simp] theorem faultEntry_observed (r : Raise) (w : Word) (s : State) : (faultEntry r w s).observed = s.observed := rfl

/-! ### `storeCommand` -/

@[simp] theorem storeCommand_params (w : Word) (s : State) : (storeCommand w s).params = s.params := rfl
@[simp] theorem storeCommand_regs (w : Word) (s : State) : (storeCommand w s).regs = s.regs := rfl
@[simp] theorem storeCommand_wr (w : Word) (s : State) : (storeCommand w s).wr = s.wr := rfl
@[simp] theorem storeCommand_cmd (w : Word) (s : State) : (storeCommand w s).cmd = w := rfl
@[simp] theorem storeCommand_cmdWr (w : Word) (s : State) : (storeCommand w s).cmdWr = true := rfl
@[simp] theorem storeCommand_status (w : Word) (s : State) : (storeCommand w s).status = s.status := rfl
@[simp] theorem storeCommand_fcmd (w : Word) (s : State) : (storeCommand w s).fcmd = s.fcmd := rfl
@[simp] theorem storeCommand_finfo (w : Word) (s : State) : (storeCommand w s).finfo = s.finfo := rfl
@[simp] theorem storeCommand_fch (w : Word) (s : State) : (storeCommand w s).fch = s.fch := rfl
@[simp] theorem storeCommand_halted (w : Word) (s : State) : (storeCommand w s).halted = s.halted := rfl
@[simp] theorem storeCommand_mem (w : Word) (s : State) : (storeCommand w s).mem = s.mem := rfl
@[simp] theorem storeCommand_hostQueue (w : Word) (s : State) : (storeCommand w s).hostQueue = s.hostQueue := rfl
@[simp] theorem storeCommand_observed (w : Word) (s : State) : (storeCommand w s).observed = s.observed := rfl

/-! ### `recordRead` -/

@[simp] theorem recordRead_params (r : HostRead) (s : State) : (recordRead r s).params = s.params := rfl
@[simp] theorem recordRead_regs (r : HostRead) (s : State) : (recordRead r s).regs = s.regs := rfl
@[simp] theorem recordRead_wr (r : HostRead) (s : State) : (recordRead r s).wr = s.wr := rfl
@[simp] theorem recordRead_cmd (r : HostRead) (s : State) : (recordRead r s).cmd = s.cmd := rfl
@[simp] theorem recordRead_cmdWr (r : HostRead) (s : State) : (recordRead r s).cmdWr = s.cmdWr := rfl
@[simp] theorem recordRead_status (r : HostRead) (s : State) : (recordRead r s).status = s.status := rfl
@[simp] theorem recordRead_fcmd (r : HostRead) (s : State) : (recordRead r s).fcmd = s.fcmd := rfl
@[simp] theorem recordRead_finfo (r : HostRead) (s : State) : (recordRead r s).finfo = s.finfo := rfl
@[simp] theorem recordRead_fch (r : HostRead) (s : State) : (recordRead r s).fch = s.fch := rfl
@[simp] theorem recordRead_halted (r : HostRead) (s : State) : (recordRead r s).halted = s.halted := rfl
@[simp] theorem recordRead_mem (r : HostRead) (s : State) : (recordRead r s).mem = s.mem := rfl
@[simp] theorem recordRead_hostQueue (r : HostRead) (s : State) : (recordRead r s).hostQueue = s.hostQueue := rfl
@[simp] theorem recordRead_observed (r : HostRead) (s : State) : (recordRead r s).observed = r :: s.observed := rfl

/-! ### `powerOnReset` -/

@[simp] theorem powerOnReset_params (s : State) : (powerOnReset s).params = s.params := rfl
@[simp] theorem powerOnReset_regs (s : State) : (powerOnReset s).regs = Vector.replicate 24 0 := rfl
@[simp] theorem powerOnReset_wr (s : State) : (powerOnReset s).wr = Vector.replicate 24 false := rfl
@[simp] theorem powerOnReset_cmd (s : State) : (powerOnReset s).cmd = 0 := rfl
@[simp] theorem powerOnReset_cmdWr (s : State) : (powerOnReset s).cmdWr = false := rfl
@[simp] theorem powerOnReset_status (s : State) : (powerOnReset s).status = 0 := rfl
@[simp] theorem powerOnReset_fcmd (s : State) : (powerOnReset s).fcmd = 0 := rfl
@[simp] theorem powerOnReset_finfo (s : State) : (powerOnReset s).finfo = 0 := rfl
@[simp] theorem powerOnReset_fch (s : State) : (powerOnReset s).fch = 0 := rfl
@[simp] theorem powerOnReset_halted (s : State) : (powerOnReset s).halted = false := rfl
@[simp] theorem powerOnReset_mem (s : State) : (powerOnReset s).mem = [] := rfl
@[simp] theorem powerOnReset_hostQueue (s : State) : (powerOnReset s).hostQueue = s.hostQueue := rfl
@[simp] theorem powerOnReset_observed (s : State) : (powerOnReset s).observed = s.observed := rfl

/-! ### What the accessors read after an update -/

@[simp] theorem reg_setReg_same (s : State) (r : Reg) (v : Word) : (s.setReg r v).reg r = v := by
  simp [State.reg, State.setReg]

theorem reg_setReg_ne (s : State) {r r' : Reg} (v : Word) (h : r ≠ r') :
    (s.setReg r v).reg r' = s.reg r' := by
  have hn : (regNum r).val ≠ (regNum r').val := fun e => h (regNum_inj.mp (Fin.ext e))
  simp [State.reg, State.setReg, Vector.getElem_set_ne, hn]

theorem reg_setReg (s : State) (r r' : Reg) (v : Word) :
    (s.setReg r v).reg r' = if r = r' then v else s.reg r' := by
  by_cases h : r = r'
  · subst h; simp
  · simp [h, reg_setReg_ne]

@[simp] theorem written_setReg_same (s : State) (r : Reg) (v : Word) :
    (s.setReg r v).written r = true := by
  simp [State.written, State.setReg]

theorem written_setReg_ne (s : State) {r r' : Reg} (v : Word) (h : r ≠ r') :
    (s.setReg r v).written r' = s.written r' := by
  have hn : (regNum r).val ≠ (regNum r').val := fun e => h (regNum_inj.mp (Fin.ext e))
  simp [State.written, State.setReg, Vector.getElem_set_ne, hn]

theorem written_setReg (s : State) (r r' : Reg) (v : Word) :
    (s.setReg r v).written r' = if r = r' then true else s.written r' := by
  by_cases h : r = r'
  · subst h; simp
  · simp [h, written_setReg_ne]

/-- The last of two writes of a register counts. -/
theorem setReg_setReg (s : State) (r : Reg) (v w : Word) :
    (s.setReg r v).setReg r w = s.setReg r w := by
  simp [State.setReg, Vector.set_set]

/-- Writes of different registers commute. -/
theorem setReg_comm (s : State) {r r' : Reg} (v w : Word) (h : r ≠ r') :
    (s.setReg r v).setReg r' w = (s.setReg r' w).setReg r v := by
  have hn : (regNum r).val ≠ (regNum r').val := fun e => h (regNum_inj.mp (Fin.ext e))
  simp [State.setReg, Vector.set_comm _ _ hn]

@[simp] theorem num_setReg (s : State) (r : Reg) (v : Word) : (s.setReg r v).num = s.num := rfl

@[simp] theorem memRead_setReg (s : State) (r : Reg) (v : Word) (a : Nat) :
    (s.setReg r v).memRead a = s.memRead a := rfl

@[simp] theorem reg_memWrite (s : State) (a : Nat) (v : Word) (r : Reg) :
    (s.memWrite a v).reg r = s.reg r := rfl

@[simp] theorem written_memWrite (s : State) (a : Nat) (v : Word) (r : Reg) :
    (s.memWrite a v).written r = s.written r := rfl

@[simp] theorem num_memWrite (s : State) (a : Nat) (v : Word) : (s.memWrite a v).num = s.num := rfl

@[simp] theorem reg_faultEntry (f : Raise) (w : Word) (s : State) (r : Reg) :
    (faultEntry f w s).reg r = s.reg r := rfl

@[simp] theorem written_faultEntry (f : Raise) (w : Word) (s : State) (r : Reg) :
    (faultEntry f w s).written r = s.written r := rfl

@[simp] theorem memRead_faultEntry (f : Raise) (w : Word) (s : State) (a : Nat) :
    (faultEntry f w s).memRead a = s.memRead a := rfl

@[simp] theorem num_faultEntry (f : Raise) (w : Word) (s : State) :
    (faultEntry f w s).num = s.num := rfl

@[simp] theorem reg_storeCommand (w : Word) (s : State) (r : Reg) :
    (storeCommand w s).reg r = s.reg r := rfl

@[simp] theorem written_storeCommand (w : Word) (s : State) (r : Reg) :
    (storeCommand w s).written r = s.written r := rfl

theorem written_powerOnReset (s : State) (r : Reg) : (powerOnReset s).written r = false := by
  cases r <;> rfl

end Sys2Proof.Machine
end

