-- ==== Sys2Proof/Laws/Ops.lean ====
section
/-! SUPPORT. What the shared operations can do, said once: conditions, procedures that write all at
once, loops, the frame around a command, block reads and range checks. -/

namespace Sys2Proof.Machine

/-! ### Conditions -/

@[simp] theorem require_true (r : Raise) : require true r = .ok () := rfl

@[simp] theorem require_false (r : Raise) : require false r = .error r := rfl

theorem require_eq_ok {ok : Bool} {r : Raise} {u : Unit} : require ok r = .ok u ↔ ok = true := by
  cases ok <;> simp

theorem require_eq_error {ok : Bool} {r r' : Raise} :
    require ok r = .error r' ↔ ok = false ∧ r = r' := by
  cases ok <;> simp

@[simp] theorem ok_bind {α β : Type} (a : α) (f : α → Except Raise β) :
    (Except.ok a >>= f) = f a := rfl

@[simp] theorem error_bind {α β : Type} (e : Raise) (f : α → Except Raise β) :
    ((Except.error e : Except Raise α) >>= f) = .error e := rfl

@[simp] theorem pure_eq_ok {α : Type} (a : α) : (pure a : Except Raise α) = .ok a := rfl

/-- A sequence succeeds when its first part does and the rest does after it. -/
theorem bind_eq_ok {α β : Type} {x : Except Raise α} {f : α → Except Raise β} {b : β} :
    (x >>= f) = .ok b ↔ ∃ a, x = .ok a ∧ f a = .ok b := by
  cases x <;> simp

/-- A sequence raises in its first part or in the rest after it. -/
theorem bind_eq_error {α β : Type} {x : Except Raise α} {f : α → Except Raise β} {r : Raise} :
    (x >>= f) = .error r ↔ x = .error r ∨ ∃ a, x = .ok a ∧ f a = .error r := by
  cases x <;> simp

/-! ### How a procedure ends -/

/-- The state a procedure stops in, completed or not. -/
def Ran.state : Ran → State
  | .done s => s
  | .raised _ s => s

/-- The fault a procedure stops with, if any. -/
def Ran.fault : Ran → Option Raise
  | .done _ => none
  | .raised r _ => some r

@[simp] theorem atOnce_ok {α : Type} (v : α) (write : α → State → State) (s : State) :
    atOnce (.ok v) write s = .done (write v s) := rfl

@[simp] theorem atOnce_error {α : Type} (r : Raise) (write : α → State → State) (s : State) :
    atOnce (.error r) write s = .raised r s := rfl

/-- A procedure that writes all at once writes nothing when it raises (`60_exceptions.md` R346). -/
theorem atOnce_raised {α : Type} {plan : Except Raise α} {write : α → State → State} {s t : State}
    {r : Raise} (h : atOnce plan write s = .raised r t) : plan = .error r ∧ t = s := by
  cases plan <;> simp_all

theorem atOnce_done {α : Type} {plan : Except Raise α} {write : α → State → State} {s t : State}
    (h : atOnce plan write s = .done t) : ∃ v, plan = .ok v ∧ t = write v s := by
  cases plan <;> simp_all

/-- A relation between the start and the state reached that one write step extends holds of a
procedure that writes all at once. -/
theorem atOnce_state {α : Type} (R : State → State → Prop) (refl : ∀ s, R s s)
    {plan : Except Raise α} {write : α → State → State} {s : State}
    (hw : ∀ v, plan = .ok v → R s (write v s)) : R s (atOnce plan write s).state := by
  cases plan with
  | error r => exact refl s
  | ok v => exact hw v rfl

/-- What holds at the start of a loop and is kept by its body holds where it stops, whether it
completes or raises. -/
theorem repeatFrom_state (P : State → Prop) {body : Nat → State → Ran} {i n : Nat} {s : State}
    (hs : P s) (hb : ∀ j t, i ≤ j → j < i + n → P t → P (body j t).state) :
    P (repeatFrom body i n s).state := by
  induction n generalizing i s with
  | zero => exact hs
  | succ n ih =>
    unfold repeatFrom
    have h0 := hb i s (by omega) (by omega) hs
    cases h : body i s with
    | done t =>
      rw [h] at h0
      exact ih h0 fun j u h1 h2 hu => hb j u (by omega) (by omega) hu
    | raised r t => rw [h] at h0; exact h0

/-- A loop that raises does so in one of its iterations. -/
theorem repeatFrom_fault (Q : Raise → Prop) {body : Nat → State → Ran} {i n : Nat} {s t : State}
    {r : Raise} (hb : ∀ j u v r, i ≤ j → j < i + n → body j u = .raised r v → Q r)
    (h : repeatFrom body i n s = .raised r t) : Q r := by
  induction n generalizing i s with
  | zero => simp [repeatFrom] at h
  | succ n ih =>
    unfold repeatFrom at h
    cases h0 : body i s with
    | done u =>
      rw [h0] at h
      exact ih (fun j u v r h1 h2 => hb j u v r (by omega) (by omega)) h
    | raised r' u =>
      rw [h0] at h
      cases h
      exact hb i s _ _ (by omega) (by omega) h0

/-- The first iterations of a loop completed, the rest follows from the state they leave. -/
theorem repeatFrom_add (body : Nat → State → Ran) (i m n : Nat) (s : State) :
    repeatFrom body i (m + n) s = match repeatFrom body i m s with
      | .done t => repeatFrom body (i + m) n t
      | .raised r t => .raised r t := by
  induction m generalizing i s with
  | zero => simp [repeatFrom]
  | succ m ih =>
    rw [Nat.add_right_comm, repeatFrom, repeatFrom]
    cases body i s with
    | raised r t => rfl
    | done t => simp only [ih]; rw [Nat.add_right_comm, ← Nat.add_assoc]

@[simp] theorem repeatFrom_zero (body : Nat → State → Ran) (i : Nat) (s : State) :
    repeatFrom body i 0 s = .done s := rfl

/-! ### The frame around a command -/

theorem firstUnwritten_none {s : State} {rs : List Reg} :
    firstUnwritten s rs = none ↔ allWritten s rs := by
  simp [firstUnwritten, allWritten]

theorem runCommand_of_written {i : Instr} {body : State → Ran} {s : State}
    (h : allWritten s (readSet i)) :
    runCommand i body s = .next (concludeRan (encode i) (body s)) := by
  simp [runCommand, firstUnwritten_none.mpr h]

/-- What `runCommand` can do: stop at the first unwritten register, or run the procedure and conclude
it (`30_encoding.md` R104). -/
theorem runCommand_cases (i : Instr) (body : State → Ran) (s : State) :
    (∃ r, firstUnwritten s (readSet i) = some r ∧
      runCommand i body s
        = .next (faultEntry (raiseWith .unwrittenRegister (regNum r).val 0) (encode i) s)) ∨
    (allWritten s (readSet i) ∧
      ((∃ t, body s = .done t ∧ runCommand i body s = .next t) ∨
       (∃ r t, body s = .raised r t ∧ runCommand i body s = .next (faultEntry r (encode i) t)))) := by
  cases h : firstUnwritten s (readSet i) with
  | some r => exact .inl ⟨r, rfl, by simp [runCommand, h]⟩
  | none =>
    refine .inr ⟨firstUnwritten_none.mp h, ?_⟩
    cases hb : body s with
    | done t => exact .inl ⟨t, rfl, by simp [runCommand, h, hb, concludeRan]⟩
    | raised r t => exact .inr ⟨r, t, rfl, by simp [runCommand, h, hb, concludeRan]⟩

/-- The read sets are in ascending register number, so the register found is the lowest unwritten
one (`10_state.md` R35, `30_encoding.md` R106). -/
theorem readSet_ascending (i : Instr) :
    (readSet i).Pairwise fun r r' => (regNum r).val < (regNum r').val := by
  cases i <;> first | decide | (rename_i pf; cases pf <;> decide)

/-- The register found is the lowest unwritten one of the read set. -/
theorem firstUnwritten_eq_some {i : Instr} {s : State} {r : Reg} (hr : r ∈ readSet i)
    (hw : s.written r = false)
    (hlow : ∀ r' ∈ readSet i, (regNum r').val < (regNum r).val → s.written r' = true) :
    firstUnwritten s (readSet i) = some r := by
  unfold firstUnwritten
  have hp := readSet_ascending i
  revert hr hlow hp
  generalize readSet i = l
  induction l with
  | nil => intro h; cases h
  | cons r₀ l ih =>
    intro hr hlow hp
    rw [List.find?_cons]
    obtain ⟨h1, h2⟩ := List.pairwise_cons.mp hp
    rcases List.mem_cons.mp hr with rfl | hr
    · simp [hw]
    · have hq := hlow r₀ (List.mem_cons_self ..) (h1 r hr)
      simp only [hq, Bool.not_true]
      exact ih hr (fun r' h' => hlow r' (List.mem_cons_of_mem _ h')) h2

/-! ### Block accesses to memory -/

theorem memReadOrRaise_ok {s : State} {a ch : Nat} {v : Word} :
    memReadOrRaise s a ch = .ok v ↔ s.memRead a = some v := by
  unfold memReadOrRaise; cases s.memRead a <;> simp

theorem memReadOrRaise_error {s : State} {a ch : Nat} {r : Raise} :
    memReadOrRaise s a ch = .error r ↔ s.memRead a = none ∧ r = raiseWith .unwrittenMemory a ch := by
  unfold memReadOrRaise; cases s.memRead a <;> simp [eq_comm]

/-- A range check passes exactly for an empty run and for an aligned run inside the memory
(`20_memory.md` R74, R75). -/
theorem rangeCheck_ok {s : State} {a n ch : Nat} {u : Unit} :
    rangeCheck s a n ch = .ok u ↔ n = 0 ∨ runInMemory s a n := by
  unfold rangeCheck runInMemory
  by_cases h : n = 0
  · simp [h]
  · simp [h, require_eq_ok]

theorem rangeCheck_error {s : State} {a n ch : Nat} {r : Raise} :
    rangeCheck s a n ch = .error r ↔
      (n ≠ 0 ∧ ¬runInMemory s a n) ∧ r = raiseWith .accessFault a ch := by
  unfold rangeCheck runInMemory
  by_cases h : n = 0
  · simp [h]
  · simp only [h, if_false, require_eq_error, Bool.and_eq_false_iff, beq_eq_false_iff_ne,
      decide_eq_false_iff_not, ne_eq, not_false_eq_true, true_and]
    exact and_congr (by omega) eq_comm

end Sys2Proof.Machine
end

