-- ==== Sys2Proof/Laws/Exec.lean ====
section
/-! SUPPORT. Every command is `runCommand` of one procedure: the form in which a fact about all
commands is proved. -/

namespace Sys2Proof.Machine

/-- The procedure of a first-order designer. -/
def designBody1 (pf : Bool) (proto : State → Except Raise Proto1) (s : State) : Ran :=
  atOnce (design1 pf proto s) writeCoef1 s

/-- The procedure of a second-order designer. -/
def designBody2 (pf : Bool) (proto : State → Except Raise Proto2) (s : State) : Ran :=
  atOnce (design2 pf proto s) writeCoef2 s

/-- The procedure of `RST1` and `RST2`. -/
def rstBody (o : Order) (s : State) : Ran := atOnce (rstPlan o s) (writeOutput o) s

/-- The procedure of `PROC1` and `PROC2`. -/
def procBody (o : Order) (s : State) : Ran := atOnce (procPlan o s) (writeOutput o) s

/-- The procedure of a command. -/
def bodyOf : Instr → State → Ran
  | .lp1 pf => designBody1 pf protoLp1
  | .hp1 pf => designBody1 pf protoHp1
  | .ap1 pf => designBody1 pf protoAp1
  | .ls1 pf => designBody1 pf (protoLs1 false)
  | .ls1Db pf => designBody1 pf (protoLs1 true)
  | .hs1 pf => designBody1 pf (protoHs1 false)
  | .hs1Db pf => designBody1 pf (protoHs1 true)
  | .mm1 pf => designBody1 pf protoMm1
  | .lp2 pf => designBody2 pf protoLp2
  | .hp2 pf => designBody2 pf protoHp2
  | .ap2 pf => designBody2 pf protoAp2
  | .ls2 pf => designBody2 pf (protoLs2 false)
  | .ls2Db pf => designBody2 pf (protoLs2 true)
  | .hs2 pf => designBody2 pf (protoHs2 false)
  | .hs2Db pf => designBody2 pf (protoHs2 true)
  | .mm2 pf => designBody2 pf protoMm2
  | .bp2 pf => designBody2 pf protoBp2
  | .notch2 pf => designBody2 pf protoNotch2
  | .peak2 pf => designBody2 pf (protoPeak2 false)
  | .peak2Db pf => designBody2 pf (protoPeak2 true)
  | .peak2Bw pf => designBody2 pf (protoPeak2Bw false)
  | .peak2BwDb pf => designBody2 pf (protoPeak2Bw true)
  | .rst1 => rstBody .first
  | .proc1 => procBody .first
  | .procn1 => procnBody .first
  | .rstm1Y => rstmBody .first true false
  | .rstm1S => rstmBody .first false true
  | .rstm1Ys => rstmBody .first true true
  | .procm1 => procmBody .first
  | .rst2 => rstBody .second
  | .proc2 => procBody .second
  | .procn2 => procnBody .second
  | .rstm2Y => rstmBody .second true false
  | .rstm2S => rstmBody .second false true
  | .rstm2Ys => rstmBody .second true true
  | .procm2 => procmBody .second

theorem exec_eq_runCommand (i : Instr) (s : State) : exec i s = runCommand i (bodyOf i) s := by
  cases i <;> rfl

/-- What `exec` can do: fault on the lowest unwritten register of the read set, or conclude the
command's procedure, completed or faulted (`30_encoding.md` R104). -/
theorem exec_cases (i : Instr) (s : State) :
    (∃ r, firstUnwritten s (readSet i) = some r ∧
      exec i s
        = .next (faultEntry (raiseWith .unwrittenRegister (regNum r).val 0) (encode i) s)) ∨
    (allWritten s (readSet i) ∧
      ((∃ t, bodyOf i s = .done t ∧ exec i s = .next t) ∨
       (∃ r t, bodyOf i s = .raised r t ∧ exec i s = .next (faultEntry r (encode i) t)))) := by
  rw [exec_eq_runCommand]
  exact runCommand_cases i (bodyOf i) s

/-- With its read set written, a command concludes its procedure. -/
theorem exec_of_written {i : Instr} {s : State} (h : allWritten s (readSet i)) :
    exec i s = .next (concludeRan (encode i) (bodyOf i s)) := by
  rw [exec_eq_runCommand, runCommand_of_written h]

/-- Every command answers a next state. -/
theorem exec_answers_next (i : Instr) (s : State) : ∃ t, exec i s = .next t := by
  rcases exec_cases i s with ⟨_, _, h⟩ | ⟨_, ⟨t, _, h⟩ | ⟨_, _, _, h⟩⟩ <;> exact ⟨_, h⟩

end Sys2Proof.Machine
end

