-- ==== Sys2Proof/Laws/Frame.lean ====
section
/-! SUPPORT. What the procedure of a command leaves unchanged, completed or faulted. -/

namespace Sys2Proof.Machine

/-- Everything but memory and the registers of a list is as before. -/
structure Keeps (rs : List Reg) (s t : State) : Prop where
  params : t.params = s.params
  cmd : t.cmd = s.cmd
  cmdWr : t.cmdWr = s.cmdWr
  status : t.status = s.status
  fcmd : t.fcmd = s.fcmd
  finfo : t.finfo = s.finfo
  fch : t.fch = s.fch
  halted : t.halted = s.halted
  hostQueue : t.hostQueue = s.hostQueue
  observed : t.observed = s.observed
  reg : ∀ r, r ∉ rs → t.reg r = s.reg r
  written : ∀ r, r ∉ rs → t.written r = s.written r

theorem Keeps.refl (rs : List Reg) (s : State) : Keeps rs s s := by
  constructor <;> intros <;> rfl

theorem Keeps.trans {rs : List Reg} {s t u : State} (h : Keeps rs s t) (h' : Keeps rs t u) :
    Keeps rs s u where
  params := h'.params.trans h.params
  cmd := h'.cmd.trans h.cmd
  cmdWr := h'.cmdWr.trans h.cmdWr
  status := h'.status.trans h.status
  fcmd := h'.fcmd.trans h.fcmd
  finfo := h'.finfo.trans h.finfo
  fch := h'.fch.trans h.fch
  halted := h'.halted.trans h.halted
  hostQueue := h'.hostQueue.trans h.hostQueue
  observed := h'.observed.trans h.observed
  reg r hr := (h'.reg r hr).trans (h.reg r hr)
  written r hr := (h'.written r hr).trans (h.written r hr)

theorem Keeps.setReg {rs : List Reg} {r : Reg} (hr : r ∈ rs) (s : State) (v : Word) :
    Keeps rs s (s.setReg r v) := by
  constructor <;> intros <;> try rfl
  · exact reg_setReg_ne s v (fun e => by subst e; contradiction)
  · exact written_setReg_ne s v (fun e => by subst e; contradiction)

theorem Keeps.memWrite (rs : List Reg) (s : State) (a : Nat) (v : Word) :
    Keeps rs s (s.memWrite a v) := by
  constructor <;> intros <;> rfl

theorem Keeps.mono {rs rs' : List Reg} {s t : State} (h : Keeps rs s t) (hs : ∀ r ∈ rs, r ∈ rs') :
    Keeps rs' s t :=
  { h with
    reg := fun r hr => h.reg r fun h' => hr (hs r h')
    written := fun r hr => h.written r fun h' => hr (hs r h') }

theorem Keeps.num {rs : List Reg} {s t : State} (h : Keeps rs s t) : t.num = s.num := by
  simp [State.num, h.params]

/-- States with equal memory that keep every register are equal. -/
theorem Keeps.eq_of_mem {s t : State} (h : Keeps [] s t) (hm : t.mem = s.mem) : t = s := by
  have hr : t.regs = s.regs := by
    apply Vector.ext
    intro i hi
    obtain ⟨r, hr⟩ : ∃ r, (regNum r).val = i := ⟨valueRegs.getD i .fs, by
      have : ∀ j : Fin 24, (regNum (valueRegs.getD j.val .fs)).val = j.val := by decide
      exact this ⟨i, hi⟩⟩
    subst hr
    exact h.reg r (by simp)
  have hw : t.wr = s.wr := by
    apply Vector.ext
    intro i hi
    obtain ⟨r, hr⟩ : ∃ r, (regNum r).val = i := ⟨valueRegs.getD i .fs, by
      have : ∀ j : Fin 24, (regNum (valueRegs.getD j.val .fs)).val = j.val := by decide
      exact this ⟨i, hi⟩⟩
    subst hr
    exact h.written r (by simp)
  obtain ⟨h1, h2, h3, h4, h5, h6, h7, h8, h9, h10, _, _⟩ := h
  cases s; cases t
  simp only at h1 h2 h3 h4 h5 h6 h7 h8 h9 h10 hr hw hm
  simp [*]

/-! ### Writing a result -/

theorem keeps_writeCoef1 (c : Coef1 Word) (s : State) : Keeps coefRegs1 s (writeCoef1 c s) :=
  ((Keeps.setReg (by decide) _ _).trans (Keeps.setReg (by decide) _ _)).trans
    (Keeps.setReg (by decide) _ _)

theorem keeps_writeCoef2 (c : Coef2 Word) (s : State) : Keeps coefRegs2 s (writeCoef2 c s) :=
  ((((Keeps.setReg (by decide) _ _).trans (Keeps.setReg (by decide) _ _)).trans
    (Keeps.setReg (by decide) _ _)).trans (Keeps.setReg (by decide) _ _)).trans
    (Keeps.setReg (by decide) _ _)

/-- The state registers of an order (`10_state.md` R33). -/
def stateRegs : Order → List Reg
  | .first => [.s1]
  | .second => [.s1, .s2]

theorem keeps_setRegCell (o : Order) (st : Cell Word) (s : State) :
    Keeps (stateRegs o) s (setRegCell o st s) := by
  cases o
  · exact Keeps.setReg (by decide) _ _
  · exact (Keeps.setReg (by decide) _ _).trans (Keeps.setReg (by decide) _ _)

theorem keeps_setMemCell (rs : List Reg) (o : Order) (a : Nat) (st : Cell Word) (s : State) :
    Keeps rs s (setMemCell o a st s) := by
  cases o
  · exact Keeps.memWrite _ _ _ _
  · exact (Keeps.memWrite _ _ _ _).trans (Keeps.memWrite _ _ _ _)

theorem keeps_writeOutput (o : Order) (r : Word × Cell Word) (s : State) :
    Keeps (.y :: stateRegs o) s (writeOutput o r s) :=
  (Keeps.setReg (by simp) _ _).trans ((keeps_setRegCell o _ _).mono fun _ h => List.mem_cons_of_mem _ h)

@[simp] theorem setRegCell_mem (o : Order) (st : Cell Word) (s : State) :
    (setRegCell o st s).mem = s.mem := by cases o <;> rfl

@[simp] theorem setRegCell_params (o : Order) (st : Cell Word) (s : State) :
    (setRegCell o st s).params = s.params := by cases o <;> rfl

@[simp] theorem setRegCell_num (o : Order) (st : Cell Word) (s : State) :
    (setRegCell o st s).num = s.num := by cases o <;> rfl

@[simp] theorem writeOutput_mem (o : Order) (r : Word × Cell Word) (s : State) :
    (writeOutput o r s).mem = s.mem := by simp [writeOutput]

@[simp] theorem setMemCell_params (o : Order) (a : Nat) (st : Cell Word) (s : State) :
    (setMemCell o a st s).params = s.params := by cases o <;> rfl

@[simp] theorem setMemCell_num (o : Order) (a : Nat) (st : Cell Word) (s : State) :
    (setMemCell o a st s).num = s.num := by cases o <;> rfl

@[simp] theorem setMemCell_reg (o : Order) (a : Nat) (st : Cell Word) (s : State) (r : Reg) :
    (setMemCell o a st s).reg r = s.reg r := by cases o <;> rfl

@[simp] theorem rstmWrite_params (o : Order) (wy ws : Bool) (ya sp ch : Nat)
    (r : Word × Cell Word) (s : State) : (rstmWrite o wy ws ya sp ch r s).params = s.params := by
  cases wy <;> cases ws <;> cases o <;> rfl

theorem keeps_rstmWrite (rs : List Reg) (o : Order) (wy ws : Bool) (ya sp ch : Nat)
    (r : Word × Cell Word) (s : State) : Keeps rs s (rstmWrite o wy ws ya sp ch r s) := by
  cases wy <;> cases ws
  · exact Keeps.refl _ _
  · exact keeps_setMemCell _ _ _ _ _
  · exact Keeps.memWrite _ _ _ _
  · exact (Keeps.memWrite _ _ _ _).trans (keeps_setMemCell _ _ _ _ _)

/-! ### Procedures -/

theorem keeps_atOnce {α : Type} {rs : List Reg} (plan : Except Raise α)
    {write : α → State → State} {s : State} (h : ∀ v, Keeps rs s (write v s)) :
    Keeps rs s (atOnce plan write s).state :=
  atOnce_state (Keeps rs) (Keeps.refl rs) fun v _ => h v

theorem keeps_repeatFrom {rs : List Reg} {body : Nat → State → Ran} (i n : Nat) (s : State)
    (h : ∀ j t, Keeps rs t (body j t).state) : Keeps rs s (repeatFrom body i n s).state :=
  repeatFrom_state (Keeps rs s) (Keeps.refl rs s) fun j t _ _ ht => ht.trans (h j t)

theorem keeps_procnSample (o : Order) (c : Coefs Word) (xa ya i : Nat) (s : State) :
    Keeps (stateRegs o) s (procnSample o c xa ya i s).state :=
  keeps_atOnce _ fun _ => (Keeps.memWrite _ _ _ _).trans (keeps_setRegCell o _ _)

theorem keeps_procnBody (o : Order) (s : State) : Keeps (stateRegs o) s (procnBody o s).state := by
  unfold procnBody
  split
  · exact Keeps.refl _ _
  · exact keeps_repeatFrom _ _ _ fun j t => keeps_procnSample _ _ _ _ _ _

theorem keeps_rstmBody (o : Order) (wy ws : Bool) (s : State) :
    Keeps [] s (rstmBody o wy ws s).state := by
  unfold rstmBody
  split
  · exact Keeps.refl _ _
  · split
    · exact Keeps.refl _ _
    · split
      · exact Keeps.refl _ _
      · exact keeps_repeatFrom _ _ _ fun j t => keeps_atOnce _ fun _ => keeps_rstmWrite _ _ _ _ _ _ _ _ _

theorem keeps_procmSample (o : Order) (c : Coefs Word) (sp : Nat) (runs : List (Nat × Nat))
    (i ch : Nat) (s : State) : Keeps [] s (procmSample o c sp runs i ch s).state := by
  unfold procmSample
  exact keeps_atOnce _ fun _ => (Keeps.memWrite _ _ _ _).trans (keeps_setMemCell _ _ _ _ _)

theorem keeps_procmBody (o : Order) (s : State) : Keeps [] s (procmBody o s).state := by
  unfold procmBody
  split
  · exact Keeps.refl _ _
  · split
    · exact Keeps.refl _ _
    · split
      · exact Keeps.refl _ _
      · exact keeps_repeatFrom _ _ _ fun j t =>
          keeps_repeatFrom _ _ _ fun k u => keeps_procmSample _ _ _ _ _ _ _

theorem keeps_designBody1 (pf : Bool) (p : State → Except Raise Proto1) (s : State) :
    Keeps coefRegs1 s (designBody1 pf p s).state := keeps_atOnce _ fun _ => keeps_writeCoef1 _ _

theorem keeps_designBody2 (pf : Bool) (p : State → Except Raise Proto2) (s : State) :
    Keeps coefRegs2 s (designBody2 pf p s).state := keeps_atOnce _ fun _ => keeps_writeCoef2 _ _

theorem keeps_rstBody (o : Order) (s : State) : Keeps (.y :: stateRegs o) s (rstBody o s).state :=
  keeps_atOnce _ fun _ => keeps_writeOutput _ _ _

theorem keeps_procBody (o : Order) (s : State) : Keeps (.y :: stateRegs o) s (procBody o s).state :=
  keeps_atOnce _ fun _ => keeps_writeOutput _ _ _

/-- The procedure of a command writes no register outside its write set, and no other part of the
state but memory (`30_encoding.md` R106). -/
theorem bodyOf_keeps (i : Instr) (s : State) : Keeps (writeSet i) s (bodyOf i s).state := by
  cases i <;> first
    | exact keeps_designBody1 _ _ _ | exact keeps_designBody2 _ _ _
    | exact keeps_rstBody .first _ | exact keeps_rstBody .second _
    | exact keeps_procBody .first _ | exact keeps_procBody .second _
    | exact keeps_procnBody .first _ | exact keeps_procnBody .second _
    | exact keeps_rstmBody _ _ _ _ | exact keeps_procmBody _ _

/-- A procedure that writes all at once, and writes no memory, leaves memory as it was. -/
theorem atOnce_mem {α : Type} (plan : Except Raise α) {write : α → State → State} (s : State)
    (h : ∀ v, (write v s).mem = s.mem) : (atOnce plan write s).state.mem = s.mem :=
  atOnce_state (fun s t => t.mem = s.mem) (fun _ => rfl) fun v _ => h v

/-- A command that is no batch leaves memory as it was (`20_memory.md` R70). -/
theorem bodyOf_mem {i : Instr} (h : isBatch i = false) (s : State) :
    (bodyOf i s).state.mem = s.mem := by
  cases i <;> first
    | exact atOnce_mem _ _ fun _ => rfl
    | exact atOnce_mem _ _ fun _ => writeOutput_mem _ _ _
    | cases h

/-- A command that is no batch and faults changes nothing before the fault (R346). -/
theorem bodyOf_raised {i : Instr} (h : isBatch i = false) {s t : State} {r : Raise}
    (e : bodyOf i s = .raised r t) : t = s := by
  cases i <;> first
    | exact (atOnce_raised e).2
    | cases h

end Sys2Proof.Machine
end

