-- ==== Sys2Proof/Laws/Raises.lean ====
section
/-! SUPPORT. Which faults the procedure of each command can raise, and with what record
(`60_exceptions.md` R341, R342). -/

namespace Sys2Proof.Machine

/-- What a designer raises (`40_designer_shared.md` R158). -/
def designRaise (r : Raise) : Prop :=
  (∃ n ∈ [0, 1, 2, 3, 4, 5, 6, 7, 8, 9, 0x101, 0x102, 0x103], r = paramDomain n) ∨
  r = raiseWith .designResult 0 0

/-- What an engine command raises that reaches no memory. -/
def engineRaise (r : Raise) : Prop :=
  r = raiseWith .coeffInvalid 0 0 ∨ r.cause = .valueNonfinite ∨ r.cause = .outputNonfinite

/-- What a batch command raises in a memory of `size` bytes. -/
def batchRaise (size : Nat) (r : Raise) : Prop :=
  engineRaise r ∨ r.cause = .accessFault ∨ r = raiseWith .aliasViolation 0 0 ∨
  ∃ a ch, r = raiseWith .unwrittenMemory a ch ∧ a % 4 = 0 ∧ a + 4 ≤ size

/-! ### Designers -/

theorem require_raises {P : Raise → Prop} {ok : Bool} {r r' : Raise} (h : require ok r = .error r')
    (hr : P r) : P r' := (require_eq_error.mp h).2 ▸ hr

theorem bind_raises {P : Raise → Prop} {α β : Type} {x : Except Raise α} {f : α → Except Raise β}
    (hx : ∀ r, x = .error r → P r) (hf : ∀ a r, f a = .error r → P r) {r : Raise}
    (h : (x >>= f) = .error r) : P r := by
  rcases bind_eq_error.mp h with h | ⟨a, _, h⟩
  · exact hx r h
  · exact hf a r h

theorem pure_raises {P : Raise → Prop} {α : Type} {a : α} {r : Raise}
    (h : (pure a : Except Raise α) = .error r) : P r := by cases h

theorem paramDomain_raise {n : Nat}
    (h : n ∈ [0, 1, 2, 3, 4, 5, 6, 7, 8, 9, 0x101, 0x102, 0x103]) : designRaise (paramDomain n) :=
  .inl ⟨n, h, rfl⟩

theorem gainIn_raises {N : Num} {db : Bool} {g : Word} {r : Raise} (h : gainIn N db g = .error r) :
    designRaise r := by
  cases db
  · exact bind_raises (fun _ h => require_raises h (paramDomain_raise (by decide)))
      (fun _ _ h => pure_raises h) h
  · exact bind_raises (fun _ h => require_raises h (paramDomain_raise (by decide)))
      (fun _ _ h => bind_raises (fun _ h => require_raises h (paramDomain_raise (by decide)))
        (fun _ _ h => pure_raises h) h) h

theorem checkMixReg_raises {s : State} {m : Reg} (hm : m ∈ [Reg.cx, .clp, .cbp, .chp]) {r : Raise}
    (h : checkMixReg s m = .error r) : designRaise r := by
  refine require_raises h (paramDomain_raise ?_)
  fin_cases hm <;> decide

theorem checkFrequencies_raises {pf : Bool} {s : State} {r : Raise}
    (h : checkFrequencies pf s = .error r) : designRaise r :=
  bind_raises (fun _ h => require_raises h (paramDomain_raise (by decide)))
    (fun _ _ h => bind_raises (fun _ h => require_raises h (paramDomain_raise (by decide)))
      (fun _ _ h => require_raises h (paramDomain_raise (by decide))) h) h

theorem design1_raises {pf : Bool} {p : State → Except Raise Proto1} {s : State}
    (hp : ∀ r, p s = .error r → designRaise r) {r : Raise} (h : design1 pf p s = .error r) :
    designRaise r :=
  bind_raises (fun _ h => checkFrequencies_raises h)
    (fun _ _ h => bind_raises hp (fun _ _ h => bind_raises
      (fun _ h => require_raises h (.inr rfl)) (fun _ _ h => pure_raises h) h) h) h

theorem design2_raises {pf : Bool} {p : State → Except Raise Proto2} {s : State}
    (hp : ∀ r, p s = .error r → designRaise r) {r : Raise} (h : design2 pf p s = .error r) :
    designRaise r :=
  bind_raises (fun _ h => checkFrequencies_raises h)
    (fun _ _ h => bind_raises hp (fun _ _ h => bind_raises
      (fun _ h => require_raises h (.inr rfl)) (fun _ _ h => pure_raises h) h) h) h

theorem protoShelf1_raises {α : Type} {db : Bool} {s : State} {fe : Word → Word}
    {f : Word → Except Raise α} (hf : ∀ g r, f g = .error r → designRaise r) {r : Raise}
    (h : (gainIn s.num db (s.reg .gain) >>= fun g => checkEffective (fe g) >>= fun _ => f g)
      = .error r) : designRaise r :=
  bind_raises (fun _ h => gainIn_raises h) (fun g _ h => bind_raises
    (fun _ h => require_raises h (paramDomain_raise (by decide))) (fun _ _ h => hf g _ h) h) h

theorem checkQ_raises {q : Word} {r : Raise} (h : checkQ q = .error r) : designRaise r :=
  require_raises h (paramDomain_raise (by decide))

/-- A designer's procedure raises `PARAM_DOMAIN` with one of its codes or `DESIGN_RESULT` (R158). -/
theorem bodyOf_raises_design {i : Instr} (hi : engineOrder i = none) {s t : State} {r : Raise}
    (h : bodyOf i s = .raised r t) : designRaise r := by
  have low : ∀ {pf p}, designBody1 pf p s = .raised r t → (∀ r, p s = .error r → designRaise r) →
      designRaise r := fun h hp => design1_raises hp (atOnce_raised h).1
  have high : ∀ {pf p}, designBody2 pf p s = .raised r t → (∀ r, p s = .error r → designRaise r) →
      designRaise r := fun h hp => design2_raises hp (atOnce_raised h).1
  have shelf1 : ∀ db r, protoLs1 db s = .error r → designRaise r := fun db r h =>
    protoShelf1_raises (fun _ _ h => pure_raises h) h
  have shelf1' : ∀ db r, protoHs1 db s = .error r → designRaise r := fun db r h =>
    protoShelf1_raises (fun _ _ h => pure_raises h) h
  have shelf2 : ∀ db r, protoLs2 db s = .error r → designRaise r := fun db r h =>
    bind_raises (fun _ h => checkQ_raises h)
      (fun _ _ h => protoShelf1_raises (fun _ _ h => pure_raises h) h) h
  have shelf2' : ∀ db r, protoHs2 db s = .error r → designRaise r := fun db r h =>
    bind_raises (fun _ h => checkQ_raises h)
      (fun _ _ h => protoShelf1_raises (fun _ _ h => pure_raises h) h) h
  have onlyQ : ∀ a b c r, protoQ a b c s = .error r → designRaise r := fun a b c r h =>
    bind_raises (fun _ h => checkQ_raises h) (fun _ _ h => pure_raises h) h
  have peak : ∀ db r, protoPeak2 db s = .error r → designRaise r := fun db r h =>
    bind_raises (fun _ h => checkQ_raises h) (fun _ _ h =>
      bind_raises (fun _ h => gainIn_raises h) (fun _ _ h => pure_raises h) h) h
  have peakBw : ∀ db r, protoPeak2Bw db s = .error r → designRaise r := fun db r h =>
    bind_raises (fun _ h => require_raises h (paramDomain_raise (by decide))) (fun _ _ h =>
      bind_raises (fun _ h => gainIn_raises h) (fun _ _ h =>
        bind_raises (fun _ h => require_raises h (paramDomain_raise (by decide)))
          (fun _ _ h => pure_raises h) h) h) h
  have mm1 : ∀ r, protoMm1 s = .error r → designRaise r := fun r h =>
    bind_raises (fun _ h => checkMixReg_raises (by decide) h) (fun _ _ h =>
      bind_raises (fun _ h => checkMixReg_raises (by decide) h) (fun _ _ h => pure_raises h) h) h
  have mm2 : ∀ r, protoMm2 s = .error r → designRaise r := fun r h =>
    bind_raises (fun _ h => checkQ_raises h) (fun _ _ h =>
      bind_raises (fun _ h => checkMixReg_raises (by decide) h) (fun _ _ h =>
        bind_raises (fun _ h => checkMixReg_raises (by decide) h) (fun _ _ h =>
          bind_raises (fun _ h => checkMixReg_raises (by decide) h) (fun _ _ h =>
            bind_raises (fun _ h => checkMixReg_raises (by decide) h)
              (fun _ _ h => pure_raises h) h) h) h) h) h
  cases i with
  | lp1 => exact low h fun _ h => pure_raises h
  | hp1 => exact low h fun _ h => pure_raises h
  | ap1 => exact low h fun _ h => pure_raises h
  | ls1 => exact low h (shelf1 _)
  | ls1Db => exact low h (shelf1 _)
  | hs1 => exact low h (shelf1' _)
  | hs1Db => exact low h (shelf1' _)
  | mm1 => exact low h mm1
  | lp2 => exact high h (onlyQ _ _ _)
  | hp2 => exact high h (onlyQ _ _ _)
  | ap2 => exact high h (onlyQ _ _ _)
  | ls2 => exact high h (shelf2 _)
  | ls2Db => exact high h (shelf2 _)
  | hs2 => exact high h (shelf2' _)
  | hs2Db => exact high h (shelf2' _)
  | mm2 => exact high h mm2
  | bp2 => exact high h (onlyQ _ _ _)
  | notch2 => exact high h (onlyQ _ _ _)
  | peak2 => exact high h (peak _)
  | peak2Db => exact high h (peak _)
  | peak2Bw => exact high h (peakBw _)
  | peak2BwDb => exact high h (peakBw _)
  | _ => cases hi

/-! ### Engine -/

theorem coefCheck_raises {N : Num} {c : Coefs Word} {r : Raise} (h : coefCheck N c = .error r) :
    engineRaise r := require_raises h (.inl rfl)

theorem stepChecked_raises {N : Num} {c : Coefs Word} {x : Word} {st : Cell Word} {i ch : Nat}
    {r : Raise} (h : stepChecked N c x st i ch = .error r) : engineRaise r :=
  bind_raises (fun _ h => require_raises h (.inr (.inl rfl))) (fun _ _ h =>
    bind_raises (fun _ h => require_raises h (.inr (.inr rfl))) (fun _ _ h => pure_raises h) h) h

theorem resetChecked_raises {N : Num} {c : Coefs Word} {x : Word} {ch : Nat} {r : Raise}
    (h : resetChecked N c x ch = .error r) : engineRaise r :=
  bind_raises (fun _ h => require_raises h (.inr (.inl rfl))) (fun _ _ h => pure_raises h) h

theorem rstPlan_raises {o : Order} {s : State} {r : Raise} (h : rstPlan o s = .error r) :
    engineRaise r :=
  bind_raises (fun _ h => coefCheck_raises h) (fun _ _ h =>
    bind_raises (fun _ h => resetChecked_raises h) (fun _ _ h =>
      bind_raises (fun _ h => require_raises h (.inr (.inr rfl))) (fun _ _ h => pure_raises h) h) h) h

theorem procPlan_raises {o : Order} {s : State} {r : Raise} (h : procPlan o s = .error r) :
    engineRaise r :=
  bind_raises (fun _ h => coefCheck_raises h) (fun _ _ h => stepChecked_raises h) h

theorem rangeCheck_raises {s : State} {a n ch : Nat} {r : Raise}
    (h : rangeCheck s a n ch = .error r) : batchRaise s.params.memSize r := by
  rw [(rangeCheck_error.mp h).2]
  exact .inr (.inl rfl)

theorem memReadOrRaise_raises {s : State} {size a ch : Nat} (h4 : a % 4 = 0) (hs : a + 4 ≤ size)
    {r : Raise} (h : memReadOrRaise s a ch = .error r) : batchRaise size r :=
  .inr (.inr (.inr ⟨a, ch, (memReadOrRaise_error.mp h).2, h4, hs⟩))

/-- Word `i` of a run in memory is aligned and in range. -/
theorem wordAddr_in {s : State} {a n i : Nat} (h : runInMemory s a n) (hi : i < n) :
    wordAddr a i % 4 = 0 ∧ wordAddr a i + 4 ≤ s.params.memSize := by
  unfold runInMemory at h; unfold wordAddr; omega

/-- The words of a state cell in an array in memory are aligned and in range. -/
theorem cellAddr_in {s : State} {o : Order} {sp n c : Nat}
    (h : runInMemory s sp (orderWords o * n)) (hc : c < n) :
    cellAddr (orderWords o) sp c % 4 = 0 ∧
      cellAddr (orderWords o) sp c + 4 * orderWords o ≤ s.params.memSize := by
  unfold runInMemory at h; unfold cellAddr
  cases o <;> simp only [orderWords] at * <;> omega

theorem memCell_raises {s : State} {size : Nat} {o : Order} {a ch : Nat} (h4 : a % 4 = 0)
    (hs : a + 4 * orderWords o ≤ size) {r : Raise} (h : memCell o s a ch = .error r) :
    batchRaise size r := by
  cases o
  · exact bind_raises (fun _ h => memReadOrRaise_raises h4 (by simpa [orderWords] using hs) h)
      (fun _ _ h => pure_raises h) h
  · simp only [orderWords] at hs
    exact bind_raises (fun _ h => memReadOrRaise_raises h4 (by omega) h) (fun _ _ h =>
      bind_raises (fun _ h => memReadOrRaise_raises (by omega) (by omega) h)
        (fun _ _ h => pure_raises h) h) h

/-- What the checks of `PROCN` establish when they pass (`44_engine_process.md` R304). -/
theorem procnCheck_ok {o : Order} {s : State} (h : procnCheck o s = .ok ()) :
    coefsValid s.num (loadCoef o s) = true ∧ cellFinite o (regCell o s) = true ∧
    ((s.reg .ns).toNat ≠ 0 →
      runInMemory s (s.reg .xptr).toNat (s.reg .ns).toNat ∧
      runInMemory s (s.reg .yptr).toNat (s.reg .ns).toNat ∧
      sameOrApart (s.reg .xptr).toNat (s.reg .yptr).toNat (s.reg .ns).toNat) := by
  simp only [procnCheck, bind_eq_ok, coefCheck, require_eq_ok, rangeCheck_ok, sameRuns,
    disjointRuns, Bool.or_eq_true, Bool.and_eq_true, beq_iff_eq, decide_eq_true_eq] at h
  obtain ⟨_, h1, _, h2, _, h3, _, h4, h5⟩ := h
  refine ⟨h1, h2, fun h0 => ⟨h3.resolve_left h0, h4.resolve_left h0, ?_⟩⟩
  unfold sameOrApart
  omega

theorem procnCheck_raises {o : Order} {s : State} {r : Raise} (h : procnCheck o s = .error r) :
    batchRaise s.params.memSize r :=
  bind_raises (fun _ h => .inl (coefCheck_raises h)) (fun _ _ h =>
    bind_raises (fun _ h => require_raises h (.inl (.inr (.inl rfl)))) (fun _ _ h =>
      bind_raises (fun _ h => rangeCheck_raises h) (fun _ _ h =>
        bind_raises (fun _ h => rangeCheck_raises h) (fun _ _ h =>
          require_raises h (.inr (.inr (.inl rfl)))) h) h) h) h

theorem procnBody_raises {o : Order} {s t : State} {r : Raise}
    (h : procnBody o s = .raised r t) : batchRaise s.params.memSize r := by
  unfold procnBody at h
  split at h
  · cases h
    exact procnCheck_raises ‹_›
  · obtain ⟨_, _, hr⟩ := procnCheck_ok ‹_›
    refine repeatFrom_fault _ (fun j u v r _ hj hb => ?_) h
    have hx := wordAddr_in (hr (by omega)).1 (by omega : j < (s.reg .ns).toNat)
    exact bind_raises (fun _ h => memReadOrRaise_raises hx.1 hx.2 h)
      (fun _ _ h => .inl (stepChecked_raises h)) (atOnce_raised hb).1

/-- What the checks of a batched reset establish when they pass (`43_engine_reset.md` R277). -/
theorem rstmCheck_ok {o : Order} {wy ws : Bool} {s : State} (hn : (s.reg .nch).toNat ≠ 0)
    (h : rstmCheck o wy ws s = .ok ()) :
    runInMemory s (s.reg .xptr).toNat (s.reg .nch).toNat ∧
    (wy = true → runInMemory s (s.reg .yptr).toNat (s.reg .nch).toNat ∧
      sameOrApart (s.reg .xptr).toNat (s.reg .yptr).toNat (s.reg .nch).toNat) ∧
    (ws = true → runInMemory s (s.reg .sptr).toNat (orderWords o * (s.reg .nch).toNat) ∧
      apart (s.reg .sptr).toNat (orderWords o * (s.reg .nch).toNat) (s.reg .xptr).toNat
        (s.reg .nch).toNat) ∧
    (wy = true → ws = true →
      apart (s.reg .sptr).toNat (orderWords o * (s.reg .nch).toNat) (s.reg .yptr).toNat
        (s.reg .nch).toNat) := by
  simp only [rstmCheck, bind_eq_ok, require_eq_ok, rangeCheck_ok, rstmAliasOk, sameRuns,
    disjointRuns, Bool.or_eq_true, Bool.and_eq_true, beq_iff_eq, decide_eq_true_eq,
    Bool.not_eq_true', Bool.and_eq_false_iff] at h
  obtain ⟨_, h1, _, h2, _, h3, h4⟩ := h
  refine ⟨h1.resolve_left hn, fun hy => ?_, fun hs => ?_, fun hy hs => ?_⟩
  · subst hy
    simp only [if_true] at h2
    simp only [Bool.true_eq_false, false_or] at h4
    refine ⟨h2.resolve_left hn, ?_⟩
    unfold sameOrApart
    omega
  · subst hs
    have ho : orderWords o * (s.reg .nch).toNat ≠ 0 := by cases o <;> simp [orderWords, hn]
    simp only [if_true] at h3
    simp only [Bool.true_eq_false, false_or] at h4
    refine ⟨h3.resolve_left ho, ?_⟩
    unfold apart
    cases o <;> simp only [orderWords] at * <;> omega
  · subst hy hs
    simp only [Bool.true_eq_false, false_or] at h4
    unfold apart
    cases o <;> simp only [orderWords] at * <;> omega

theorem rstmCheck_raises {o : Order} {wy ws : Bool} {s : State} {r : Raise}
    (h : rstmCheck o wy ws s = .error r) : batchRaise s.params.memSize r :=
  bind_raises (fun _ h => rangeCheck_raises h) (fun _ _ h =>
    bind_raises (fun _ h => rangeCheck_raises h) (fun _ _ h =>
      bind_raises (fun _ h => rangeCheck_raises h) (fun _ _ h =>
        require_raises h (.inr (.inr (.inl rfl)))) h) h) h

theorem rstmValues_raises {N : Num} {size : Nat} {o : Order} {wy ws : Bool} {c : Coefs Word}
    {xa ch : Nat} {s : State} {r : Raise} (h4 : wordAddr xa ch % 4 = 0)
    (hs : wordAddr xa ch + 4 ≤ size) (h : rstmValues N o wy ws c xa ch s = .error r) :
    batchRaise size r :=
  bind_raises (fun _ h => memReadOrRaise_raises h4 hs h) (fun _ _ h =>
    bind_raises (fun _ h => .inl (resetChecked_raises h)) (fun _ _ h =>
      bind_raises (fun _ h => require_raises h (.inl (.inr (.inr rfl)))) (fun _ _ h =>
        bind_raises (fun _ h => require_raises h (.inl (.inr (.inr rfl))))
          (fun _ _ h => pure_raises h) h) h) h) h

theorem rstmBody_raises {o : Order} {wy ws : Bool} {s t : State} {r : Raise}
    (h : rstmBody o wy ws s = .raised r t) : batchRaise s.params.memSize r := by
  unfold rstmBody at h
  split at h
  · cases h
    exact .inl (coefCheck_raises ‹_›)
  · split at h
    · cases h
    · split at h
      · cases h
        exact rstmCheck_raises ‹_›
      · have hx := (rstmCheck_ok ‹_› ‹_›).1
        refine repeatFrom_fault _ (fun j u v r _ hj hb => ?_) h
        have hx := wordAddr_in hx (by omega : j < (s.reg .nch).toNat)
        exact rstmValues_raises hx.1 hx.2 (atOnce_raised hb).1

theorem readPointers_raises {s : State} {size base : Nat} {ch n : Nat}
    (hb : ∀ j, ch ≤ j → j < ch + n → wordAddr base j % 4 = 0 ∧ wordAddr base j + 4 ≤ size)
    {r : Raise} (h : readPointers s base ch n = .error r) : batchRaise size r := by
  induction n generalizing ch r with
  | zero => cases h
  | succ n ih =>
    have h0 := hb ch (by omega) (by omega)
    exact bind_raises (fun _ h => memReadOrRaise_raises h0.1 h0.2 h) (fun _ _ h =>
      bind_raises (fun _ h => ih (fun j h1 h2 => hb j (by omega) (by omega)) h)
        (fun _ _ h => pure_raises h) h) h

theorem checkChannelRuns_raises {s : State} {m ch : Nat} {runs : List (Nat × Nat)} {r : Raise}
    (h : checkChannelRuns s m ch runs = .error r) : batchRaise s.params.memSize r := by
  induction runs generalizing ch r with
  | nil => cases h
  | cons p runs ih =>
    exact bind_raises (fun _ h => rangeCheck_raises h) (fun _ _ h =>
      bind_raises (fun _ h => rangeCheck_raises h) (fun _ _ h => ih h) h) h

theorem readPointers_ok {s : State} {base ch n : Nat} {l : List Nat}
    (h : readPointers s base ch n = .ok l) : l.length = n ∧
    ∀ j < n, ∃ v, s.memRead (wordAddr base (ch + j)) = some v ∧ l[j]? = some v.toNat := by
  induction n generalizing ch l with
  | zero => cases h; simp
  | succ n ih =>
    simp only [readPointers, bind_eq_ok, memReadOrRaise_ok, pure_eq_ok, Except.ok.injEq] at h
    obtain ⟨v, hv, l', hl, rfl⟩ := h
    obtain ⟨h1, h2⟩ := ih hl
    refine ⟨by simp [h1], fun j hj => ?_⟩
    cases j with
    | zero => exact ⟨v, hv, rfl⟩
    | succ j =>
      obtain ⟨w, hw, he⟩ := h2 j (by omega)
      exact ⟨w, by rw [← hw]; congr 1; unfold wordAddr; omega, by simpa using he⟩

theorem checkChannelRuns_ok {s : State} {m ch : Nat} {runs : List (Nat × Nat)} {u : Unit}
    (hm : m ≠ 0) : checkChannelRuns s m ch runs = .ok u ↔
      ∀ p ∈ runs, runInMemory s p.1 m ∧ runInMemory s p.2 m := by
  induction runs generalizing ch with
  | nil => simp [checkChannelRuns]
  | cons p runs ih =>
    simp only [checkChannelRuns, bind_eq_ok, rangeCheck_ok, hm, false_or, ih, List.mem_cons,
      forall_eq_or_imp]
    constructor
    · rintro ⟨_, h1, _, h2, h3⟩; exact ⟨⟨h1, h2⟩, h3⟩
    · rintro ⟨⟨h1, h2⟩, h3⟩; exact ⟨(), h1, (), h2, h3⟩

/-- What `PROCM`'s plan establishes when its checks pass (`44_engine_process.md` R307). -/
theorem procmPlan_ok {o : Order} {s : State} {runs : List (Nat × Nat)}
    (hn : (s.reg .nch).toNat ≠ 0) (hm : (s.reg .ns).toNat ≠ 0) (h : procmPlan o s = .ok runs) :
    runInMemory s (s.reg .xptr).toNat (s.reg .nch).toNat ∧
    runInMemory s (s.reg .yptr).toNat (s.reg .nch).toNat ∧
    runInMemory s (s.reg .sptr).toNat (orderWords o * (s.reg .nch).toNat) ∧
    runs.length = (s.reg .nch).toNat ∧
    (∀ c < (s.reg .nch).toNat, ∃ xv yv,
      s.memRead (wordAddr (s.reg .xptr).toNat c) = some xv ∧
      s.memRead (wordAddr (s.reg .yptr).toNat c) = some yv ∧
      runs[c]? = some (xv.toNat, yv.toNat)) ∧
    (∀ p ∈ runs, runInMemory s p.1 (s.reg .ns).toNat ∧ runInMemory s p.2 (s.reg .ns).toNat) ∧
    procmAliasOk o (s.reg .ns).toNat (s.reg .nch).toNat (s.reg .xptr).toNat (s.reg .yptr).toNat
      (s.reg .sptr).toNat runs = true := by
  simp only [procmPlan, bind_eq_ok, rangeCheck_ok, pure_eq_ok, Except.ok.injEq, require_eq_ok,
    checkChannelRuns_ok hm] at h
  obtain ⟨_, h1, _, h2, _, h3, xb, hxb, yb, hyb, _, h4, _, h5, rfl⟩ := h
  obtain ⟨hx1, hx2⟩ := readPointers_ok hxb
  obtain ⟨hy1, hy2⟩ := readPointers_ok hyb
  have ho : orderWords o * (s.reg .nch).toNat ≠ 0 := by cases o <;> simp [orderWords, hn]
  refine ⟨h1.resolve_left hn, h2.resolve_left hn, h3.resolve_left ho, by simp [hx1, hy1],
    fun c hc => ?_, h4, h5⟩
  obtain ⟨xv, e1, e2⟩ := hx2 c hc
  obtain ⟨yv, e3, e4⟩ := hy2 c hc
  refine ⟨xv, yv, by simpa using e1, by simpa using e3, ?_⟩
  simp [List.getElem?_zip_eq_some, e2, e4]

theorem procmPlan_raises {o : Order} {s : State} (hn : (s.reg .nch).toNat ≠ 0) {r : Raise}
    (h : procmPlan o s = .error r) : batchRaise s.params.memSize r := by
  simp only [procmPlan, bind_eq_error] at h
  have ho : orderWords o * (s.reg .nch).toNat ≠ 0 := by cases o <;> simp [orderWords, hn]
  rcases h with h | ⟨_, h1, h | ⟨_, h2, h | ⟨_, h3, h | ⟨_, _, h | ⟨_, _, h | ⟨_, _, h | ⟨_, _, h⟩⟩⟩⟩⟩⟩⟩
  · exact rangeCheck_raises h
  · exact rangeCheck_raises h
  · exact rangeCheck_raises h
  · exact readPointers_raises
      (fun j _ hj => wordAddr_in ((rangeCheck_ok.mp h1).resolve_left hn) (by omega)) h
  · exact readPointers_raises
      (fun j _ hj => wordAddr_in ((rangeCheck_ok.mp h2).resolve_left hn) (by omega)) h
  · exact checkChannelRuns_raises h
  · exact require_raises h (.inr (.inr (.inl rfl)))
  · cases h

theorem procmValues_raises {size : Nat} {o : Order} {c : Coefs Word} {sp xb i ch : Nat} {s : State}
    (h1 : wordAddr xb i % 4 = 0) (h2 : wordAddr xb i + 4 ≤ size)
    (h3 : cellAddr (orderWords o) sp ch % 4 = 0)
    (h4 : cellAddr (orderWords o) sp ch + 4 * orderWords o ≤ size) {r : Raise}
    (h : procmValues o c sp xb i ch s = .error r) : batchRaise size r :=
  bind_raises (fun _ h => memReadOrRaise_raises h1 h2 h) (fun _ _ h =>
    bind_raises (fun _ h => memCell_raises h3 h4 h)
      (fun _ _ h => .inl (stepChecked_raises h)) h) h

theorem procmBody_raises {o : Order} {s t : State} {r : Raise}
    (h : procmBody o s = .raised r t) : batchRaise s.params.memSize r := by
  unfold procmBody at h
  split at h
  · cases h
    exact .inl (coefCheck_raises ‹_›)
  · split at h
    · cases h
    · rename_i h0
      have hn : (s.reg .nch).toNat ≠ 0 := fun e => h0 (.inl e)
      have hm : (s.reg .ns).toNat ≠ 0 := fun e => h0 (.inr e)
      cases hp : procmPlan o s with
      | error r' =>
        rw [hp] at h
        cases h
        exact procmPlan_raises hn hp
      | ok runs =>
        rw [hp] at h
        obtain ⟨_, _, hsp, hl, _, hr, _⟩ := procmPlan_ok hn hm hp
        refine repeatFrom_fault _ (fun i u v r _ hi hb => ?_) h
        refine repeatFrom_fault _ (fun ch u v r _ hch hb => ?_) hb
        unfold procmSample at hb
        have hmem : runs.getD ch (0, 0) ∈ runs := by
          rw [List.getD_eq_getElem _ _ (by omega)]
          exact List.getElem_mem _
        have hx := wordAddr_in (hr _ hmem).1 (by omega : i < (s.reg .ns).toNat)
        have hc := cellAddr_in hsp (by omega : ch < (s.reg .nch).toNat)
        exact procmValues_raises hx.1 hx.2 hc.1 hc.2 (atOnce_raised hb).1

/-- An engine command that reaches no memory raises `COEFF_INVALID`, `VALUE_NONFINITE` or
`OUTPUT_NONFINITE`. -/
theorem bodyOf_raises_engine {i : Instr} (hi : designerPf i = none) (hb : isBatch i = false)
    {s t : State} {r : Raise} (h : bodyOf i s = .raised r t) : engineRaise r := by
  cases i with
  | rst1 => exact rstPlan_raises (atOnce_raised h).1
  | proc1 => exact procPlan_raises (atOnce_raised h).1
  | rst2 => exact rstPlan_raises (atOnce_raised h).1
  | proc2 => exact procPlan_raises (atOnce_raised h).1
  | _ => first | (cases hi; done) | cases hb

/-- A batch command raises one of the engine's causes, `ACCESS_FAULT`, `ALIAS_VIOLATION`, or
`UNWRITTEN_MEMORY` at an aligned address in range. -/
theorem bodyOf_raises_batch {i : Instr} (hb : isBatch i = true) {s t : State} {r : Raise}
    (h : bodyOf i s = .raised r t) : batchRaise s.params.memSize r := by
  cases i with
  | procn1 => exact procnBody_raises h
  | rstm1Y => exact rstmBody_raises h
  | rstm1S => exact rstmBody_raises h
  | rstm1Ys => exact rstmBody_raises h
  | procm1 => exact procmBody_raises h
  | procn2 => exact procnBody_raises h
  | rstm2Y => exact rstmBody_raises h
  | rstm2S => exact rstmBody_raises h
  | rstm2Ys => exact rstmBody_raises h
  | procm2 => exact procmBody_raises h
  | _ => cases hb

end Sys2Proof.Machine
end

