-- ==== Sys2Proof/Laws/Batch.lean ====
section
/-! SUPPORT. Where the batch commands write in memory, and what: aligned words in range, of their
output runs and state cells, each a finite value. -/

namespace Sys2Proof.Machine

/-- The second memory comes from the first by writing words, each address and value as `P` says. -/
inductive Wrote (o : ByteOrder) (P : Nat → Word → Prop) (m : Memory) : Memory → Prop
  | refl : Wrote o P m m
  | write {m' : Memory} {a : Nat} {v : Word} (h : Wrote o P m m') (hp : P a v) :
      Wrote o P m (writeWord o m' a v)

/-- A byte in none of the written words reads as before. -/
theorem Wrote.outside {o : ByteOrder} {P : Nat → Word → Prop} {m m' : Memory} (h : Wrote o P m m')
    {x : Nat} (hx : ∀ a v, P a v → x < a ∨ a + 4 ≤ x) : readByte m' x = readByte m x := by
  induction h with
  | refl => rfl
  | write _ hp ih => rw [readByte_writeWord_outside _ _ _ (hx _ _ hp), ih]

/-- Words written aligned and below the bound keep the canonical form, whole words and the bound. -/
theorem Wrote.keeps {o : ByteOrder} {P : Nat → Word → Prop} {m m' : Memory} (h : Wrote o P m m')
    {n : Nat} (hp : ∀ a v, P a v → a % 4 = 0 ∧ a + 4 ≤ n) (hw : Memory.wf m)
    (hh : Memory.wholeWords m = true) (hi : Memory.inside n m = true) :
    Memory.wf m' ∧ Memory.wholeWords m' = true ∧ Memory.inside n m' = true := by
  induction h with
  | refl => exact ⟨hw, hh, hi⟩
  | write _ hq ih =>
    exact ⟨wf_writeWord _ _ _ ih.1, wholeWords_writeWord _ _ (hp _ _ hq).1 ih.2.1,
      inside_writeWord _ _ (hp _ _ hq).2 ih.2.2⟩

/-- An aligned word is as before or one of the values written at its address. -/
theorem Wrote.word {o : ByteOrder} {P : Nat → Word → Prop} {m m' : Memory} (h : Wrote o P m m')
    (hp : ∀ a v, P a v → a % 4 = 0) {b : Nat} (hb : b % 4 = 0) :
    readWord o m' b = readWord o m b ∨ ∃ v, readWord o m' b = some v ∧ P b v := by
  induction h with
  | refl => exact .inl rfl
  | @write m' a v _ hq ih =>
    by_cases e : a = b
    · subst e
      exact .inr ⟨v, readWord_writeWord_same _ _ _ _, hq⟩
    · rw [readWord_writeWord_disjoint o m' v (by have := hp _ _ hq; omega)]
      exact ih

/-- What a batch command may write: an aligned word in range, a finite value, at a place of its own. -/
def allowedWrite (s : State) (place : Nat → Prop) (a : Nat) (v : Word) : Prop :=
  a % 4 = 0 ∧ a + 4 ≤ s.params.memSize ∧ F32.isFinite v = true ∧ place a

/-- The word addresses of a run (`20_memory.md` R78, R79, R81). -/
def inRunWords (base n a : Nat) : Prop := ∃ i < n, a = wordAddr base i

/-- The word addresses of a state-cell array (R80). -/
def inCells (o : Order) (sp n a : Nat) : Prop :=
  ∃ c < n, a = cellAddr (orderWords o) sp c ∨ (o = .second ∧ a = cellAddr (orderWords o) sp c + 4)

theorem inRunWords_inRun {base n a x : Nat} (h : inRunWords base n a) (hx : ¬inRun base n x) :
    x < a ∨ a + 4 ≤ x := by
  obtain ⟨i, hi, rfl⟩ := h
  unfold inRun at hx; unfold wordAddr; omega

theorem inCells_inRun {o : Order} {sp n a x : Nat} (h : inCells o sp n a)
    (hx : ¬inRun sp (orderWords o * n) x) : x < a ∨ a + 4 ≤ x := by
  obtain ⟨c, hc, rfl | ⟨rfl, rfl⟩⟩ := h <;> unfold inRun at hx <;> unfold cellAddr
  · cases o <;> simp only [orderWords] at * <;> omega
  · simp only [orderWords] at *; omega

/-- Writes that are allowed for one place are allowed for a larger one. -/
theorem Wrote.mono {o : ByteOrder} {P Q : Nat → Word → Prop} {m m' : Memory} (h : Wrote o P m m')
    (hpq : ∀ a v, P a v → Q a v) : Wrote o Q m m' := by
  induction h with
  | refl => exact .refl
  | write _ hp ih => exact .write ih (hpq _ _ hp)

/-! ### Checked values are finite -/

theorem stepChecked_ok {N : Num} {c : Coefs Word} {x : Word} {st : Cell Word} {i ch : Nat}
    {r : Word × Cell Word} : stepChecked N c x st i ch = .ok r ↔
      F32.isFinite x = true ∧ cellFinite (orderOf c) st = true ∧ r = stepValues N c x st ∧
      F32.isFinite r.1 = true ∧ cellFinite (orderOf c) r.2 = true := by
  simp only [stepChecked, bind_eq_ok, require_eq_ok, Bool.and_eq_true, pure_eq_ok, Except.ok.injEq]
  constructor
  · rintro ⟨_, ⟨h1, h2⟩, _, ⟨h3, h4⟩, rfl⟩; exact ⟨h1, h2, rfl, h3, h4⟩
  · rintro ⟨h1, h2, rfl, h3, h4⟩; exact ⟨(), ⟨h1, h2⟩, (), ⟨h3, h4⟩, rfl⟩

theorem resetChecked_ok {N : Num} {c : Coefs Word} {x : Word} {ch : Nat} {r : Word × Cell Word} :
    resetChecked N c x ch = .ok r ↔ F32.isFinite x = true ∧ r = resetValues N c x := by
  simp only [resetChecked, bind_eq_ok, require_eq_ok, pure_eq_ok, Except.ok.injEq]
  constructor
  · rintro ⟨_, h, rfl⟩; exact ⟨h, rfl⟩
  · rintro ⟨h, rfl⟩; exact ⟨(), h, rfl⟩

@[simp] theorem orderOf_loadCoef (o : Order) (s : State) : orderOf (loadCoef o s) = o := by
  cases o <;> rfl

/-- A finite cell written at an aligned place in range writes only what is allowed. -/
theorem wrote_setMemCell {s t : State} {o : Order} {sp n c : Nat} {st : Cell Word}
    {place : Nat → Prop} {m : Memory} (hp : t.params = s.params)
    (hr : runInMemory s sp (orderWords o * n)) (hc : c < n) (hf : cellFinite o st = true)
    (hpl : ∀ a, inCells o sp n a → place a)
    (h : Wrote s.params.byteOrder (allowedWrite s place) m t.mem) :
    Wrote s.params.byteOrder (allowedWrite s place) m
      (setMemCell o (cellAddr (orderWords o) sp c) st t).mem := by
  obtain ⟨h4, hs⟩ := cellAddr_in hr hc
  cases o
  · simp only [setMemCell, memWrite_mem, hp]
    exact .write h ⟨h4, by simpa [orderWords] using hs, hf, hpl _ ⟨c, hc, .inl rfl⟩⟩
  · simp only [cellFinite, Bool.and_eq_true] at hf
    simp only [orderWords] at h4 hs
    simp only [setMemCell, memWrite_mem, memWrite_params, hp]
    exact .write (.write h ⟨h4, by simp only [orderWords]; omega, hf.1, hpl _ ⟨c, hc, .inl rfl⟩⟩)
      ⟨by simp only [orderWords]; omega, by simp only [orderWords]; omega, hf.2,
        hpl _ ⟨c, hc, .inr ⟨rfl, rfl⟩⟩⟩

/-! ### The three bodies -/

theorem procnBody_wrote (o : Order) (s : State) :
    Wrote s.params.byteOrder
      (allowedWrite s (inRunWords (s.reg .yptr).toNat (s.reg .ns).toNat)) s.mem
      (procnBody o s).state.mem := by
  unfold procnBody
  split
  · exact .refl
  · obtain ⟨_, _, hr⟩ := procnCheck_ok ‹_›
    refine (repeatFrom_state (fun t => t.params = s.params ∧ Wrote s.params.byteOrder
      (allowedWrite s (inRunWords (s.reg .yptr).toNat (s.reg .ns).toNat)) s.mem t.mem)
      ⟨rfl, .refl⟩ fun j t _ hj ht => ?_).2
    refine atOnce_state (fun t t' => (t.params = s.params ∧ Wrote _ _ s.mem t.mem) →
      (t'.params = s.params ∧ Wrote _ _ s.mem t'.mem)) (fun _ h => h) (fun r hr' ht => ?_) ht
    simp only [bind_eq_ok, stepChecked_ok] at hr'
    obtain ⟨x, _, _, _, _, hy, _⟩ := hr'
    have hw := wordAddr_in (hr (by omega)).2.1 (by omega : j < (s.reg .ns).toNat)
    refine ⟨by simpa using ht.1, ?_⟩
    simp only [setRegCell_mem, memWrite_mem, ht.1]
    exact .write ht.2 ⟨hw.1, hw.2, hy, j, by omega, rfl⟩

theorem rstmBody_wrote (o : Order) (wy ws : Bool) (s : State) :
    Wrote s.params.byteOrder (allowedWrite s fun a =>
      (wy = true ∧ inRunWords (s.reg .yptr).toNat (s.reg .nch).toNat a) ∨
      (ws = true ∧ inCells o (s.reg .sptr).toNat (s.reg .nch).toNat a)) s.mem
      (rstmBody o wy ws s).state.mem := by
  unfold rstmBody
  split
  · exact .refl
  · split
    · exact .refl
    · rename_i hn
      split
      · exact .refl
      · obtain ⟨_, hy, hs, _⟩ := rstmCheck_ok hn ‹_›
        refine (repeatFrom_state (fun t => t.params = s.params ∧ Wrote s.params.byteOrder
          (allowedWrite s fun a =>
            (wy = true ∧ inRunWords (s.reg .yptr).toNat (s.reg .nch).toNat a) ∨
            (ws = true ∧ inCells o (s.reg .sptr).toNat (s.reg .nch).toNat a)) s.mem t.mem)
          ⟨rfl, .refl⟩ fun j t _ hj ht => ?_).2
        refine atOnce_state (fun t t' => (t.params = s.params ∧ Wrote _ _ s.mem t.mem) →
          (t'.params = s.params ∧ Wrote _ _ s.mem t'.mem)) (fun _ h => h) (fun r hr' ht => ?_) ht
        simp only [rstmValues, bind_eq_ok, require_eq_ok, Bool.or_eq_true, Bool.not_eq_true',
          pure_eq_ok, Except.ok.injEq] at hr'
        obtain ⟨x, _, r', _, _, hfy, _, hfs, e⟩ := hr'
        rw [e] at hfy hfs
        refine ⟨by simpa using ht.1, ?_⟩
        have step1 : Wrote s.params.byteOrder (allowedWrite s fun a =>
            (wy = true ∧ inRunWords (s.reg .yptr).toNat (s.reg .nch).toNat a) ∨
            (ws = true ∧ inCells o (s.reg .sptr).toNat (s.reg .nch).toNat a)) s.mem
            (if wy then t.memWrite (wordAddr (s.reg .yptr).toNat j) r.1 else t).mem := by
          cases wy
          · exact ht.2
          · have hw := wordAddr_in (hy rfl).1 (by omega : j < (s.reg .nch).toNat)
            rw [if_pos rfl, memWrite_mem, ht.1]
            exact .write ht.2 ⟨hw.1, hw.2, by simpa using hfy, .inl ⟨rfl, j, by omega, rfl⟩⟩
        unfold rstmWrite
        cases ws
        · exact step1
        · refine wrote_setMemCell ?_ (hs rfl).1 (by omega) (by simpa using hfs)
            (fun a ha => .inr ⟨rfl, ha⟩) step1
          cases wy
          · exact ht.1
          · exact ht.1

/-- The channel output bases that a `PROCM` reads from its pointer array (`20_memory.md` R79). -/
def outputPlace (s : State) (o : Order) (a : Nat) : Prop :=
  (∃ c v, c < (s.reg .nch).toNat ∧ s.memRead (wordAddr (s.reg .yptr).toNat c) = some v ∧
    inRunWords v.toNat (s.reg .ns).toNat a) ∨
  inCells o (s.reg .sptr).toNat (s.reg .nch).toNat a

theorem procmBody_wrote (o : Order) (s : State) :
    Wrote s.params.byteOrder (allowedWrite s (outputPlace s o)) s.mem
      (procmBody o s).state.mem := by
  unfold procmBody
  split
  · exact .refl
  · split
    · exact .refl
    · rename_i h0
      have hn : (s.reg .nch).toNat ≠ 0 := fun e => h0 (.inl e)
      have hm : (s.reg .ns).toNat ≠ 0 := fun e => h0 (.inr e)
      cases hp : procmPlan o s with
      | error r => exact .refl
      | ok runs =>
        obtain ⟨_, _, hsp, hl, hptr, hr, _⟩ := procmPlan_ok hn hm hp
        refine (repeatFrom_state (fun t => t.params = s.params ∧ Wrote s.params.byteOrder
          (allowedWrite s (outputPlace s o)) s.mem t.mem) ⟨rfl, .refl⟩ fun i t _ hi ht => ?_).2
        refine repeatFrom_state (fun t => t.params = s.params ∧ Wrote s.params.byteOrder
          (allowedWrite s (outputPlace s o)) s.mem t.mem) ht fun ch t _ hch ht => ?_
        unfold procmSample
        refine atOnce_state (fun t t' => (t.params = s.params ∧ Wrote _ _ s.mem t.mem) →
          (t'.params = s.params ∧ Wrote _ _ s.mem t'.mem)) (fun _ h => h) (fun r hr' ht => ?_) ht
        simp only [procmValues, bind_eq_ok, stepChecked_ok, orderOf_loadCoef] at hr'
        obtain ⟨x, _, st, _, _, _, _, hfy, hfs⟩ := hr'
        obtain ⟨xv, yv, _, hyv, hrun⟩ := hptr ch (by omega)
        have hget : runs.getD ch (0, 0) = (xv.toNat, yv.toNat) := by
          rw [List.getD_eq_getElem?_getD, hrun]; rfl
        have hmem : (xv.toNat, yv.toNat) ∈ runs := List.mem_of_getElem? hrun
        have hw := wordAddr_in (hr _ hmem).2 (by omega : i < (s.reg .ns).toNat)
        refine ⟨by simpa using ht.1, ?_⟩
        refine wrote_setMemCell (by simpa using ht.1) hsp (by omega : ch < _) hfs
          (fun a ha => .inr ha) ?_
        simp only [hget, memWrite_mem, ht.1]
        exact .write ht.2 ⟨hw.1, hw.2, hfy, .inl ⟨ch, yv, by omega, hyv, i, by omega, rfl⟩⟩

/-- A batch command writes only aligned words in range, each a finite value. -/
theorem bodyOf_wrote (i : Instr) (s : State) :
    Wrote s.params.byteOrder (allowedWrite s fun _ => True) s.mem (bodyOf i s).state.mem := by
  have weaken : ∀ {P : Nat → Prop} {m : Memory},
      Wrote s.params.byteOrder (allowedWrite s P) s.mem m →
      Wrote s.params.byteOrder (allowedWrite s fun _ => True) s.mem m := fun h =>
    h.mono fun _ _ hw => ⟨hw.1, hw.2.1, hw.2.2.1, trivial⟩
  cases hb : isBatch i with
  | false => rw [bodyOf_mem hb]; exact .refl
  | true =>
    cases i with
    | procn1 => exact weaken (procnBody_wrote .first s)
    | rstm1Y => exact weaken (rstmBody_wrote .first true false s)
    | rstm1S => exact weaken (rstmBody_wrote .first false true s)
    | rstm1Ys => exact weaken (rstmBody_wrote .first true true s)
    | procm1 => exact weaken (procmBody_wrote .first s)
    | procn2 => exact weaken (procnBody_wrote .second s)
    | rstm2Y => exact weaken (rstmBody_wrote .second true false s)
    | rstm2S => exact weaken (rstmBody_wrote .second false true s)
    | rstm2Ys => exact weaken (rstmBody_wrote .second true true s)
    | procm2 => exact weaken (procmBody_wrote .second s)
    | _ => cases hb

/-! ### The registers an engine command writes -/

/-- Every register keeps its value or holds a finite one. -/
def regsFinite (s t : State) : Prop := ∀ r, t.reg r = s.reg r ∨ F32.isFinite (t.reg r) = true

theorem regsFinite_setReg {s t : State} (h : regsFinite s t) {r : Reg} {v : Word}
    (hv : F32.isFinite v = true) : regsFinite s (t.setReg r v) := by
  intro r'
  by_cases e : r = r'
  · subst e
    exact .inr (by simpa using hv)
  · rw [reg_setReg_ne _ _ e]
    exact h r'

theorem regsFinite_setRegCell {s t : State} (h : regsFinite s t) {o : Order} {st : Cell Word}
    (hv : cellFinite o st = true) : regsFinite s (setRegCell o st t) := by
  cases o
  · exact regsFinite_setReg h hv
  · simp only [cellFinite, Bool.and_eq_true] at hv
    exact regsFinite_setReg (regsFinite_setReg h hv.1) hv.2

/-- No engine command puts a value that is not finite into a register
(`43_engine_reset.md` R275, R276, `44_engine_process.md` R300, R301). -/
theorem bodyOf_regsFinite {i : Instr} {o : Order} (ho : engineOrder i = some o) (s : State) :
    regsFinite s (bodyOf i s).state := by
  have same : ∀ {t}, Keeps [] s t → regsFinite s t := fun h r => .inl (h.reg r (by simp))
  have rst : ∀ o, regsFinite s (rstBody o s).state := by
    intro o
    refine atOnce_state regsFinite (fun _ _ => .inl rfl) fun v hv => ?_
    simp only [rstPlan, bind_eq_ok, require_eq_ok, Bool.and_eq_true, pure_eq_ok,
      Except.ok.injEq] at hv
    obtain ⟨_, _, r, _, _, ⟨h1, h2⟩, rfl⟩ := hv
    exact regsFinite_setRegCell (regsFinite_setReg (fun _ => .inl rfl) h1) h2
  have proc : ∀ o, regsFinite s (procBody o s).state := by
    intro o
    refine atOnce_state regsFinite (fun _ _ => .inl rfl) fun v hv => ?_
    simp only [procPlan, bind_eq_ok, stepChecked_ok, orderOf_loadCoef] at hv
    obtain ⟨_, _, _, _, _, h1, h2⟩ := hv
    exact regsFinite_setRegCell (regsFinite_setReg (fun _ => .inl rfl) h1) h2
  have procn : ∀ o, regsFinite s (procnBody o s).state := by
    intro o
    unfold procnBody
    split
    · exact fun _ => .inl rfl
    · refine repeatFrom_state (regsFinite s) (fun _ => .inl rfl) fun j t _ _ ht => ?_
      refine atOnce_state (fun t t' => regsFinite s t → regsFinite s t') (fun _ h => h)
        (fun v hv ht => ?_) ht
      simp only [bind_eq_ok, stepChecked_ok, orderOf_loadCoef] at hv
      obtain ⟨_, _, _, _, _, _, h2⟩ := hv
      exact regsFinite_setRegCell (t := t.memWrite _ _) (fun r => ht r) h2
  cases i with
  | rst1 => exact rst _
  | rst2 => exact rst _
  | proc1 => exact proc _
  | proc2 => exact proc _
  | procn1 => exact procn _
  | procn2 => exact procn _
  | rstm1Y => exact same (keeps_rstmBody _ _ _ _)
  | rstm1S => exact same (keeps_rstmBody _ _ _ _)
  | rstm1Ys => exact same (keeps_rstmBody _ _ _ _)
  | rstm2Y => exact same (keeps_rstmBody _ _ _ _)
  | rstm2S => exact same (keeps_rstmBody _ _ _ _)
  | rstm2Ys => exact same (keeps_rstmBody _ _ _ _)
  | procm1 => exact same (keeps_procmBody _ _)
  | procm2 => exact same (keeps_procmBody _ _)
  | _ => cases ho

/-! ### Faults before and at a step -/

/-- The causes of a per-step fault (`60_exceptions.md` R343, R346). -/
def stepRaise (r : Raise) : Prop :=
  r.cause = .unwrittenMemory ∨ r.cause = .valueNonfinite ∨ r.cause = .outputNonfinite

theorem memReadOrRaise_stepRaise {s : State} {a ch : Nat} {r : Raise}
    (h : memReadOrRaise s a ch = .error r) : stepRaise r := by
  rw [(memReadOrRaise_error.mp h).2]; exact .inl rfl

theorem memCell_stepRaise {s : State} {o : Order} {a ch : Nat} {r : Raise}
    (h : memCell o s a ch = .error r) : stepRaise r := by
  cases o
  · exact bind_raises (fun _ h => memReadOrRaise_stepRaise h) (fun _ _ h => pure_raises h) h
  · exact bind_raises (fun _ h => memReadOrRaise_stepRaise h) (fun _ _ h =>
      bind_raises (fun _ h => memReadOrRaise_stepRaise h) (fun _ _ h => pure_raises h) h) h

theorem stepChecked_stepRaise {N : Num} {c : Coefs Word} {x : Word} {st : Cell Word} {i ch : Nat}
    {r : Raise} (h : stepChecked N c x st i ch = .error r) : stepRaise r :=
  bind_raises (fun _ h => require_raises h (.inr (.inl rfl))) (fun _ _ h =>
    bind_raises (fun _ h => require_raises h (.inr (.inr rfl))) (fun _ _ h => pure_raises h) h) h

theorem rstmValues_stepRaise {N : Num} {o : Order} {wy ws : Bool} {c : Coefs Word} {xa ch : Nat}
    {s : State} {r : Raise} (h : rstmValues N o wy ws c xa ch s = .error r) : stepRaise r :=
  bind_raises (fun _ h => memReadOrRaise_stepRaise h) (fun _ _ h =>
    bind_raises (fun _ h => bind_raises (fun _ h => require_raises h (.inr (.inl rfl)))
      (fun _ _ h => pure_raises h) h) (fun _ _ h =>
      bind_raises (fun _ h => require_raises h (.inr (.inr rfl))) (fun _ _ h =>
        bind_raises (fun _ h => require_raises h (.inr (.inr rfl)))
          (fun _ _ h => pure_raises h) h) h) h) h

/-- A batch command that faults has changed nothing yet, or faults at a step (R346). -/
theorem bodyOf_raised_at_step {i : Instr} (hb : isBatch i = true) {s t : State} {r : Raise}
    (h : bodyOf i s = .raised r t) : t = s ∨ stepRaise r := by
  have procn : ∀ {o}, procnBody o s = .raised r t → t = s ∨ stepRaise r := by
    intro o h
    unfold procnBody at h
    split at h
    · cases h; exact .inl rfl
    · exact .inr (repeatFrom_fault _ (fun j u v r _ _ hb =>
        bind_raises (fun _ h => memReadOrRaise_stepRaise h)
          (fun _ _ h => stepChecked_stepRaise h) (atOnce_raised hb).1) h)
  have rstm : ∀ {o wy ws}, rstmBody o wy ws s = .raised r t → t = s ∨ stepRaise r := by
    intro o wy ws h
    unfold rstmBody at h
    split at h
    · cases h; exact .inl rfl
    · split at h
      · cases h
      · split at h
        · cases h; exact .inl rfl
        · exact .inr (repeatFrom_fault _ (fun j u v r _ _ hb =>
            rstmValues_stepRaise (atOnce_raised hb).1) h)
  have procm : ∀ {o}, procmBody o s = .raised r t → t = s ∨ stepRaise r := by
    intro o h
    unfold procmBody at h
    split at h
    · cases h; exact .inl rfl
    · split at h
      · cases h
      · split at h
        · cases h; exact .inl rfl
        · refine .inr (repeatFrom_fault _ (fun j u v r _ _ hb => repeatFrom_fault _
            (fun k u v r _ _ hb => ?_) hb) h)
          unfold procmSample at hb
          exact bind_raises (fun _ h => memReadOrRaise_stepRaise h) (fun _ _ h =>
            bind_raises (fun _ h => memCell_stepRaise h)
              (fun _ _ h => stepChecked_stepRaise h) h) (atOnce_raised hb).1
  cases i with
  | procn1 => exact procn h
  | rstm1Y => exact rstm h
  | rstm1S => exact rstm h
  | rstm1Ys => exact rstm h
  | procm1 => exact procm h
  | procn2 => exact procn h
  | rstm2Y => exact rstm h
  | rstm2S => exact rstm h
  | rstm2Ys => exact rstm h
  | procm2 => exact procm h
  | _ => cases hb

/-- What the procedure of a command writes in memory is what the command writes: the fault entry
writes none (`60_exceptions.md` R344). -/
theorem exec_wrote {P : Nat → Word → Prop} {i : Instr} {s t : State} (h : exec i s = .next t)
    (hw : Wrote s.params.byteOrder P s.mem (bodyOf i s).state.mem) :
    Wrote s.params.byteOrder P s.mem t.mem := by
  rcases exec_cases i s with ⟨r, _, e⟩ | ⟨_, ⟨u, hb, e⟩ | ⟨r, u, hb, e⟩⟩ <;> rw [e] at h <;> cases h
  · exact .refl
  all_goals rw [hb] at hw; exact hw

/-- With no samples `PROCN` writes nothing (`44_engine_process.md` R304). -/
theorem procnBody_zero {o : Order} {s : State} (h : (s.reg .ns).toNat = 0) :
    (procnBody o s).state = s := by
  unfold procnBody
  split
  · rfl
  · rw [h]; rfl

end Sys2Proof.Machine
end

