-- ==== Sys2Proof/Laws/Design.lean ====
section
/-! SUPPORT. What the designers' shared parts answer (`40_designer_shared.md` R140 to R148, R155):
each check passes exactly in its domain, and the procedure ends as its checks, its prototype and the
result check say. -/

namespace Sys2Proof.Machine

/-! ### Domains -/

theorem within_iff {lo v hi : Word} : within lo v hi = true ↔ inDomain lo v hi := by
  simp [within, inDomain]

theorem within_false {lo v hi : Word} (h : ¬inDomain lo v hi) : within lo v hi = false :=
  Bool.eq_false_iff.mpr fun e => h (within_iff.mp e)

theorem checkFs_ok {fs : Word} {u : Unit} : checkFs fs = .ok u ↔
    F32.isFinite fs = true ∧ F32.lt F32.posZero fs = true := by
  simp [checkFs, require_eq_ok]

theorem checkFs_error {fs : Word}
    (h : ¬(F32.isFinite fs = true ∧ F32.lt F32.posZero fs = true)) :
    checkFs fs = .error (paramDomain 0) := by
  simp only [← Bool.and_eq_true, Bool.not_eq_true] at h
  simp [checkFs, h]

theorem checkFc_ok {fc : Word} {u : Unit} : checkFc fc = .ok u ↔ inDomain fMin fc fMax := by
  simp [checkFc, require_eq_ok, within_iff]

theorem checkFc_error {fc : Word} (h : ¬inDomain fMin fc fMax) :
    checkFc fc = .error (paramDomain 1) := by simp [checkFc, within_false h]

theorem checkFp_ok {pf : Bool} {fp : Word} {u : Unit} :
    checkFp pf fp = .ok u ↔ (pf = true → inDomain fMin fp fMax) := by
  cases pf <;> simp [checkFp, require_eq_ok, within_iff]

theorem checkFp_error {fp : Word} (h : ¬inDomain fMin fp fMax) :
    checkFp true fp = .error (paramDomain 2) := by simp [checkFp, within_false h]

theorem checkQ_ok {q : Word} {u : Unit} : checkQ q = .ok u ↔ inDomain qMin q qMax := by
  simp [checkQ, require_eq_ok, within_iff]

theorem checkQ_error {q : Word} (h : ¬inDomain qMin q qMax) :
    checkQ q = .error (paramDomain 3) := by simp [checkQ, within_false h]

theorem checkBw_ok {b : Word} {u : Unit} : checkBw b = .ok u ↔
    F32.isFinite b = true ∧ F32.lt F32.posZero b = true ∧ F32.le b bwMax = true := by
  simp [checkBw, require_eq_ok, and_assoc]

theorem checkBw_error {b : Word}
    (h : ¬(F32.isFinite b = true ∧ F32.lt F32.posZero b = true ∧ F32.le b bwMax = true)) :
    checkBw b = .error (paramDomain 4) := by
  rw [← and_assoc, ← Bool.and_eq_true, ← Bool.and_eq_true, Bool.not_eq_true] at h
  simp [checkBw, h]

theorem checkMixReg_ok {s : State} {r : Reg} {u : Unit} :
    checkMixReg s r = .ok u ↔ F32.isFinite (s.reg r) = true := by
  simp [checkMixReg, require_eq_ok]

theorem checkMixReg_error {s : State} {r : Reg} (h : F32.isFinite (s.reg r) = false) :
    checkMixReg s r = .error (paramDomain (regNum r).val) := by simp [checkMixReg, h]

theorem checkEffective_ok {fe : Word} {u : Unit} :
    checkEffective fe = .ok u ↔ inDomain fMin fe fMax := by
  simp [checkEffective, require_eq_ok, within_iff]

theorem checkEffective_error {fe : Word} (h : ¬inDomain fMin fe fMax) :
    checkEffective fe = .error (paramDomain 0x101) := by simp [checkEffective, within_false h]

theorem checkDerivedQ_ok {q : Word} {u : Unit} :
    checkDerivedQ q = .ok u ↔ inDomain qMin q qMax := by
  simp [checkDerivedQ, require_eq_ok, within_iff]

theorem checkDerivedQ_error {q : Word} (h : ¬inDomain qMin q qMax) :
    checkDerivedQ q = .error (paramDomain 0x102) := by simp [checkDerivedQ, within_false h]

/-! ### The gain (R146) -/

theorem gainIn_ok {s : State} {db : Bool} {g : Word} :
    gainIn s.num db (s.reg .gain) = .ok g ↔ linearGain s db g := by
  cases db
  · simp only [gainIn, Bool.false_eq_true, if_false, bind_eq_ok, require_eq_ok, within_iff,
      pure_eq_ok, Except.ok.injEq, linearGain, false_and, or_false, true_and]
    constructor
    · rintro ⟨_, h, rfl⟩; exact ⟨rfl, h⟩
    · rintro ⟨rfl, h⟩; exact ⟨(), h, rfl⟩
  · simp only [gainIn, if_true, bind_eq_ok, require_eq_ok, within_iff, pure_eq_ok,
      Except.ok.injEq, linearGain, Bool.true_eq_false, false_and, false_or, true_and]
    constructor
    · rintro ⟨_, h, _, h', rfl⟩; exact ⟨h, rfl, h'⟩
    · rintro ⟨h, rfl, h'⟩; exact ⟨(), h, (), h', rfl⟩

theorem gainIn_error_linear {N : Num} {g : Word} (h : ¬inDomain gMin g gMax) :
    gainIn N false g = .error (paramDomain 5) := by simp [gainIn, within_false h]

theorem gainIn_error_db {N : Num} {g : Word} (h : ¬inDomain dbMin g dbMax) :
    gainIn N true g = .error (paramDomain 5) := by simp [gainIn, within_false h]

theorem gainIn_error_converted {N : Num} {g : Word} (h : inDomain dbMin g dbMax)
    (h' : ¬inDomain gMin (N.dB2linF g) gMax) :
    gainIn N true g = .error (paramDomain 0x103) := by
  simp [gainIn, within_iff.mpr h, within_false h']

/-! ### The frequencies (R141 to R143) -/

theorem checkFrequencies_ok {pf : Bool} {s : State} {u : Unit} :
    checkFrequencies pf s = .ok u ↔ frequenciesOk pf s := by
  simp only [checkFrequencies, bind_eq_ok, checkFs_ok, checkFc_ok, checkFp_ok, frequenciesOk]
  constructor
  · rintro ⟨_, ⟨h1, h2⟩, _, h3, h4⟩; exact ⟨h1, h2, h3, h4⟩
  · rintro ⟨h1, h2, h3, h4⟩; exact ⟨(), ⟨h1, h2⟩, (), h3, h4⟩

/-! ### The procedure (R140, R155) -/

/-- The bilinear set of a first-order prototype at the state's frequencies. -/
def designed1 (pf : Bool) (s : State) (p : Proto1) : Coef1 Word :=
  bl1 s.num.toArith (warpOf pf p.fe s) p.beta1 p.beta0

/-- The bilinear set of a second-order prototype at the state's frequencies. -/
def designed2 (pf : Bool) (s : State) (p : Proto2) : Coef2 Word :=
  bl2 s.num.toArith (warpOf pf p.fe s) p.q p.alpha2 p.mu p.alpha0

/-- A first-order design succeeds exactly with frequencies, a prototype and a result that pass. -/
theorem design1_ok {pf : Bool} {proto : State → Except Raise Proto1} {s : State} {c : Coef1 Word} :
    design1 pf proto s = .ok c ↔ frequenciesOk pf s ∧ ∃ p, proto s = .ok p ∧
      c = designed1 pf s p ∧ coefsValid s.num (.first c) = true := by
  simp only [design1, bind_eq_ok, checkFrequencies_ok, require_eq_ok, pure_eq_ok,
    Except.ok.injEq]
  constructor
  · rintro ⟨_, h, p, hp, _, hv, rfl⟩; exact ⟨h, p, hp, rfl, hv⟩
  · rintro ⟨h, p, hp, rfl, hv⟩; exact ⟨(), h, p, hp, (), hv, rfl⟩

/-- A second-order design succeeds exactly with frequencies, a prototype and a result that pass. -/
theorem design2_ok {pf : Bool} {proto : State → Except Raise Proto2} {s : State} {c : Coef2 Word} :
    design2 pf proto s = .ok c ↔ frequenciesOk pf s ∧ ∃ p, proto s = .ok p ∧
      c = designed2 pf s p ∧ coefsValid s.num (.second c) = true := by
  simp only [design2, bind_eq_ok, checkFrequencies_ok, require_eq_ok, pure_eq_ok,
    Except.ok.injEq]
  constructor
  · rintro ⟨_, h, p, hp, _, hv, rfl⟩; exact ⟨h, p, hp, rfl, hv⟩
  · rintro ⟨h, p, hp, rfl, hv⟩; exact ⟨(), h, p, hp, (), hv, rfl⟩

/-- A frequency check that fails is the fault of a first-order design. -/
theorem design1_frequencies {pf : Bool} {proto : State → Except Raise Proto1} {s : State}
    {r : Raise} (h : checkFrequencies pf s = .error r) : design1 pf proto s = .error r := by
  simp [design1, h]

theorem design2_frequencies {pf : Bool} {proto : State → Except Raise Proto2} {s : State}
    {r : Raise} (h : checkFrequencies pf s = .error r) : design2 pf proto s = .error r := by
  simp [design2, h]

/-- With the frequencies in their domains, the prototype's fault is that of the design. -/
theorem design1_proto {pf : Bool} {proto : State → Except Raise Proto1} {s : State} {r : Raise}
    (hf : frequenciesOk pf s) (h : proto s = .error r) : design1 pf proto s = .error r := by
  simp [design1, checkFrequencies_ok (u := ()).mpr hf, h]

theorem design2_proto {pf : Bool} {proto : State → Except Raise Proto2} {s : State} {r : Raise}
    (hf : frequenciesOk pf s) (h : proto s = .error r) : design2 pf proto s = .error r := by
  simp [design2, checkFrequencies_ok (u := ()).mpr hf, h]

/-- With frequencies and a prototype that pass, the result check decides (R155). -/
theorem design1_result {pf : Bool} {proto : State → Except Raise Proto1} {s : State} {p : Proto1}
    (hf : frequenciesOk pf s) (h : proto s = .ok p) :
    design1 pf proto s = if coefsValid s.num (.first (designed1 pf s p)) = true
      then .ok (designed1 pf s p) else .error (raiseWith .designResult 0 0) := by
  simp only [design1, checkFrequencies_ok (u := ()).mpr hf, h, ok_bind, ← designed1.eq_1]
  cases coefsValid s.num (.first (designed1 pf s p)) <;> rfl

theorem design2_result {pf : Bool} {proto : State → Except Raise Proto2} {s : State} {p : Proto2}
    (hf : frequenciesOk pf s) (h : proto s = .ok p) :
    design2 pf proto s = if coefsValid s.num (.second (designed2 pf s p)) = true
      then .ok (designed2 pf s p) else .error (raiseWith .designResult 0 0) := by
  simp only [design2, checkFrequencies_ok (u := ()).mpr hf, h, ok_bind, ← designed2.eq_1]
  cases coefsValid s.num (.second (designed2 pf s p)) <;> rfl

/-! ### The commands -/

/-- What a first-order designer with its read set written does once its design is known. -/
theorem exec_design1 {i : Instr} {pf : Bool} {proto : State → Except Raise Proto1} {s : State}
    (hb : bodyOf i = designBody1 pf proto) (hw : allWritten s (readSet i)) :
    exec i s = .next (match design1 pf proto s with
      | .ok c => writeCoef1 c s
      | .error r => faultEntry r (encode i) s) := by
  rw [exec_of_written hw, hb, designBody1]
  cases design1 pf proto s <;> rfl

theorem exec_design2 {i : Instr} {pf : Bool} {proto : State → Except Raise Proto2} {s : State}
    (hb : bodyOf i = designBody2 pf proto) (hw : allWritten s (readSet i)) :
    exec i s = .next (match design2 pf proto s with
      | .ok c => writeCoef2 c s
      | .error r => faultEntry r (encode i) s) := by
  rw [exec_of_written hw, hb, designBody2]
  cases design2 pf proto s <;> rfl

/-- A first-order designer whose checks pass ends as the result check says. -/
theorem exec_design1_result {i : Instr} {pf : Bool} {proto : State → Except Raise Proto1}
    {s : State} {p : Proto1} (hb : bodyOf i = designBody1 pf proto)
    (hw : allWritten s (readSet i)) (hf : frequenciesOk pf s) (hp : proto s = .ok p)
    {c : Coef1 Word} (hc : c = designed1 pf s p) :
    (coefsValid s.num (.first c) = true → exec i s = .next (writeCoef1 c s)) ∧
    (coefsValid s.num (.first c) = false →
      exec i s = .next (faultEntry ⟨.designResult, 0, 0⟩ (encode i) s)) := by
  rw [exec_design1 hb hw, design1_result hf hp, ← hc]
  constructor <;> intro h <;> simp [h, raiseWith]

theorem exec_design2_result {i : Instr} {pf : Bool} {proto : State → Except Raise Proto2}
    {s : State} {p : Proto2} (hb : bodyOf i = designBody2 pf proto)
    (hw : allWritten s (readSet i)) (hf : frequenciesOk pf s) (hp : proto s = .ok p)
    {c : Coef2 Word} (hc : c = designed2 pf s p) :
    (coefsValid s.num (.second c) = true → exec i s = .next (writeCoef2 c s)) ∧
    (coefsValid s.num (.second c) = false →
      exec i s = .next (faultEntry ⟨.designResult, 0, 0⟩ (encode i) s)) := by
  rw [exec_design2 hb hw, design2_result hf hp, ← hc]
  constructor <;> intro h <;> simp [h, raiseWith]

/-- A first-order designer whose prototype raises faults so. -/
theorem exec_design1_proto {i : Instr} {pf : Bool} {proto : State → Except Raise Proto1}
    {s : State} {r : Raise} (hb : bodyOf i = designBody1 pf proto)
    (hw : allWritten s (readSet i)) (hf : frequenciesOk pf s) (hp : proto s = .error r) :
    exec i s = .next (faultEntry r (encode i) s) := by
  rw [exec_design1 hb hw, design1_proto hf hp]

theorem exec_design2_proto {i : Instr} {pf : Bool} {proto : State → Except Raise Proto2}
    {s : State} {r : Raise} (hb : bodyOf i = designBody2 pf proto)
    (hw : allWritten s (readSet i)) (hf : frequenciesOk pf s) (hp : proto s = .error r) :
    exec i s = .next (faultEntry r (encode i) s) := by
  rw [exec_design2 hb hw, design2_proto hf hp]

/-- Every designer is a first-order or a second-order one. -/
theorem bodyOf_designer {i : Instr} {pf : Bool} (h : designerPf i = some pf) :
    (∃ p, bodyOf i = designBody1 pf p ∧ writeSet i = coefRegs1) ∨
    (∃ p, bodyOf i = designBody2 pf p ∧ writeSet i = coefRegs2) := by
  cases i <;> cases h <;> first | exact .inl ⟨_, rfl, rfl⟩ | exact .inr ⟨_, rfl, rfl⟩

end Sys2Proof.Machine
end

