-- ==== Sys2Proof/Laws/Binary32.lean ====
section
/-! SUPPORT. Exact cases of the binary32 operations (`00_scope.md` R11) on a positive normal word `w`:
rounding its own value gives it back, `0 · w = 0`, `1 · w = w` and `0 + w = w`, with or without
`FTZ`. Every word in the range of `Q` is one (`40_designer_shared.md` R144). -/

namespace Sys2Proof.Machine.F32

/-- A positive normal word. -/
structure PosNormal (w : Word) : Prop where
  sign : isNeg w = false
  normal : 0x00800000 ≤ mag w
  finite : mag w < 0x7F800000

theorem toNat_of_not_isNeg {w : Word} (h : isNeg w = false) : w.toNat = mag w := by
  have hm : w.msb = false := (BitVec.msb_eq_getLsbD_last w).trans h
  rw [BitVec.msb_eq_false_iff_two_mul_lt] at hm
  unfold mag
  omega

theorem pack_mag {w : Word} (h : isNeg w = false) : pack false (mag w) = w := by
  apply BitVec.eq_of_toNat_eq
  have := toNat_of_not_isNeg h
  have := w.isLt
  simp only [pack, Bool.false_eq_true, if_false, BitVec.toNat_ofNat]
  omega

theorem shiftRne_shiftLeft (m d : Nat) : shiftRne (m <<< d) d = m := by
  have h : (m <<< d) % 2 ^ d = 0 := by rw [Nat.shiftLeft_eq]; exact Nat.mul_mod_left _ _
  have h0 : 2 ^ d ≠ 0 := by positivity
  simp [shiftRne, Nat.shiftLeft_shiftRight, h, h0.symm]

/-- The significand of a normal number, scaled by a power of two, rounds to its own bits. -/
theorem roundMag_normal {m d : Nat} {e : Int} (h1 : 2 ^ 23 ≤ m) (h2 : m < 2 ^ 24)
    (he : -149 ≤ e + d) (hb : (e + d + 149) * 2 ^ 23 + m < 0x7F800000) :
    (roundMag (m <<< d) e : Int) = (e + d + 149) * 2 ^ 23 + m := by
  have hm : m <<< d ≠ 0 := by
    rw [Nat.shiftLeft_eq]
    exact Nat.mul_ne_zero (by omega) (by positivity)
  have hl : (m <<< d).log2 = 23 + d := by
    rw [Nat.log2_eq_iff hm, Nat.shiftLeft_eq, Nat.pow_add, Nat.add_right_comm, Nat.pow_add]
    exact ⟨Nat.mul_le_mul_right _ h1, Nat.mul_lt_mul_of_pos_right h2 (by positivity)⟩
  have hq : max (((m <<< d).log2 : Int) + e - 23) (-149) = e + d := by rw [hl]; push_cast; omega
  unfold roundMag
  rw [if_neg hm]
  simp only [hq]
  rw [if_neg (by rw [hl]; push_cast; omega)]
  have hn : (if e + (d : Int) ≤ e then (m <<< d) <<< (e - (e + d)).toNat
      else shiftRne (m <<< d) (e + d - e).toNat) = m := by
    split
    · obtain rfl : d = 0 := by omega
      simp
    · rw [show (e + (d : Int) - e).toNat = d by omega, shiftRne_shiftLeft]
  rw [hn, if_neg (by omega)]
  omega

/-- What a positive normal word stands for. -/
theorem PosNormal.parts {w : Word} (h : PosNormal w) :
    2 ^ 23 ≤ signif w ∧ signif w < 2 ^ 24 ∧ -149 ≤ scale w ∧
    ((scale w + 149) * 2 ^ 23 + signif w : Int) = mag w := by
  have h1 := toNat_of_not_isNeg h.sign
  have h2 := h.normal
  have h3 := h.finite
  have h4 : expo w ≠ 0 := by unfold expo; omega
  have h5 : signif w = 2 ^ 23 + frac w := if_neg h4
  simp only [h5, scale, frac, expo, h1] at *
  omega

theorem PosNormal.round {w : Word} (h : PosNormal w) {d : Nat} {e : Int} (he : e + d = scale w) :
    round false (signif w <<< d) e = w := by
  obtain ⟨h1, h2, h3, h4⟩ := h.parts
  have h5 := h.finite
  have := roundMag_normal (d := d) (e := e) h1 h2 (by omega) (by rw [he, h4]; omega)
  rw [he, h4] at this
  rw [F32.round, Int.ofNat_inj.mp this, pack_mag h.sign]

theorem PosNormal.kinds {w : Word} (h : PosNormal w) :
    isNan w = false ∧ isInf w = false ∧ isZero w = false ∧ isSubnormal w = false := by
  have h2 := h.normal
  have h3 := h.finite
  simp [isNan, isInf, isZero, isSubnormal, expo]
  omega

theorem PosNormal.one_mul {w : Word} (h : PosNormal w) : mul one w = w := by
  obtain ⟨h1, h2, h3, -⟩ := h.kinds
  have hs : signif one * signif w = signif w <<< 23 := by
    rw [show signif one = 2 ^ 23 by decide, Nat.shiftLeft_eq, Nat.mul_comm]
  have := h.round (d := 23) (e := scale one + scale w) (by
    rw [show scale one = -23 by decide]; omega)
  rw [← hs] at this
  simpa [mul, h1, h2, h3, h.sign, show isNan one = false by decide, show isInf one = false by decide,
    show isNeg one = false by decide] using this

theorem PosNormal.zero_mul {w : Word} (h : PosNormal w) : mul posZero w = posZero := by
  obtain ⟨h1, h2, -, -⟩ := h.kinds
  simp only [mul, h1, h2, h.sign, show isNan posZero = false by decide,
    show isInf posZero = false by decide, show isNeg posZero = false by decide,
    show signif posZero = 0 by decide, Nat.zero_mul, F32.round, roundMag, if_true]
  rfl

theorem PosNormal.zero_add {w : Word} (h : PosNormal w) : add posZero w = w := by
  obtain ⟨h1, h2, h3, -⟩ := h.kinds
  obtain ⟨h5, h6, h7, h8⟩ := h.parts
  have he : Min.min (scale posZero) (scale w) = -149 := by
    rw [show scale posZero = -149 by decide]; omega
  have hz : scaled posZero (-149) = 0 := by decide
  have hw : scaled w (-149) = (signif w <<< (scale w + 149).toNat : Nat) := by
    simp [scaled, h.sign, sub_neg_eq_add]
  have hn : signif w <<< (scale w + 149).toNat ≠ 0 := by
    rw [Nat.shiftLeft_eq]; exact Nat.mul_ne_zero (by omega) (by positivity)
  have := h.round (d := (scale w + 149).toNat) (e := -149) (by omega)
  have ha : addFinite posZero w = w := by
    unfold addFinite
    simp only [he, hz, hw, Int.zero_add]
    rw [if_neg (by exact_mod_cast hn), decide_eq_false (Int.not_lt.mpr (Int.natCast_nonneg _)), Int.natAbs_natCast, this]
  simpa [add, h1, h2, show isNan posZero = false by decide, show isInf posZero = false by decide]
    using ha

theorem PosNormal.flush {w : Word} (h : PosNormal w) : flush w = w := by
  simp [F32.flush, h.kinds.2.2.2]

end Sys2Proof.Machine.F32

namespace Sys2Proof.Machine

theorem num_zero_mul (p : Params) {w : Word} (h : F32.PosNormal w) :
    (numOf p).mul F32.posZero w = F32.posZero := by
  show binaryOp p.ftz F32.mul _ _ = _
  cases p.ftz <;> simp only [binaryOp, if_true, Bool.false_eq_true, if_false, h.flush]
  · exact h.zero_mul
  · rw [show F32.flush F32.posZero = F32.posZero by decide, h.zero_mul]; decide

theorem num_one_mul (p : Params) {w : Word} (h : F32.PosNormal w) :
    (numOf p).mul F32.one w = w := by
  show binaryOp p.ftz F32.mul _ _ = _
  cases p.ftz <;> simp only [binaryOp, if_true, Bool.false_eq_true, if_false, h.flush]
  · exact h.one_mul
  · rw [show F32.flush F32.one = F32.one by decide, h.one_mul, h.flush]

theorem num_zero_add (p : Params) {w : Word} (h : F32.PosNormal w) :
    (numOf p).add F32.posZero w = w := by
  show binaryOp p.ftz F32.add _ _ = _
  cases p.ftz <;> simp only [binaryOp, if_true, Bool.false_eq_true, if_false, h.flush]
  · exact h.zero_add
  · rw [show F32.flush F32.posZero = F32.posZero by decide, h.zero_add, h.flush]

/-- Every word in the range of `Q` is a positive normal one. -/
theorem posNormal_of_q {q : Word} (h : inDomain qMin q qMax) : F32.PosNormal q := by
  obtain ⟨h1, h2⟩ := h
  simp only [F32.le, Bool.and_eq_true, decide_eq_true_eq,
    show F32.orderKey qMin = 0x358637BD by decide] at h1
  simp only [F32.le, Bool.and_eq_true, decide_eq_true_eq,
    show F32.orderKey qMax = 0x49742400 by decide] at h2
  cases hn : F32.isNeg q with
  | true => have := h1.2; simp only [F32.orderKey, hn, if_true] at this; omega
  | false =>
    simp only [F32.orderKey, hn, Bool.false_eq_true, if_false] at h1 h2
    exact ⟨hn, by omega, by omega⟩

end Sys2Proof.Machine
end

