-- ==== Sys2Proof/Laws/Encoding.lean ====
section
/-! SUPPORT. The decoder on encoded commands and on the fields of a word. -/

namespace Sys2Proof

/-- Decoding a command's word gives it back. -/
theorem decode_encode (i : Instr) : decode (encode i) = .ok i := by
  cases i <;> first | rfl | (rename_i pf; cases pf <;> rfl)

theorem encode_inj {i j : Instr} (h : encode i = encode j) : i = j := by
  have := decode_encode i
  rw [h, decode_encode] at this
  exact (Except.ok.inj this).symm

/-- A command's word is a command. -/
@[simp] theorem Machine.isCommand_encode (i : Instr) : Machine.isCommand (encode i) = true := by
  simp [Machine.isCommand, decode_encode, Except.toOption]

/-- Bit 13 and up of a word whose reserved field is 0 (`30_encoding.md` R100). -/
theorem getLsbD_of_reserved {w : Word} (h : w.extractLsb' 13 19 = 0#19) {j : Nat} (h1 : 13 ≤ j)
    (h2 : j < 32) : w.getLsbD j = false := by
  have hj := congrArg (fun v => v.getLsbD (j - 13)) h
  simp only [BitVec.getLsbD_extractLsb', BitVec.getLsbD_zero, Bool.and_eq_false_iff,
    decide_eq_false_iff_not] at hj
  rcases hj with hj | hj
  · omega
  · rwa [show 13 + (j - 13) = j by omega] at hj

/-- A word whose reserved field is 0 is the word of its fields. -/
theorem fieldsWord_wordFields {w : Word} (h : w.extractLsb' 13 19 = 0#19) :
    fieldsWord (Machine.wordFields w) = w := by
  apply BitVec.eq_of_getLsbD_eq
  intro i hi
  simp only [fieldsWord, Machine.wordFields, BitVec.getLsbD_append, BitVec.getLsbD_extractLsb',
    BitVec.getLsbD_ofBool]
  by_cases h13 : 13 ≤ i
  · rw [getLsbD_of_reserved h h13 hi]
    clear h
    interval_cases i <;> simp
  · have hi' : i < 13 := by omega
    interval_cases i <;> simp

/-- What the decoder accepts has its reserved field 0 and its command has the word's fields. -/
theorem decode_ok {w : Word} {i : Instr} (h : decode w = .ok i) :
    w.extractLsb' 13 19 = 0#19 ∧ instrFields i = Machine.wordFields w := by
  unfold decode at h
  split at h
  · cases h
  · rename_i h0
    refine ⟨by simpa using h0, ?_⟩
    simp only at h
    cases hk : kindOfOp (BitVec.extractLsb' 0 8 w).toNat with
    | none => rw [hk] at h; cases h
    | some k =>
      rw [hk] at h
      have hop : ∀ n, (BitVec.extractLsb' 0 8 w).toNat = n →
          BitVec.extractLsb' 0 8 w = BitVec.ofNat 8 n := by
        intro n hn
        rw [← hn]
        exact (BitVec.ofNat_toNat 8 _ ▸ (BitVec.setWidth_eq _).symm)
      unfold kindOfOp at hk
      split at hk <;> first | (cases hk; done) | skip
      all_goals
        rename_i hw
        have e := hop _ hw
        cases hk
        rw [hw] at h
        generalize h8 : w.getLsbD 8 = pf at h
        generalize h9 : w.getLsbD 9 = db at h
        generalize h10 : w.getLsbD 10 = bw at h
        generalize h11 : w.getLsbD 11 = wy at h
        generalize h12 : w.getLsbD 12 = ws at h
        simp only [Machine.wordFields, e, h8, h9, h10, h11, h12]
        clear e hw hop h0 h8 h9 h10 h11 h12
        revert h
        cases pf <;> cases db <;> cases bw <;> cases wy <;> cases ws <;> intro h <;>
          first | (cases h; done) | (cases h; rfl)

end Sys2Proof
end

