-- ==== Sys2Proof/Laws/Engine.lean ====
section
/-! SUPPORT. The loops of the batch commands, sample by sample: what stands in the registers and the
memory after the first iterations, and how a faulting iteration ends the loop
(`44_engine_process.md` R304, R307; `60_exceptions.md` R346). -/

namespace Sys2Proof.Machine

/-! ### Loops -/

/-- A loop whose iterations all complete, with what they establish. -/
theorem repeatFrom_done {P : Nat → State → Prop} {body : Nat → State → Ran} {i n : Nat} {s : State}
    (h0 : P i s)
    (hb : ∀ j t, i ≤ j → j < i + n → P j t → ∃ t', body j t = .done t' ∧ P (j + 1) t') :
    ∃ t, repeatFrom body i n s = .done t ∧ P (i + n) t := by
  induction n generalizing i s with
  | zero => exact ⟨s, rfl, h0⟩
  | succ n ih =>
    obtain ⟨t, h1, h2⟩ := hb i s (by omega) (by omega) h0
    obtain ⟨u, h3, h4⟩ := ih h2 fun j t h h' => hb j t (by omega) (by omega)
    exact ⟨u, by rw [repeatFrom, h1]; exact h3, by rwa [Nat.add_right_comm] at h4⟩

/-- A loop that stops in iteration `k`. -/
theorem repeatFrom_stops {body : Nat → State → Ran} {k n : Nat} {s t u : State} {r : Raise}
    (hk : k < n) (hd : repeatFrom body 0 k s = .done t) (hr : body k t = .raised r u) :
    repeatFrom body 0 n s = .raised r u := by
  obtain ⟨d, rfl⟩ : ∃ d, n = k + (d + 1) := ⟨n - k - 1, by omega⟩
  rw [repeatFrom_add, hd]
  simp [repeatFrom, hr]

/-! ### A channel's samples in order -/

/-- A channel run completes exactly when a sequence of state cells threads its samples, every input,
state and result finite (R300, R301). -/
theorem channelRun_trace {N : Num} {c : Coefs Word} {st st' : Cell Word} {xs ys : List Word} :
    channelRun N c st xs = some (ys, st') ↔ ys.length = xs.length ∧
      ∃ sts : Nat → Cell Word, sts 0 = st ∧ sts xs.length = st' ∧
        ∀ (j : Nat) (h : j < xs.length), F32.isFinite xs[j] = true ∧
          cellFinite (orderOf c) (sts j) = true ∧
          stepValues N c xs[j] (sts j) = (ys.getD j 0, sts (j + 1)) ∧
          F32.isFinite (ys.getD j 0) = true ∧ cellFinite (orderOf c) (sts (j + 1)) = true := by
  induction xs generalizing st ys with
  | nil =>
    simp only [channelRun, Option.some.injEq, Prod.mk.injEq, List.length_nil,
      List.length_eq_zero_iff]
    constructor
    · rintro ⟨rfl, rfl⟩; exact ⟨rfl, fun _ => st, rfl, rfl, fun j h => by cases h⟩
    · rintro ⟨rfl, sts, rfl, rfl, _⟩; exact ⟨rfl, rfl⟩
  | cons x xs ih =>
    simp only [channelRun, Bool.and_eq_true]
    constructor
    · intro h
      split at h
      · split at h
        · rename_i h1 h2
          obtain ⟨⟨ys', e⟩, h3, h4⟩ := Option.map_eq_some_iff.mp h
          simp only [Prod.mk.injEq] at h4
          obtain ⟨rfl, rfl⟩ := h4
          obtain ⟨hl, sts, e0, e1, hs⟩ := ih.mp h3
          refine ⟨by simp [hl], fun j => if j = 0 then st else sts (j - 1), rfl, by simpa using e1,
            fun j hj => ?_⟩
          cases j with
          | zero => simp [e0, h1, h2]
          | succ j =>
            have := hs j (by simpa using hj)
            cases j with
            | zero => simpa using this
            | succ j => simpa using this
        · cases h
      · cases h
    · rintro ⟨hl, sts, e0, e1, hs⟩
      cases ys with
      | nil => cases hl
      | cons y ys =>
        obtain ⟨h1, h2, h3, h4, h5⟩ := hs 0 (by simp)
        simp only [List.getElem_cons_zero, List.getD_cons_zero, Nat.zero_add] at h1 h3 h4 h5
        rw [e0] at h2 h3
        rw [if_pos ⟨h1, h2⟩, h3, if_pos ⟨h4, h5⟩, ih.mpr ⟨by simpa using hl,
          fun j => sts (j + 1), rfl, by simpa using e1, fun j hj => by
            exact hs (j + 1) (by simpa using hj)⟩]
        rfl

/-- The state after a channel run is finite. -/
theorem channelRun_finite {N : Num} {c : Coefs Word} {st st' : Cell Word} {xs ys : List Word}
    (h : cellFinite (orderOf c) st = true) (hr : channelRun N c st xs = some (ys, st')) :
    cellFinite (orderOf c) st' = true := by
  obtain ⟨_, sts, e0, e1, hs⟩ := channelRun_trace.mp hr
  rcases Nat.eq_zero_or_pos xs.length with h0 | h0
  · rw [← e1, h0, e0]; exact h
  · have := (hs (xs.length - 1) (by omega)).2.2.2.2
    rwa [Nat.sub_add_cancel h0, e1] at this

/-- A finite sample at which a channel run stops has a result that is not finite (R300, R301). -/
theorem stepChecked_of_run_none {N : Num} {c : Coefs Word} {st : Cell Word} {x : Word}
    (h1 : F32.isFinite x = true) (h2 : cellFinite (orderOf c) st = true)
    (h : channelRun N c st [x] = none) (i ch : Nat) :
    stepChecked N c x st i ch = .error (raiseWith .outputNonfinite i ch) := by
  simp only [channelRun, h1, h2, Bool.and_self, if_true] at h
  simp only [stepChecked, h1, h2, Bool.and_self, require_true, ok_bind]
  cases hh : (F32.isFinite (stepValues N c x st).1
    && cellFinite (orderOf c) (stepValues N c x st).2) with
  | true => rw [if_pos hh] at h; simp at h
  | false => rfl

/-- A run in memory agrees with a longer one where both hold. -/
theorem runHolds_getD {o : ByteOrder} {m : Memory} {a : Nat} {ws : List Word} :
    runHolds o m a ws ↔ ∀ j < ws.length, readWord o m (wordAddr a j) = some (ws.getD j 0) := by
  unfold runHolds
  constructor
  · intro h j hj; rw [h j hj, List.getD_eq_getElem _ _ hj]
  · intro h j hj; rw [h j hj, List.getD_eq_getElem _ _ hj]

/-! ### State cells in the registers -/

/-- The first order has no second state value; the model keeps it at 0 (R33). -/
def cellForm (o : Order) (st : Cell Word) : Prop := o = .first → st.s2 = F32.posZero

theorem cellForm_regCell (o : Order) (s : State) : cellForm o (regCell o s) := by
  intro h; subst h; rfl

theorem cellForm_stepValues {N : Num} {c : Coefs Word} {x : Word} {st : Cell Word}
    (h : cellForm (orderOf c) st) : cellForm (orderOf c) (stepValues N c x st).2 := by
  cases c with
  | first c => exact h
  | second c => intro e; cases e

theorem channelRun_form {N : Num} {c : Coefs Word} {st st' : Cell Word} {xs ys : List Word}
    (h : cellForm (orderOf c) st) (hr : channelRun N c st xs = some (ys, st')) :
    cellForm (orderOf c) st' := by
  obtain ⟨_, sts, e0, e1, hs⟩ := channelRun_trace.mp hr
  rw [← e1]
  have : ∀ j ≤ xs.length, cellForm (orderOf c) (sts j) := by
    intro j hj
    induction j with
    | zero => rw [e0]; exact h
    | succ j ih =>
      have h := cellForm_stepValues (N := N) (c := c) (x := xs[j]) (ih (by omega))
      rwa [(hs j (by omega)).2.2.1] at h
  exact this _ le_rfl

theorem regCell_setRegCell {o : Order} {st : Cell Word} (h : cellForm o st) (s : State) :
    regCell o (setRegCell o st s) = st := by
  cases o
  · simp [regCell, setRegCell, ← h rfl]
  · simp [regCell, setRegCell, reg_setReg_ne]

theorem setRegCell_setRegCell (o : Order) (st st' : Cell Word) (s : State) :
    setRegCell o st' (setRegCell o st s) = setRegCell o st' s := by
  cases o
  · simp [setRegCell, setReg_setReg]
  · simp only [setRegCell]
    rw [setReg_comm _ _ _ (by decide : Reg.s2 ≠ .s1), setReg_setReg, setReg_setReg]

/-- Writing a register's own value changes nothing once it is written. -/
theorem setReg_self {s : State} {r : Reg} (h : s.written r = true) : s.setReg r (s.reg r) = s := by
  have h1 : s.regs.set (regNum r) (s.reg r) = s.regs := Vector.set_getElem_self ..
  have h2 : s.wr.set (regNum r) true = s.wr := by
    rw [← h]; exact Vector.set_getElem_self ..
  simp [State.setReg, h1, h2]

theorem setRegCell_self {o : Order} {s : State} (h : ∀ r ∈ stateRegs o, s.written r = true) :
    setRegCell o (regCell o s) s = s := by
  cases o
  · exact setReg_self (h _ (by decide))
  · simp only [setRegCell, regCell]
    rw [setReg_self (h .s1 (by decide)), setReg_self (h .s2 (by decide))]

/-! ### The single-channel batch (R304) -/

/-- The checks of `PROCN` pass where its rule says so. -/
theorem procnCheck_of {o : Order} {s : State} (hv : coefsValid s.num (loadCoef o s) = true)
    (hc : cellFinite o (regCell o s) = true)
    (hr : (s.reg .ns).toNat ≠ 0 →
      runInMemory s (s.reg .xptr).toNat (s.reg .ns).toNat ∧
      runInMemory s (s.reg .yptr).toNat (s.reg .ns).toNat ∧
      sameOrApart (s.reg .xptr).toNat (s.reg .yptr).toNat (s.reg .ns).toNat) :
    procnCheck o s = .ok () := by
  simp only [procnCheck, bind_eq_ok, coefCheck, require_eq_ok, rangeCheck_ok, sameRuns,
    disjointRuns, Bool.or_eq_true, Bool.and_eq_true, beq_iff_eq, decide_eq_true_eq]
  by_cases h : (s.reg .ns).toNat = 0
  · exact ⟨(), hv, (), hc, (), .inl h, (), .inl h, by omega⟩
  · obtain ⟨h1, h2, h3⟩ := hr h
    refine ⟨(), hv, (), hc, (), .inr h1, (), .inr h2, ?_⟩
    unfold sameOrApart at h3
    rcases h3 with e | e | e
    · exact .inl ⟨e, trivial⟩
    · exact .inr (.inl (.inr e))
    · exact .inr (.inr e)

/-- Sample `i` of `PROCN` completes where its input is written and every value finite. -/
theorem procnSample_done {o : Order} {c : Coefs Word} {xa ya i : Nat} {s : State} {x y : Word}
    {st' : Cell Word} (ho : orderOf c = o) (hx : s.memRead (wordAddr xa i) = some x)
    (h1 : F32.isFinite x = true) (h2 : cellFinite o (regCell o s) = true)
    (hs : stepValues s.num c x (regCell o s) = (y, st')) (h3 : F32.isFinite y = true)
    (h4 : cellFinite o st' = true) :
    procnSample o c xa ya i s = .done (setRegCell o st' (s.memWrite (wordAddr ya i) y)) := by
  unfold procnSample
  rw [memReadOrRaise_ok.mpr hx, ok_bind, (stepChecked_ok (r := (y, st'))).mpr
    ⟨h1, by rw [ho]; exact h2, hs.symm, h3, by rw [ho]; exact h4⟩]
  rfl

/-- After the first samples of `PROCN` whose values are finite, their outputs stand in the output
run, the state registers hold the state after them, and every other byte is as before. -/
theorem procnLoop {o : Order} {c : Coefs Word} {xa ya n : Nat} {s : State} {xs ys : List Word}
    {st : Cell Word} (ho : orderOf c = o) (hw : ∀ r ∈ stateRegs o, s.written r = true)
    (hn : xs.length ≤ n) (ha : sameOrApart xa ya n) (hx : runHolds s.params.byteOrder s.mem xa xs)
    (hr : channelRun s.num c (regCell o s) xs = some (ys, st)) :
    ∃ m, repeatFrom (procnSample o c xa ya) 0 xs.length s
        = .done { setRegCell o st s with mem := m } ∧
      runHolds s.params.byteOrder m ya ys ∧
      ∀ a, ¬inRun ya xs.length a → readByte m a = readByte s.mem a := by
  obtain ⟨hl, sts, e0, e1, hs⟩ := channelRun_trace.mp hr
  have hform : ∀ j ≤ xs.length, cellForm o (sts j) := by
    intro j hj
    induction j with
    | zero => rw [e0]; exact cellForm_regCell o s
    | succ j ih =>
      have := (hs j (by omega)).2.2.1
      have h := cellForm_stepValues (N := s.num) (c := c) (x := xs[j]) (ho ▸ ih (by omega))
      rw [this] at h
      exact ho ▸ h
  obtain ⟨t, ht, m, rfl, h1, h2⟩ := repeatFrom_done (i := 0) (n := xs.length) (s := s)
    (body := procnSample o c xa ya)
    (P := fun j t => ∃ m, t = { setRegCell o (sts j) s with mem := m } ∧
      (∀ k < j, readWord s.params.byteOrder m (wordAddr ya k) = some (ys.getD k 0)) ∧
      ∀ a, ¬inRun ya j a → readByte m a = readByte s.mem a)
    ⟨s.mem, by rw [e0, setRegCell_self hw], by simp, by simp⟩
    (by
      rintro j t _ hj ⟨m, rfl, h1, h2⟩
      obtain ⟨f1, f2, f3, f4, f5⟩ := hs j (by omega)
      have hcell : regCell o { setRegCell o (sts j) s with mem := m } = sts j := by
        have := regCell_setRegCell (hform j (by omega)) s
        cases o <;> exact this
      have hread : State.memRead { setRegCell o (sts j) s with mem := m } (wordAddr xa j)
          = some xs[j] := by
        rw [← hx j (by omega)]
        show readWord (setRegCell o (sts j) s).params.byteOrder m _ = _
        rw [setRegCell_params]
        refine readWord_congr fun x hx1 hx2 => h2 x ?_
        unfold inRun
        unfold wordAddr at hx1 hx2
        unfold sameOrApart at ha
        omega
      have hnum : State.num { setRegCell o (sts j) s with mem := m } = s.num := by
        show numOf (setRegCell o (sts j) s).params = _
        rw [setRegCell_params]; rfl
      refine ⟨_, procnSample_done ho hread f1 (by rw [hcell, ← ho]; exact f2)
        (by rw [hcell, hnum]; exact f3) f4 (by rw [← ho]; exact f5),
        writeWord s.params.byteOrder m (wordAddr ya j) (ys.getD j 0), ?_, ?_, ?_⟩
      · rw [← setRegCell_setRegCell o (sts j) (sts (j + 1)) s]
        cases o <;> rfl
      · intro k hk
        by_cases e : k = j
        · subst e; rw [readWord_writeWord_same]
        · rw [readWord_writeWord_disjoint _ _ _ (by unfold wordAddr; omega)]
          exact h1 k (by omega)
      · intro a ha'
        rw [readByte_writeWord_outside _ _ _ (by unfold inRun at ha'; unfold wordAddr; omega)]
        exact h2 a (by unfold inRun at *; omega))
  rw [Nat.zero_add] at *
  exact ⟨m, by rw [ht, e1], runHolds_getD.mpr (by rw [hl]; exact h1), h2⟩

/-! ### State cells in memory -/

/-- The words of a cell that are read from memory (R80, R307). -/
theorem memCell_ok {o : Order} {s : State} {a ch : Nat} {st : Cell Word}
    (h : cellHolds s.params.byteOrder o s.mem a st) :
    ∃ st', memCell o s a ch = .ok st' ∧ st'.s1 = st.s1 ∧ (o = .second → st' = st) ∧
      cellForm o st' := by
  cases o
  · exact ⟨⟨st.s1, F32.posZero⟩, by simp [memCell, memReadOrRaise_ok.mpr h.1], rfl, by simp,
      fun _ => rfl⟩
  · exact ⟨st, by simp [memCell, memReadOrRaise_ok.mpr h.1, memReadOrRaise_ok.mpr (h.2 rfl)], rfl,
      fun _ => rfl, by intro h; cases h⟩

/-- The values of a step depend on the part of the cell that its order has (R300, R301). -/
theorem stepValues_congr {N : Num} {c : Coefs Word} {x : Word} {st st' : Cell Word}
    (h1 : st'.s1 = st.s1) (h2 : orderOf c = .second → st' = st) :
    (stepValues N c x st').1 = (stepValues N c x st).1 ∧
    (stepValues N c x st').2.s1 = (stepValues N c x st).2.s1 ∧
    (orderOf c = .second → (stepValues N c x st').2 = (stepValues N c x st).2) ∧
    cellFinite (orderOf c) st' = cellFinite (orderOf c) st := by
  cases c with
  | first c => simp [stepValues, h1, orderOf, cellFinite]
  | second c => simp [h2 rfl]

theorem cellFinite_congr {o : Order} {st st' : Cell Word} (h1 : st'.s1 = st.s1)
    (h2 : o = .second → st' = st) : cellFinite o st' = cellFinite o st := by
  cases o
  · simp [cellFinite, h1]
  · rw [h2 rfl]

/-- A cell written in memory is held there. -/
theorem cellHolds_setMemCell (o : Order) (a : Nat) (st : Cell Word) (s : State) :
    cellHolds s.params.byteOrder o (setMemCell o a st s).mem a st := by
  cases o
  · exact ⟨readWord_writeWord_same _ _ _ _, by intro h; cases h⟩
  · refine ⟨?_, fun _ => readWord_writeWord_same _ _ _ _⟩
    exact (readWord_writeWord_disjoint _ _ _ (.inl (by omega))).trans
      (readWord_writeWord_same _ _ _ _)

/-- A byte outside a written cell reads as before. -/
theorem readByte_setMemCell_outside {o : Order} {a x : Nat} (st : Cell Word) (s : State)
    (h : x < a ∨ a + 4 * orderWords o ≤ x) :
    readByte (setMemCell o a st s).mem x = readByte s.mem x := by
  cases o <;> simp only [orderWords] at h
  · exact readByte_writeWord_outside _ _ _ (by omega)
  · show readByte (writeWord _ _ _ _) _ = _
    rw [readByte_writeWord_outside _ _ _ (by omega)]
    exact readByte_writeWord_outside _ _ _ (by omega)

/-- A cell whose bytes are as before is held as before. -/
theorem cellHolds_of_bytes {bo : ByteOrder} {o : Order} {m m' : Memory} {a : Nat} {st : Cell Word}
    (h : cellHolds bo o m a st)
    (hb : ∀ x, a ≤ x → x < a + 4 * orderWords o → readByte m' x = readByte m x) :
    cellHolds bo o m' a st := by
  cases o <;> simp only [orderWords] at hb
  · exact ⟨by rw [readWord_congr fun x h1 h2 => hb x h1 (by omega)]; exact h.1,
      by intro h; cases h⟩
  · exact ⟨by rw [readWord_congr fun x h1 h2 => hb x h1 (by omega)]; exact h.1,
      fun _ => by rw [readWord_congr fun x h1 h2 => hb x (by omega) (by omega)]; exact h.2 rfl⟩

/-! ### The aliasing contract (`20_memory.md` R82 to R85) -/

theorem disjointRuns_iff {a n b k : Nat} (hn : n ≠ 0) (hk : k ≠ 0) :
    disjointRuns a (4 * n) b (4 * k) = true ↔ apart a n b k := by
  simp only [disjointRuns, Bool.or_eq_true, beq_iff_eq, decide_eq_true_eq, apart]
  omega

theorem same_or_disjoint_iff {a b n : Nat} :
    (sameRuns a (4 * n) b (4 * n) || disjointRuns a (4 * n) b (4 * n)) = true
      ↔ sameOrApart a b n := by
  simp only [sameRuns, disjointRuns, Bool.or_eq_true, Bool.and_eq_true, beq_iff_eq,
    decide_eq_true_eq, and_true, sameOrApart]
  omega

theorem sameOrApart_comm {a b n : Nat} : sameOrApart a b n ↔ sameOrApart b a n := by
  unfold sameOrApart; omega

theorem orderWords_mul_ne_zero {o : Order} {n : Nat} (h : n ≠ 0) : orderWords o * n ≠ 0 := by
  cases o <;> simp [orderWords, h]

/-- The alias check of a batched reset over a nonempty set of channels (R85). -/
theorem rstmAliasOk_iff {o : Order} {wy ws : Bool} {n xa ya sp : Nat} (hn : n ≠ 0) :
    rstmAliasOk o wy ws n xa ya sp = true ↔
      (wy = true → sameOrApart xa ya n) ∧ (ws = true → apart sp (orderWords o * n) xa n) ∧
      (wy = true → ws = true → apart sp (orderWords o * n) ya n) := by
  unfold rstmAliasOk
  have ho := orderWords_mul_ne_zero (o := o) hn
  rw [Bool.and_eq_true, Bool.and_eq_true, Bool.or_assoc, Bool.or_eq_true, same_or_disjoint_iff,
    sameOrApart_comm, Nat.mul_assoc, Bool.or_eq_true, Bool.or_eq_true, disjointRuns_iff ho hn,
    disjointRuns_iff ho hn]
  cases wy <;> cases ws <;> simp [and_assoc]

theorem allChannelsApart_iff {l : Nat} {runs : List (Nat × Nat)} :
    allChannelsApart l runs = true ↔ ∀ (i j : Nat) (hi : i < runs.length) (hj : j < runs.length),
      i ≠ j → channelsApart l runs[i] runs[j] = true := by
  induction runs with
  | nil => simp [allChannelsApart]
  | cons p rest ih =>
    simp only [allChannelsApart, Bool.and_eq_true, List.all_eq_true, ih]
    constructor
    · rintro ⟨h1, h2⟩ i j hi hj hij
      cases i with
      | zero =>
        cases j with
        | zero => exact absurd rfl hij
        | succ j => exact (h1 _ (List.getElem_mem _)).1
      | succ i =>
        cases j with
        | zero => exact (h1 _ (List.getElem_mem _)).2
        | succ j => exact h2 i j (by simpa using hi) (by simpa using hj) (by omega)
    · intro h
      refine ⟨fun q hq => ?_, fun i j hi hj hij => ?_⟩
      · obtain ⟨k, hk, rfl⟩ := List.mem_iff_getElem.mp hq
        exact ⟨h 0 (k + 1) (by simp) (by simpa using hk) (by omega),
          h (k + 1) 0 (by simpa using hk) (by simp) (by omega)⟩
      · exact h (i + 1) (j + 1) (by simpa using hi) (by simpa using hj) (by omega)

/-- The alias check of `PROCM` over a nonempty set of channels and samples (R84). -/
theorem procmAliasOk_iff {o : Order} {m n px py sp : Nat} {runs : List (Nat × Nat)} (hm : m ≠ 0)
    (hn : n ≠ 0) : procmAliasOk o m n px py sp runs = true ↔
      (∀ (i j : Nat) (hi : i < runs.length) (hj : j < runs.length), i ≠ j →
        apart runs[i].2 m runs[j].2 m ∧ apart runs[i].2 m runs[j].1 m) ∧
      (∀ p ∈ runs, sameOrApart p.2 p.1 m ∧ apart sp (orderWords o * n) p.1 m ∧
        apart sp (orderWords o * n) p.2 m ∧ apart px n p.2 m ∧ apart py n p.2 m) ∧
      apart px n sp (orderWords o * n) ∧ apart py n sp (orderWords o * n) := by
  have ho := orderWords_mul_ne_zero (o := o) hn
  have e : 4 * orderWords o * n = 4 * (orderWords o * n) := Nat.mul_assoc ..
  simp only [procmAliasOk, e, Bool.and_eq_true, allChannelsApart_iff, channelsApart,
    List.all_eq_true, same_or_disjoint_iff, disjointRuns_iff hm hm, disjointRuns_iff ho hm,
    disjointRuns_iff hn ho, disjointRuns_iff hn hm]
  constructor
  · rintro ⟨⟨⟨⟨⟨h1, h2⟩, h3⟩, h4⟩, h5⟩, h6⟩
    exact ⟨h1, fun p hp => ⟨h2 p hp, (h3 p hp).1, (h3 p hp).2, (h6 p hp).1, (h6 p hp).2⟩, h4, h5⟩
  · rintro ⟨h1, h2, h4, h5⟩
    exact ⟨⟨⟨⟨⟨h1, fun p hp => (h2 p hp).1⟩, fun p hp => ⟨(h2 p hp).2.1, (h2 p hp).2.2.1⟩⟩, h4⟩,
      h5⟩, fun p hp => ⟨(h2 p hp).2.2.2.1, (h2 p hp).2.2.2.2⟩⟩

/-! ### The batched reset (R277) -/

/-- After the first channels of a batched reset whose inputs and wanted results are finite, the
wanted outputs and cells stand in their arrays and every other byte is as before. -/
theorem rstmLoop {o : Order} {wy ws : Bool} {c : Coefs Word} {xa ya sp n : Nat} {s : State}
    {xs : List Word} (hn : xs.length ≤ n) (hy : wy = true → sameOrApart xa ya n)
    (hs : ws = true → apart sp (orderWords o * n) xa n)
    (hys : wy = true → ws = true → apart sp (orderWords o * n) ya n)
    (hx : runHolds s.params.byteOrder s.mem xa xs)
    (hf : ∀ x ∈ xs, F32.isFinite x = true ∧
      (wy = true → F32.isFinite (resetValues s.num c x).1 = true) ∧
      (ws = true → cellFinite o (resetValues s.num c x).2 = true)) :
    ∃ m, repeatFrom (rstmChannel o wy ws c xa ya sp) 0 xs.length s = .done { s with mem := m } ∧
      (wy = true → runHolds s.params.byteOrder m ya (xs.map fun x => (resetValues s.num c x).1)) ∧
      (ws = true → ∀ (k : Nat) (h : k < xs.length),
        cellHolds s.params.byteOrder o m (cellAddr (orderWords o) sp k)
          (resetValues s.num c xs[k]).2) ∧
      ∀ a, (wy = true → ¬inRun ya xs.length a) →
        (ws = true → ¬inRun sp (orderWords o * xs.length) a) → readByte m a = readByte s.mem a := by
  obtain ⟨t, ht, m, rfl, h1, h2, h3⟩ := repeatFrom_done (i := 0) (n := xs.length) (s := s)
    (body := rstmChannel o wy ws c xa ya sp)
    (P := fun j t => ∃ m, t = { s with mem := m } ∧
      (wy = true → ∀ k < j, readWord s.params.byteOrder m (wordAddr ya k)
        = some (resetValues s.num c (xs.getD k 0)).1) ∧
      (ws = true → ∀ k < j, cellHolds s.params.byteOrder o m (cellAddr (orderWords o) sp k)
        (resetValues s.num c (xs.getD k 0)).2) ∧
      ∀ a, (wy = true → ¬inRun ya j a) → (ws = true → ¬inRun sp (orderWords o * j) a) →
        readByte m a = readByte s.mem a)
    ⟨s.mem, rfl, by simp, by simp, by simp⟩
    (by
      rintro j t _ hj ⟨m, rfl, h1, h2, h3⟩
      have hj' : j < xs.length := by omega
      obtain ⟨f1, f2, f3⟩ := hf _ (List.getElem_mem hj')
      have hg : xs.getD j 0 = xs[j] := List.getD_eq_getElem _ _ hj'
      have hread : State.memRead { s with mem := m } (wordAddr xa j) = some xs[j] := by
        rw [← hx j hj']
        refine readWord_congr fun x hx1 hx2 => h3 x (fun hw => ?_) (fun hw => ?_)
        · have := hy hw
          unfold inRun
          unfold wordAddr at hx1 hx2
          unfold sameOrApart at this
          omega
        · have := hs hw
          unfold inRun
          unfold wordAddr at hx1 hx2
          unfold apart at this
          cases o <;> simp only [orderWords] at * <;> omega
      have hval : rstmValues s.num o wy ws c xa j { s with mem := m }
          = .ok (resetValues s.num c xs[j]) := by
        unfold rstmValues
        rw [memReadOrRaise_ok.mpr hread, ok_bind, resetChecked_ok.mpr ⟨f1, rfl⟩, ok_bind]
        cases wy <;> cases ws <;> simp_all
      -- the memory after the output, and after the cell
      have step : ∃ m1, (if wy then State.memWrite { s with mem := m } (wordAddr ya j)
            (resetValues s.num c xs[j]).1 else { s with mem := m }) = { s with mem := m1 } ∧
          (wy = true → ∀ k < j + 1, readWord s.params.byteOrder m1 (wordAddr ya k)
            = some (resetValues s.num c (xs.getD k 0)).1) ∧
          ∀ a, (wy = true → ¬inRun (wordAddr ya j) 1 a) → readByte m1 a = readByte m a := by
        cases wy
        · exact ⟨m, rfl, by simp, fun _ _ => rfl⟩
        · refine ⟨writeWord s.params.byteOrder m (wordAddr ya j) (resetValues s.num c xs[j]).1, rfl,
            fun _ k hk => ?_, fun a ha => ?_⟩
          · by_cases e : k = j
            · subst e; rw [readWord_writeWord_same, hg]
            · rw [readWord_writeWord_disjoint _ _ _ (by unfold wordAddr; omega)]
              exact h1 rfl k (by omega)
          · exact readByte_writeWord_outside _ _ _ (by have := ha rfl; unfold inRun at this; omega)
      obtain ⟨m1, e1, g1, g2⟩ := step
      have hdone : rstmChannel o wy ws c xa ya sp j { s with mem := m }
          = .done (if ws then setMemCell o (cellAddr (orderWords o) sp j) (resetValues s.num c xs[j]).2
              { s with mem := m1 } else { s with mem := m1 }) := by
        show atOnce (rstmValues s.num o wy ws c xa j _) _ _ = _
        rw [hval, atOnce_ok, rstmWrite, e1]
      refine ⟨_, hdone, ?_⟩
      cases ws
      · refine ⟨m1, rfl, g1, by simp, fun a ha _ => ?_⟩
        rw [g2 a fun hw => by have := ha hw; unfold inRun at *; unfold wordAddr; omega]
        exact h3 a (fun hw => by have := ha hw; unfold inRun at *; omega) (by simp)
      · have hsp := hs rfl
        refine ⟨(setMemCell o (cellAddr (orderWords o) sp j) (resetValues s.num c xs[j]).2
            { s with mem := m1 }).mem, by cases o <;> rfl, fun hw k hk => ?_, fun _ k hk => ?_,
            fun a ha1 ha2 => ?_⟩
        · rw [← g1 hw k hk]
          have := hys hw rfl
          unfold apart at this
          refine readWord_congr fun x hx1 hx2 => readByte_setMemCell_outside _ _ ?_
          unfold wordAddr at hx1 hx2; unfold cellAddr
          cases o <;> simp only [orderWords] at * <;> omega
        · by_cases e : k = j
          · subst e; rw [hg]; exact cellHolds_setMemCell o _ _ { s with mem := m1 }
          · refine cellHolds_of_bytes (h2 rfl k (by omega)) fun x hx1 hx2 => ?_
            rw [readByte_setMemCell_outside _ _ (by
              unfold cellAddr at *; cases o <;> simp only [orderWords] at * <;> omega)]
            refine g2 x fun hw => ?_
            have := hys hw rfl
            unfold apart at this; unfold inRun wordAddr; unfold cellAddr at *
            cases o <;> simp only [orderWords] at * <;> omega
        · rw [readByte_setMemCell_outside _ _ (by
            have := ha2 rfl; unfold inRun at this; unfold cellAddr
            cases o <;> simp only [orderWords] at * <;> omega)]
          show readByte m1 a = _
          rw [g2 a fun hw => by have := ha1 hw; unfold inRun at *; unfold wordAddr; omega]
          refine h3 a (fun hw => by have := ha1 hw; unfold inRun at *; omega) fun hw => ?_
          have := ha2 hw
          unfold inRun at *
          cases o <;> simp only [orderWords] at * <;> omega)
  rw [Nat.zero_add] at *
  refine ⟨m, ht, fun hw => ?_, fun hw k hk => ?_, h3⟩
  · intro j hj
    rw [List.length_map] at hj
    rw [h1 hw j hj, List.getElem_map, List.getD_eq_getElem _ _ hj]
  · have := h2 hw k hk
    rwa [List.getD_eq_getElem _ _ hk] at this

/-! ### The multi-channel batch (R307) -/

/-- What `cellHolds` says depends on the part of the cell that its order has. -/
theorem cellHolds_congr {bo : ByteOrder} {o : Order} {m : Memory} {a : Nat} {st st' : Cell Word}
    (h1 : st'.s1 = st.s1) (h2 : o = .second → st' = st) :
    cellHolds bo o m a st' ↔ cellHolds bo o m a st := by
  cases o
  · simp [cellHolds, h1]
  · rw [h2 rfl]

/-- The samples that channel `c` has done when sample `i` is done for the channels below `ch`. -/
def samplesDone (i ch c : Nat) : Nat := if c < ch then i + 1 else i

/-- What a `PROCM` leaves alone when sample `i` is done for the channels below `ch`: every byte outside
the outputs written and the cells of the channels stepped. -/
def procmFrame (o : Order) (m0 : Memory) (sp n : Nat) (yb : Nat → Nat) (i ch : Nat) (m : Memory) :
    Prop :=
  ∀ a, (∀ c < n, ¬inRun (yb c) (samplesDone i ch c) a) →
    (∀ c < n, samplesDone i ch c ≠ 0 → ¬inRun (cellAddr (orderWords o) sp c) (orderWords o) a) →
    readByte m a = readByte m0 a

/-- The memory of a `PROCM` when sample `i` is done for the channels below `ch`: the outputs, the cells
of the channels stepped, and every other byte as it was. -/
def procmAt (bo : ByteOrder) (o : Order) (m0 : Memory) (sp n : Nat) (yb : Nat → Nat)
    (ys : Nat → List Word) (sts : Nat → Nat → Cell Word) (i ch : Nat) (m : Memory) : Prop :=
  (∀ c < n, (∀ k < samplesDone i ch c, readWord bo m (wordAddr (yb c) k) = some ((ys c).getD k 0)) ∧
    (samplesDone i ch c ≠ 0 →
      cellHolds bo o m (cellAddr (orderWords o) sp c) (sts c (samplesDone i ch c)))) ∧
  procmFrame o m0 sp n yb i ch m

/-- The aliasing conditions that `PROCM`'s samples rely on (`20_memory.md` R84). -/
structure ProcmApart (o : Order) (sp m n : Nat) (xb yb : Nat → Nat) : Prop where
  channels : ∀ c < n, ∀ c' < n, c ≠ c' →
    apart (yb c) m (yb c') m ∧ apart (yb c) m (xb c') m
  own : ∀ c < n, sameOrApart (yb c) (xb c) m
  cells : ∀ c < n, apart sp (orderWords o * n) (xb c) m ∧ apart sp (orderWords o * n) (yb c) m

/-- The input of sample `i` of channel `ch` still has its first contents when it is read. -/
theorem procmFrame_input {bo : ByteOrder} {o : Order} {m0 mem : Memory} {sp m n : Nat}
    {xb yb : Nat → Nat} {i ch : Nat} (ha : ProcmApart o sp m n xb yb) (hi : i < m) (hch : ch < n)
    (h : procmFrame o m0 sp n yb i ch mem) :
    readWord bo mem (wordAddr (xb ch) i) = readWord bo m0 (wordAddr (xb ch) i) := by
  refine readWord_congr fun x hx1 hx2 => h x (fun c hc => ?_) fun c hc _ => ?_
  · unfold wordAddr at hx1 hx2
    by_cases e : c = ch
    · subst e
      have := ha.own c hc
      unfold sameOrApart at this; unfold inRun samplesDone
      rw [if_neg (by omega)]; omega
    · have := (ha.channels c hc ch hch e).2
      unfold apart at this; unfold inRun samplesDone
      split <;> omega
  · have := (ha.cells ch hch).1
    unfold apart at this; unfold inRun cellAddr; unfold wordAddr at hx1 hx2
    cases o <;> simp only [orderWords] at * <;> omega

/-- The cell of a channel that has done no sample still has its first contents. -/
theorem procmFrame_cell {o : Order} {m0 mem : Memory} {sp m n : Nat} {xb yb : Nat → Nat}
    {i ch d : Nat} (ha : ProcmApart o sp m n xb yb) (hi : i < m) (hd : d < n)
    (h0 : samplesDone i ch d = 0) (h : procmFrame o m0 sp n yb i ch mem) {x : Nat}
    (hx1 : cellAddr (orderWords o) sp d ≤ x)
    (hx2 : x < cellAddr (orderWords o) sp d + 4 * orderWords o) : readByte mem x = readByte m0 x := by
  refine h x (fun c hc => ?_) fun c hc h1 => ?_
  · have := (ha.cells c hc).2
    unfold apart at this; unfold inRun samplesDone; unfold cellAddr at hx1 hx2
    cases o <;> simp only [orderWords] at * <;> split <;> omega
  · have : c ≠ d := fun e => h1 (e ▸ h0)
    unfold inRun; unfold cellAddr at *
    cases o <;> simp only [orderWords] at * <;> omega

/-- The cell that sample `i` of channel `ch` reads: the first contents at sample 0. -/
theorem procmAt_cell {bo : ByteOrder} {o : Order} {m0 mem : Memory} {sp m n : Nat}
    {xb yb : Nat → Nat} {ys : Nat → List Word} {sts : Nat → Nat → Cell Word} {i ch : Nat}
    (ha : ProcmApart o sp m n xb yb) (hi : i < m) (hch : ch < n)
    (hc : cellHolds bo o m0 (cellAddr (orderWords o) sp ch) (sts ch 0))
    (h : procmAt bo o m0 sp n yb ys sts i ch mem) :
    cellHolds bo o mem (cellAddr (orderWords o) sp ch) (sts ch i) := by
  have e : samplesDone i ch ch = i := by simp [samplesDone]
  by_cases h0 : i = 0
  · subst h0
    exact cellHolds_of_bytes hc fun x => procmFrame_cell ha hi hch e h.2
  · have := (h.1 ch hch).2 (by rw [e]; exact h0)
    rwa [e] at this

/-- One sample of one channel: the step of the trace is done and recorded. -/
theorem procmAt_step {o : Order} {c : Coefs Word} {m0 mem : Memory} {sp m n : Nat} {s : State}
    {xb yb : Nat → Nat} {ys : Nat → List Word} {sts : Nat → Nat → Cell Word} {i ch : Nat} {x : Word}
    {runs : List (Nat × Nat)} (ho : orderOf c = o) (ha : ProcmApart o sp m n xb yb) (hi : i < m)
    (hch : ch < n) (hrun : runs.getD ch (0, 0) = (xb ch, yb ch))
    (hx : readWord s.params.byteOrder m0 (wordAddr (xb ch) i) = some x)
    (hc : cellHolds s.params.byteOrder o m0 (cellAddr (orderWords o) sp ch) (sts ch 0))
    (hxf : F32.isFinite x = true) (hsf : cellFinite o (sts ch i) = true)
    (hs : stepValues s.num c x (sts ch i) = ((ys ch).getD i 0, sts ch (i + 1)))
    (hyf : F32.isFinite ((ys ch).getD i 0) = true) (htf : cellFinite o (sts ch (i + 1)) = true)
    (h : procmAt s.params.byteOrder o m0 sp n yb ys sts i ch mem) :
    ∃ mem', procmSample o c sp runs i ch { s with mem := mem } = .done { s with mem := mem' } ∧
      procmAt s.params.byteOrder o m0 sp n yb ys sts i (ch + 1) mem' := by
  have hown : samplesDone i ch ch = i := by simp [samplesDone]
  have hown' : samplesDone i (ch + 1) ch = i + 1 := by simp [samplesDone]
  have hoth : ∀ d, d ≠ ch → samplesDone i (ch + 1) d = samplesDone i ch d := by
    intro d hd; unfold samplesDone; split <;> split <;> omega
  have hread : State.memRead { s with mem := mem } (wordAddr (xb ch) i) = some x :=
    (procmFrame_input ha hi hch h.2).trans hx
  obtain ⟨cell, hcell, c1, c2, -⟩ := memCell_ok (s := { s with mem := mem })
    (a := cellAddr (orderWords o) sp ch) (ch := ch) (procmAt_cell ha hi hch hc h)
  obtain ⟨v1, v2, v3, v4⟩ := stepValues_congr (N := s.num) (c := c) (x := x) c1 (ho ▸ c2)
  rw [hs] at v1 v2 v3
  have f1 : cellFinite (orderOf c) cell = true := by rw [v4, ho]; exact hsf
  have f2 : F32.isFinite (stepValues s.num c x cell).1 = true := by rw [v1]; exact hyf
  have f3 : cellFinite (orderOf c) (stepValues s.num c x cell).2 = true := by
    rw [cellFinite_congr v2 v3, ho]; exact htf
  have hval : procmValues o c sp (xb ch) i ch { s with mem := mem }
      = .ok (stepValues s.num c x cell) := by
    unfold procmValues
    rw [memReadOrRaise_ok.mpr hread, ok_bind, hcell, ok_bind]
    exact stepChecked_ok.mpr ⟨hxf, f1, rfl, f2, f3⟩
  obtain ⟨mw, hmw⟩ : ∃ mw, mw = writeWord s.params.byteOrder mem (wordAddr (yb ch) i)
    (stepValues s.num c x cell).1 := ⟨_, rfl⟩
  refine ⟨(setMemCell o (cellAddr (orderWords o) sp ch) (stepValues s.num c x cell).2
    { s with mem := mw }).mem, ?_, ?_⟩
  · have hgo : procmSample o c sp runs i ch { s with mem := mem }
        = atOnce (procmValues o c sp (runs.getD ch (0, 0)).1 i ch { s with mem := mem })
          (fun r t => setMemCell o (cellAddr (orderWords o) sp ch) r.2
            (t.memWrite (wordAddr (runs.getD ch (0, 0)).2 i) r.1)) { s with mem := mem } := rfl
    rw [hgo, hrun, hval, atOnce_ok, hmw]
    cases o <;> rfl
  · have hsp := ha.cells
    have cellIn : ∀ d < n, ∀ y, ¬inRun sp (orderWords o * n) y →
        y < cellAddr (orderWords o) sp d ∨ cellAddr (orderWords o) sp d + 4 * orderWords o ≤ y := by
      intro d hd y h1
      unfold inRun at h1; unfold cellAddr
      cases o <;> simp only [orderWords] at * <;> omega
    have outIn : ∀ d < n, ∀ k < m, ∀ y, inRun sp (orderWords o * n) y →
        y < wordAddr (yb d) k ∨ wordAddr (yb d) k + 4 ≤ y := by
      intro d hd k hk y h1
      have := (hsp d hd).2
      unfold apart at this; unfold inRun at h1; unfold wordAddr
      cases o <;> simp only [orderWords] at * <;> omega
    have bound : ∀ d, samplesDone i (ch + 1) d ≤ m := by
      intro d; unfold samplesDone; split <;> omega
    refine ⟨fun d hd => ⟨fun k hk => ?_, fun hz => ?_⟩, fun a h1 h2 => ?_⟩
    · have hk' : k < m := by have := bound d; omega
      rw [readWord_congr (m := mw) fun y h1 h2 => readByte_setMemCell_outside _ _ (by
          refine cellIn ch hch y fun h3 => ?_
          have := outIn d hd k hk' y h3
          omega), hmw]
      by_cases e : d = ch
      · subst e
        by_cases e : k = i
        · subst e; rw [readWord_writeWord_same, v1]
        · rw [readWord_writeWord_disjoint _ _ _ (by unfold wordAddr; omega)]
          exact (h.1 d hd).1 k (by rw [hown]; rw [hown'] at hk; omega)
      · rw [readWord_writeWord_disjoint _ _ _ (by
          have := (ha.channels d hd ch hch e).1
          unfold apart at this; unfold wordAddr; omega)]
        exact (h.1 d hd).1 k (by rwa [hoth d e] at hk)
    · by_cases e : d = ch
      · subst e
        rw [hown', ← cellHolds_congr v2 (ho ▸ v3)]
        exact cellHolds_setMemCell o _ _ { s with mem := mw }
      · rw [hoth d e] at hz ⊢
        refine cellHolds_of_bytes ((h.1 d hd).2 hz) fun y h1 h2 => ?_
        rw [readByte_setMemCell_outside _ _ (by
          unfold cellAddr at *
          have : d < ch ∨ ch < d := by omega
          cases o <;> simp only [orderWords] at * <;> omega), hmw]
        exact readByte_writeWord_outside _ _ _ (by
          by_cases h3 : inRun sp (orderWords o * n) y
          · exact outIn ch hch i hi y h3
          · have := cellIn d hd y h3
            omega)
    · rw [readByte_setMemCell_outside _ _ (by
        have := h2 ch hch (by omega); unfold inRun at this; omega), hmw,
        readByte_writeWord_outside _ _ _ (by
        have := h1 ch hch; rw [hown'] at this; unfold inRun at this; unfold wordAddr; omega)]
      refine h.2 a (fun d hd => ?_) fun d hd hz => h2 d hd ?_
      · have := h1 d hd
        by_cases e : d = ch
        · subst e; rw [hown'] at this; rw [hown]; unfold inRun at *; omega
        · rwa [hoth d e] at this
      · by_cases e : d = ch
        · subst e; omega
        · rwa [hoth d e]

/-- After `i` samples of every channel and one more of the channels below `ch`, whose values are
finite, their outputs and the cells of the channels stepped stand in memory and every other byte is
as before. A channel not yet stepped needs no cell. The two loops are given as they run, so that a
fault at that sample ends them there. -/
theorem procmLoop {o : Order} {c : Coefs Word} {sp m n i ch : Nat} {s : State} {xb yb : Nat → Nat}
    {xs ys : Nat → List Word} {st st' : Nat → Cell Word} {runs : List (Nat × Nat)}
    (ho : orderOf c = o) (ha : ProcmApart o sp m n xb yb)
    (hruns : ∀ d < n, runs.getD d (0, 0) = (xb d, yb d)) (hi : i ≤ m) (hi' : ch ≠ 0 → i < m)
    (hch : ch ≤ n)
    (hd : ∀ d < n, (xs d).length = samplesDone i ch d ∧
      runHolds s.params.byteOrder s.mem (xb d) (xs d) ∧
      (samplesDone i ch d ≠ 0 →
        cellHolds s.params.byteOrder o s.mem (cellAddr (orderWords o) sp d) (st d)) ∧
      channelRun s.num c (st d) (xs d) = some (ys d, st' d)) :
    ∃ m1 m2, repeatFrom (fun j t => repeatFrom (procmSample o c sp runs j) 0 n t) 0 i s
        = .done { s with mem := m1 } ∧
      repeatFrom (procmSample o c sp runs i) 0 ch { s with mem := m1 }
        = .done { s with mem := m2 } ∧
      (∀ d < n, runHolds s.params.byteOrder m2 (yb d) (ys d) ∧
        (samplesDone i ch d ≠ 0 →
          cellHolds s.params.byteOrder o m2 (cellAddr (orderWords o) sp d) (st' d))) ∧
      procmFrame o s.mem sp n yb i ch m2 := by
  have htr : ∀ d, ∃ f : Nat → Cell Word, d < n → f 0 = st d ∧ f (samplesDone i ch d) = st' d ∧
      ∀ (j : Nat) (h : j < (xs d).length), F32.isFinite (xs d)[j] = true ∧
        cellFinite o (f j) = true ∧
        stepValues s.num c (xs d)[j] (f j) = ((ys d).getD j 0, f (j + 1)) ∧
        F32.isFinite ((ys d).getD j 0) = true ∧ cellFinite o (f (j + 1)) = true := by
    intro d
    by_cases h : d < n
    · obtain ⟨h1, _, _, h4⟩ := hd d h
      obtain ⟨_, f, e0, e1, hf⟩ := channelRun_trace.mp h4
      rw [ho] at hf
      exact ⟨f, fun _ => ⟨e0, h1 ▸ e1, hf⟩⟩
    · exact ⟨fun _ => st d, fun h' => absurd h' h⟩
  choose sts hsts using htr
  have inner : ∀ j k mem, j < m → k ≤ n → (∀ d < k, j < (xs d).length) →
      procmAt s.params.byteOrder o s.mem sp n yb ys sts j 0 mem →
      ∃ mem', repeatFrom (procmSample o c sp runs j) 0 k { s with mem := mem }
          = .done { s with mem := mem' } ∧
        procmAt s.params.byteOrder o s.mem sp n yb ys sts j k mem' := by
    intro j k mem hj hk hl h0
    obtain ⟨t, ht, mem', rfl, h⟩ := repeatFrom_done (i := 0) (n := k) (s := { s with mem := mem })
      (body := procmSample o c sp runs j)
      (P := fun d t => ∃ mem', t = { s with mem := mem' } ∧
        procmAt s.params.byteOrder o s.mem sp n yb ys sts j d mem')
      ⟨mem, rfl, h0⟩
      (by
        rintro d t _ hdk ⟨mem1, rfl, h1⟩
        have hjl := hl d (by omega)
        obtain ⟨f1, f2, f3, f4, f5⟩ := (hsts d (by omega)).2.2 j hjl
        obtain ⟨mem2, e, h2⟩ := procmAt_step ho ha hj (by omega) (hruns d (by omega))
          ((hd d (by omega)).2.1 j hjl) (by
            have h := hd d (by omega)
            rw [(hsts d (by omega)).1]
            exact h.2.2.1 (by rw [← h.1]; omega)) f1 f2 f3 f4 f5 h1
        exact ⟨_, e, mem2, rfl, h2⟩)
    rw [Nat.zero_add] at h
    exact ⟨mem', ht, h⟩
  have next : ∀ j mem, procmAt s.params.byteOrder o s.mem sp n yb ys sts j n mem →
      procmAt s.params.byteOrder o s.mem sp n yb ys sts (j + 1) 0 mem := by
    intro j mem h
    have e : ∀ d < n, samplesDone (j + 1) 0 d = samplesDone j n d := by
      intro d hd; simp [samplesDone, hd]
    exact ⟨fun d hd => by rw [e d hd]; exact h.1 d hd,
      fun a h1 h2 => h.2 a (fun d hd => by rw [← e d hd]; exact h1 d hd)
        fun d hd hz => h2 d hd (by rwa [e d hd])⟩
  have hlen : ∀ d < n, i ≤ (xs d).length := by
    intro d h; rw [(hd d h).1]; unfold samplesDone; split <;> omega
  obtain ⟨t, ht, m1, rfl, h1⟩ := repeatFrom_done (i := 0) (n := i) (s := s)
    (body := fun j t => repeatFrom (procmSample o c sp runs j) 0 n t)
    (P := fun j t => ∃ mem, t = { s with mem := mem } ∧
      procmAt s.params.byteOrder o s.mem sp n yb ys sts j 0 mem)
    ⟨s.mem, rfl, fun d h => ⟨by simp [samplesDone], by simp [samplesDone]⟩, fun _ _ _ => rfl⟩
    (by
      rintro j t _ hj ⟨mem, rfl, h⟩
      obtain ⟨mem', e, h'⟩ := inner j n mem (by omega) le_rfl
        (fun d h => by have := hlen d h; omega) h
      exact ⟨_, e, mem', rfl, next j mem' h'⟩)
  rw [Nat.zero_add] at h1
  have last : ∃ m2, repeatFrom (procmSample o c sp runs i) 0 ch { s with mem := m1 }
      = .done { s with mem := m2 } ∧
      procmAt s.params.byteOrder o s.mem sp n yb ys sts i ch m2 := by
    by_cases e : ch = 0
    · subst e; exact ⟨m1, rfl, h1⟩
    · exact inner i ch m1 (hi' e) hch (fun d h => by
        rw [(hd d (by omega)).1]; simp [samplesDone, h]) h1
  obtain ⟨m2, e2, h2⟩ := last
  refine ⟨m1, m2, ht, e2, fun d h => ⟨runHolds_getD.mpr fun k hk => ?_, ?_⟩, h2.2⟩
  · have hl : (ys d).length = (xs d).length := (channelRun_trace.mp (hd d h).2.2.2).1
    exact (h2.1 d h).1 k (by rw [← (hd d h).1, ← hl]; exact hk)
  · rw [← (hsts d h).2.1]; exact (h2.1 d h).2

/-! ### Completed loops, read backwards -/

/-- What every completed iteration keeps holds after a completed loop. -/
theorem repeatFrom_inv {P : Nat → State → Prop} {body : Nat → State → Ran} {i n : Nat}
    {s t : State} (h0 : P i s)
    (hb : ∀ j u v, i ≤ j → j < i + n → P j u → body j u = .done v → P (j + 1) v)
    (h : repeatFrom body i n s = .done t) : P (i + n) t := by
  induction n generalizing i s with
  | zero => simp at h; subst h; exact h0
  | succ n ih =>
    unfold repeatFrom at h
    cases e : body i s with
    | done u =>
      rw [e] at h
      have := ih (hb i s u le_rfl (by omega) h0 e)
        (fun j u v h1 h2 => hb j u v (by omega) (by omega)) h
      rwa [Nat.add_right_comm] at this
    | raised r u => rw [e] at h; cases h

/-- A channel run goes on with one more finite sample (R300, R301). -/
theorem channelRun_snoc {N : Num} {c : Coefs Word} {x : Word} {xs ys : List Word}
    {st st' : Cell Word} (h : channelRun N c st xs = some (ys, st')) (h1 : F32.isFinite x = true)
    (h2 : cellFinite (orderOf c) st' = true) (h3 : F32.isFinite (stepValues N c x st').1 = true)
    (h4 : cellFinite (orderOf c) (stepValues N c x st').2 = true) :
    channelRun N c st (xs ++ [x])
      = some (ys ++ [(stepValues N c x st').1], (stepValues N c x st').2) := by
  induction xs generalizing st ys with
  | nil =>
    simp only [channelRun, Option.some.injEq, Prod.mk.injEq] at h
    obtain ⟨rfl, rfl⟩ := h
    simp [channelRun, h1, h2, h3, h4]
  | cons a xs ih =>
    simp only [channelRun, List.cons_append] at h ⊢
    split at h
    · rename_i e; rw [if_pos e]
      split at h
      · rename_i e'; rw [if_pos e']
        obtain ⟨⟨ys', z⟩, h5, h6⟩ := Option.map_eq_some_iff.mp h
        simp only [Prod.mk.injEq] at h6
        obtain ⟨rfl, rfl⟩ := h6
        rw [ih h5]; rfl
      · cases h
    · cases h

/-- A channel run depends on the part of the cell that its order has (R300, R301). -/
theorem channelRun_congr {N : Num} {c : Coefs Word} {xs ys : List Word} {st st1 st' : Cell Word}
    (c1 : st1.s1 = st.s1) (c2 : orderOf c = .second → st1 = st)
    (h : channelRun N c st xs = some (ys, st')) :
    ∃ st2, channelRun N c st1 xs = some (ys, st2) ∧ st2.s1 = st'.s1 ∧
      (orderOf c = .second → st2 = st') := by
  induction xs generalizing st st1 ys with
  | nil =>
    simp only [channelRun, Option.some.injEq, Prod.mk.injEq] at h ⊢
    obtain ⟨rfl, rfl⟩ := h
    exact ⟨st1, ⟨rfl, rfl⟩, c1, c2⟩
  | cons x xs ih =>
    obtain ⟨v1, v2, v3, v4⟩ := stepValues_congr (N := N) (c := c) (x := x) c1 c2
    simp only [channelRun] at h ⊢
    rw [v1, v4, cellFinite_congr v2 v3]
    split at h
    · rename_i e; rw [if_pos e]
      split at h
      · rename_i e'; rw [if_pos e']
        obtain ⟨⟨ys', z⟩, h5, h6⟩ := Option.map_eq_some_iff.mp h
        simp only [Prod.mk.injEq] at h6
        obtain ⟨rfl, rfl⟩ := h6
        obtain ⟨st2, q1, q2, q3⟩ := ih v2 v3 h5
        exact ⟨st2, by rw [q1]; rfl, q2, q3⟩
      · cases h
    · cases h

/-- What a completed sample of `PROCM` read, computed and wrote (R307). -/
theorem procmSample_inv {o : Order} {c : Coefs Word} {sp i ch : Nat} {runs : List (Nat × Nat)}
    {u v : State} (h : procmSample o c sp runs i ch u = .done v) :
    ∃ x cell, u.memRead (wordAddr (runs.getD ch (0, 0)).1 i) = some x ∧
      memCell o u (cellAddr (orderWords o) sp ch) ch = .ok cell ∧ F32.isFinite x = true ∧
      cellFinite (orderOf c) cell = true ∧ F32.isFinite (stepValues u.num c x cell).1 = true ∧
      cellFinite (orderOf c) (stepValues u.num c x cell).2 = true ∧
      v = setMemCell o (cellAddr (orderWords o) sp ch) (stepValues u.num c x cell).2
        (u.memWrite (wordAddr (runs.getD ch (0, 0)).2 i) (stepValues u.num c x cell).1) := by
  unfold procmSample at h
  obtain ⟨r, h1, rfl⟩ := atOnce_done h
  simp only [procmValues, bind_eq_ok, memReadOrRaise_ok, stepChecked_ok] at h1
  obtain ⟨x, hx, cell, hc, a, b, rfl, d, e⟩ := h1
  exact ⟨x, cell, hx, hc, a, b, d, e, rfl⟩

/-! ### The pointer arrays and the channels' runs (R307) -/

/-- A written pointer array is read whole. -/
theorem readPointers_of {s : State} {base ch n : Nat} {v : Nat → Word}
    (h : ∀ c < n, s.memRead (wordAddr base (ch + c)) = some (v (ch + c))) :
    readPointers s base ch n = .ok ((List.range n).map fun c => (v (ch + c)).toNat) := by
  induction n generalizing ch with
  | zero => rfl
  | succ n ih =>
    have := ih (ch := ch + 1) fun c hc => by
      rw [show ch + 1 + c = ch + (c + 1) by omega]; exact h (c + 1) (by omega)
    simp only [readPointers]
    rw [memReadOrRaise_ok.mpr (by simpa using h 0 (by omega)), ok_bind, this]
    simp only [ok_bind, pure_eq_ok, List.range_succ_eq_map, List.map_cons, List.map_map,
      Nat.add_zero]
    congr 2
    apply List.map_congr_left
    intro c _
    simp only [Function.comp, Nat.succ_eq_add_one]
    rw [show ch + 1 + c = ch + (c + 1) by omega]

/-- The first unwritten pointer faults with its address and its index. -/
theorem readPointers_unwritten {s : State} {base ch n c : Nat} (hc : c < n)
    (h0 : s.memRead (wordAddr base (ch + c)) = none)
    (h : ∀ c' < c, s.memRead (wordAddr base (ch + c')) ≠ none) :
    readPointers s base ch n
      = .error (raiseWith .unwrittenMemory (wordAddr base (ch + c)) (ch + c)) := by
  induction c generalizing ch n with
  | zero =>
    obtain ⟨n, rfl⟩ : ∃ k, n = k + 1 := ⟨n - 1, by omega⟩
    simp only [readPointers, Nat.add_zero] at *
    rw [memReadOrRaise_error.mpr ⟨h0, rfl⟩]; rfl
  | succ c ih =>
    obtain ⟨n, rfl⟩ : ∃ k, n = k + 1 := ⟨n - 1, by omega⟩
    obtain ⟨v, hv⟩ := Option.ne_none_iff_exists'.mp (h 0 (by omega))
    simp only [Nat.add_zero] at hv
    have := ih (ch := ch + 1) (n := n) (by omega)
      (by rw [show ch + 1 + c = ch + (c + 1) by omega]; exact h0)
      (fun c' hc' => by
        rw [show ch + 1 + c' = ch + (c' + 1) by omega]; exact h _ (by omega))
    simp only [readPointers]
    rw [memReadOrRaise_ok.mpr hv, ok_bind, this, show ch + 1 + c = ch + (c + 1) by omega]; rfl

/-- The first channel whose runs are not in memory faults. -/
theorem checkChannelRuns_stops {s : State} {m ch c : Nat} {runs : List (Nat × Nat)} {r : Raise}
    (hc : c < runs.length)
    (h : ∀ c' (h : c' < c), runInMemory s runs[c'].1 m ∧ runInMemory s runs[c'].2 m)
    (he : (rangeCheck s runs[c].1 m (ch + c) >>= fun _ => rangeCheck s runs[c].2 m (ch + c))
      = .error r) :
    checkChannelRuns s m ch runs = .error r := by
  induction c generalizing ch runs with
  | zero =>
    obtain ⟨p, rest, rfl⟩ : ∃ p rest, runs = p :: rest := List.exists_cons_of_length_pos hc
    simp only [List.getElem_cons_zero, Nat.add_zero] at he
    simp only [checkChannelRuns]
    rcases bind_eq_error.mp he with h | ⟨_, h1, h2⟩
    · rw [h]; rfl
    · rw [h1, ok_bind, h2]; rfl
  | succ c ih =>
    obtain ⟨p, rest, rfl⟩ : ∃ p rest, runs = p :: rest :=
      List.exists_cons_of_length_pos (by omega)
    have h0 : runInMemory s p.1 m ∧ runInMemory s p.2 m := h 0 (by omega)
    simp only [checkChannelRuns]
    rw [(rangeCheck_ok (u := ())).mpr (.inr h0.1), ok_bind,
      (rangeCheck_ok (u := ())).mpr (.inr h0.2), ok_bind]
    refine ih (by simpa using hc) (fun c' hc' => h (c' + 1) (by omega)) ?_
    rw [show ch + 1 + c = ch + (c + 1) by omega]; exact he

end Sys2Proof.Machine
end

