-- ==== Sys2Proof/Laws/HostPort.lean ====
section
/-! SUPPORT. What each operation of the host port does, said once, and the step in terms of them. -/

namespace Sys2Proof.Machine

theorem isCommand_iff {w : Word} : isCommand w = true ↔ ∃ i, decode w = .ok i := by
  unfold isCommand; cases decode w <;> simp [Except.toOption]

theorem isCommand_false {w : Word} : isCommand w = false ↔ ∃ e, decode w = .error e := by
  unfold isCommand; cases decode w <;> simp [Except.toOption]

/-- With nothing pending the block holds its state (`60_exceptions.md` R353). -/
theorem step_idle {s : State} (h : s.hostQueue = []) : step s = .next s := by
  simp [step, nextAction, h]

/-- A step takes the host's oldest pending action (`00_scope.md` R5). -/
theorem step_cons {s : State} {op : HostOp} {rest : List HostOp} (h : s.hostQueue = op :: rest) :
    step s = hostOperation op { s with hostQueue := rest } := by
  simp [step, nextAction, h]

theorem hostFault_halted {s : State} (c : Cause) (n : Nat) (h : s.halted = true) :
    hostFault c n s = s := by simp [hostFault, h]

theorem hostFault_running {s : State} (c : Cause) (n : Nat) (h : s.halted = false) :
    hostFault c n s = faultEntry (raiseWith c n 0) 0 s := by simp [hostFault, h]

theorem issueCommand_halted {s : State} (w : Word) (h : s.halted = true) :
    issueCommand w s = .next s := by simp [issueCommand, h]

theorem issueCommand_legal {s : State} {w : Word} {i : Instr} (h : s.halted = false)
    (hd : decode w = .ok i) : issueCommand w s = exec i (storeCommand w s) := by
  simp [issueCommand, h, hd]

theorem issueCommand_illegal {s : State} {w : Word} (h : s.halted = false)
    (hw : isCommand w = false) : issueCommand w s
      = .next (faultEntry (raiseWith .illegalCommand 0 0) w (storeCommand w s)) := by
  obtain ⟨e, he⟩ := isCommand_false.mp hw
  simp [issueCommand, h, he]

theorem hostWriteReg_value (r : Reg) (v : Word) (s : State) :
    hostWriteReg ((regNum r).castLE (by decide)) v s = .next (s.setReg r v) := by
  unfold hostWriteReg
  rw [dif_pos (by simp)]
  rfl

theorem hostWriteReg_below {n : Fin 32} (h : n.val < 24) (v : Word) (s : State) :
    hostWriteReg n v s = .next { s with regs := s.regs.set n.val v, wr := s.wr.set n.val true } := by
  unfold hostWriteReg
  rw [dif_pos h]

theorem hostWriteReg_cmd (v : Word) (s : State) : hostWriteReg 31 v s = issueCommand v s := by
  unfold hostWriteReg
  rw [dif_neg (by decide), if_pos (by decide)]

theorem hostWriteReg_other {n : Fin 32} (h : 24 ≤ n.val) (h' : n.val ≤ 30) (v : Word) (s : State) :
    hostWriteReg n v s = .next (hostFault .registerAccess n.val s) := by
  unfold hostWriteReg
  rw [dif_neg (by omega), if_neg (by omega)]

theorem hostReadReg_value (r : Reg) (s : State) :
    hostReadReg ((regNum r).castLE (by decide)) s
      = recordRead (.reg ((regNum r).castLE (by decide))
          (if s.written r then some (s.reg r) else none)) s := by
  have h : (regNum r).val < 24 := (regNum r).isLt
  simp only [hostReadReg, Fin.val_castLE]
  rw [if_neg (by omega)]
  unfold hostRegValue
  rw [dif_pos (by simp)]
  rfl

theorem hostReadReg_readable {n : Fin 32} (h : n.val < 24 ∨ 27 ≤ n.val) (s : State) :
    hostReadReg n s = recordRead (.reg n (hostRegValue n s)) s := by
  unfold hostReadReg
  rw [if_neg (by omega)]

theorem hostReadReg_reserved {n : Fin 32} (h : 24 ≤ n.val) (h' : n.val ≤ 26) (s : State) :
    hostReadReg n s = hostFault .registerAccess n.val (recordRead (.reg n none) s) := by
  simp only [hostReadReg]
  rw [if_pos (by omega)]
  unfold hostRegValue
  rw [dif_neg (by omega), if_neg (by omega), if_neg (by omega), if_neg (by omega),
    if_neg (by omega), if_neg (by omega)]

theorem hostAddrOk_iff {a : Word} {s : State} :
    hostAddrOk a s = true ↔ a.toNat % 4 = 0 ∧ a.toNat + 4 ≤ s.params.memSize := by
  simp [hostAddrOk]

theorem hostWriteMem_ok {a : Word} {s : State} (h : hostAddrOk a s = true) (v : Word) :
    hostWriteMem a v s = s.memWrite a.toNat v := by simp [hostWriteMem, h]

theorem hostWriteMem_bad {a : Word} {s : State} (h : ¬hostAddrOk a s = true) (v : Word) :
    hostWriteMem a v s = hostFault .accessFault a.toNat s := by simp [hostWriteMem, h]

theorem hostReadMem_ok {a : Word} {s : State} (h : hostAddrOk a s = true) :
    hostReadMem a s = recordRead (.mem a (s.memRead a.toNat)) s := by simp [hostReadMem, h]

theorem hostReadMem_bad {a : Word} {s : State} (h : ¬hostAddrOk a s = true) :
    hostReadMem a s = hostFault .accessFault a.toNat (recordRead (.mem a none) s) := by
  simp [hostReadMem, h]

/-- Every operation of the host port answers a next state. -/
theorem hostOperation_answers_next (op : HostOp) (s : State) : ∃ t, hostOperation op s = .next t := by
  cases op with
  | wr n v =>
    show ∃ t, hostWriteReg n v s = .next t
    by_cases h : n.val < 24
    · exact ⟨_, hostWriteReg_below h v s⟩
    · by_cases h' : n.val ≤ 30
      · exact ⟨_, hostWriteReg_other (by omega) h' v s⟩
      · obtain rfl : n = 31 := Fin.ext (by omega)
        rw [hostWriteReg_cmd]
        unfold issueCommand
        split
        · exact ⟨_, rfl⟩
        · split
          · exact exec_answers_next _ _
          · exact ⟨_, rfl⟩
  | rd n => exact ⟨_, rfl⟩
  | wrm a v => exact ⟨_, rfl⟩
  | rdm a => exact ⟨_, rfl⟩
  | por => exact ⟨_, rfl⟩

end Sys2Proof.Machine
end

