-- ==== Sys2Proof/Laws/PerInstr.lean ====
section
/-! SUPPORT. Per command: its fields are legal by R103 and its word has its reserved bits 0 (R100). -/

namespace Sys2Proof.Laws.WordLegal

/-- The command's fields are well formed and bits 31:13 of its word are 0. -/
def Statement (i : Instr) : Prop :=
  (instrFields i).wellFormed = true ∧ (encode i).extractLsb' 13 19 = 0#19

theorem lp1 (pf : Bool) : Statement (.lp1 pf) := by cases pf <;> exact ⟨by decide, by decide⟩

theorem hp1 (pf : Bool) : Statement (.hp1 pf) := by cases pf <;> exact ⟨by decide, by decide⟩

theorem ap1 (pf : Bool) : Statement (.ap1 pf) := by cases pf <;> exact ⟨by decide, by decide⟩

theorem ls1 (pf : Bool) : Statement (.ls1 pf) := by cases pf <;> exact ⟨by decide, by decide⟩

theorem ls1Db (pf : Bool) : Statement (.ls1Db pf) := by cases pf <;> exact ⟨by decide, by decide⟩

theorem hs1 (pf : Bool) : Statement (.hs1 pf) := by cases pf <;> exact ⟨by decide, by decide⟩

theorem hs1Db (pf : Bool) : Statement (.hs1Db pf) := by cases pf <;> exact ⟨by decide, by decide⟩

theorem mm1 (pf : Bool) : Statement (.mm1 pf) := by cases pf <;> exact ⟨by decide, by decide⟩

theorem lp2 (pf : Bool) : Statement (.lp2 pf) := by cases pf <;> exact ⟨by decide, by decide⟩

theorem hp2 (pf : Bool) : Statement (.hp2 pf) := by cases pf <;> exact ⟨by decide, by decide⟩

theorem ap2 (pf : Bool) : Statement (.ap2 pf) := by cases pf <;> exact ⟨by decide, by decide⟩

theorem ls2 (pf : Bool) : Statement (.ls2 pf) := by cases pf <;> exact ⟨by decide, by decide⟩

theorem ls2Db (pf : Bool) : Statement (.ls2Db pf) := by cases pf <;> exact ⟨by decide, by decide⟩

theorem hs2 (pf : Bool) : Statement (.hs2 pf) := by cases pf <;> exact ⟨by decide, by decide⟩

theorem hs2Db (pf : Bool) : Statement (.hs2Db pf) := by cases pf <;> exact ⟨by decide, by decide⟩

theorem mm2 (pf : Bool) : Statement (.mm2 pf) := by cases pf <;> exact ⟨by decide, by decide⟩

theorem bp2 (pf : Bool) : Statement (.bp2 pf) := by cases pf <;> exact ⟨by decide, by decide⟩

theorem notch2 (pf : Bool) : Statement (.notch2 pf) := by cases pf <;> exact ⟨by decide, by decide⟩

theorem peak2 (pf : Bool) : Statement (.peak2 pf) := by cases pf <;> exact ⟨by decide, by decide⟩

theorem peak2Db (pf : Bool) : Statement (.peak2Db pf) := by cases pf <;> exact ⟨by decide, by decide⟩

theorem peak2Bw (pf : Bool) : Statement (.peak2Bw pf) := by cases pf <;> exact ⟨by decide, by decide⟩

theorem peak2BwDb (pf : Bool) : Statement (.peak2BwDb pf) := by cases pf <;> exact ⟨by decide, by decide⟩

theorem rst1 : Statement .rst1 := ⟨by decide, by decide⟩

theorem proc1 : Statement .proc1 := ⟨by decide, by decide⟩

theorem procn1 : Statement .procn1 := ⟨by decide, by decide⟩

theorem rstm1Y : Statement .rstm1Y := ⟨by decide, by decide⟩

theorem rstm1S : Statement .rstm1S := ⟨by decide, by decide⟩

theorem rstm1Ys : Statement .rstm1Ys := ⟨by decide, by decide⟩

theorem procm1 : Statement .procm1 := ⟨by decide, by decide⟩

theorem rst2 : Statement .rst2 := ⟨by decide, by decide⟩

theorem proc2 : Statement .proc2 := ⟨by decide, by decide⟩

theorem procn2 : Statement .procn2 := ⟨by decide, by decide⟩

theorem rstm2Y : Statement .rstm2Y := ⟨by decide, by decide⟩

theorem rstm2S : Statement .rstm2S := ⟨by decide, by decide⟩

theorem rstm2Ys : Statement .rstm2Ys := ⟨by decide, by decide⟩

theorem procm2 : Statement .procm2 := ⟨by decide, by decide⟩

end Sys2Proof.Laws.WordLegal
end

