-- ==== Sys2Proof/Tests/Slice0.lean ====
section
/-! SUPPORT. Tests of one step each, against words written out from the encoding rules and against the
spec's own vectors (`95_test_vectors.md`), and, for every statement with hypotheses, concrete states
that meet them. -/

namespace Sys2Proof.Tests

open Sys2Proof.Machine

/-! ### Building a small state -/

/-- The reset state with registers and memory words written. -/
def built (rs : List (Reg × Word)) (ms : List (Nat × Word)) : State :=
  ms.foldl (fun s p => s.memWrite p.1 p.2) (rs.foldl (fun s p => s.setReg p.1 p.2) State.reset)

/-- The state after a command. -/
def after (i : Instr) (s : State) : State :=
  match exec i s with
  | .next t => t
  | _ => s

/-- The state after one step in which the host performs an operation. -/
def afterOp (op : HostOp) (s : State) : State :=
  match step { s with hostQueue := op :: s.hostQueue } with
  | .next t => t
  | _ => s

/-- `STATUS` and some registers. -/
def words (t : State) (l : List Reg) : List Word := t.status :: l.map t.reg

/-- The fault registers, in the order `STATUS`, `FINFO`, `FCH`, `FCMD`. -/
def record (t : State) : List Word := [t.status, t.finfo, t.fch, t.fcmd]

/-- Some memory words. -/
def memory (t : State) (l : List Nat) : List (Option Word) := l.map t.memRead

/-- The base parameters of the designer vectors. -/
def base : List (Reg × Word) := [(.fs, 0x473B8000), (.fc, 0x447A0000), (.q, 0x3F3504F3)]

/-- The first-order set `C1`. -/
def c1 : List (Reg × Word) := [(.b0, 0x3E800000), (.b1, 0x3E800000), (.a1, 0xBF000000)]

/-- The second-order set `C2`. -/
def c2 : List (Reg × Word) :=
  [(.b0, 0x3E800000), (.b1, 0x3F000000), (.b2, 0x3E800000), (.a1, 0xBF000000), (.a2, 0x3F000000)]

/-! ### Well-formedness: an ill-formed term for each check (R6, R36 to R40, R71, R101, R103) -/

theorem test_unassigned_op_refused :
    CmdFields.wellFormed ⟨0x16, false, false, false, false, false⟩ = false := by decide +kernel
theorem test_pf_on_engine_refused :
    CmdFields.wellFormed ⟨0x50, true, false, false, false, false⟩ = false := by decide +kernel
theorem test_db_without_gain_refused :
    CmdFields.wellFormed ⟨0x10, false, true, false, false, false⟩ = false := by decide +kernel
theorem test_bw_off_peak_refused :
    CmdFields.wellFormed ⟨0x27, false, false, true, false, false⟩ = false := by decide +kernel
theorem test_outputs_off_rstm_refused :
    CmdFields.wellFormed ⟨0x28, false, false, false, false, true⟩ = false := by decide +kernel
theorem test_rstm_without_output_refused :
    CmdFields.wellFormed ⟨0x43, false, false, false, false, false⟩ = false := by decide +kernel
theorem test_every_command_wellformed :
    (allCommands.all fun i => (instrFields i).wellFormed) = true := by decide +kernel
theorem test_memory_size_refused : Params.wellFormed { Params.reset with memSize := 6 } = false ∧
    Params.wellFormed { Params.reset with memSize := 0 } = false ∧
    Params.wellFormed { Params.reset with memSize := 2 ^ 32 + 4 } = false ∧
    Params.wellFormed { Params.reset with memSize := 2 ^ 32 } = true := by decide +kernel
theorem test_host_ops_refused : HostOp.wellFormed Params.reset (.wr 24 0) = false ∧
    HostOp.wellFormed Params.reset (.wr 27 0) = false ∧
    HostOp.wellFormed Params.reset (.wr 30 0) = false ∧
    HostOp.wellFormed Params.reset (.rd 26) = false ∧
    HostOp.wellFormed Params.reset (.wrm 0xFFFE 0) = false ∧
    HostOp.wellFormed Params.reset (.rdm 0x10000) = false ∧
    HostOp.wellFormed Params.reset (.rdm 0xFFFC) = true := by decide +kernel

/-! ### Decoding: every constructor, words written out from R100 to R102 and R108 -/

theorem test_decode_first_order_designers :
    decode 0b00000000000000000000000000010000 = .ok (.lp1 false) ∧
    decode 0b00000000000000000000000100010001 = .ok (.hp1 true) ∧
    decode 0b00000000000000000000000000010010 = .ok (.ap1 false) ∧
    decode 0b00000000000000000000000100010011 = .ok (.ls1 true) ∧
    decode 0b00000000000000000000001000010011 = .ok (.ls1Db false) ∧
    decode 0b00000000000000000000000000010100 = .ok (.hs1 false) ∧
    decode 0b00000000000000000000001100010100 = .ok (.hs1Db true) ∧
    decode 0b00000000000000000000000000010101 = .ok (.mm1 false) := by decide +kernel
theorem test_decode_second_order_designers :
    decode 0b00000000000000000000000100100000 = .ok (.lp2 true) ∧
    decode 0b00000000000000000000000000100001 = .ok (.hp2 false) ∧
    decode 0b00000000000000000000000000100010 = .ok (.ap2 false) ∧
    decode 0b00000000000000000000000000100011 = .ok (.ls2 false) ∧
    decode 0b00000000000000000000001100100011 = .ok (.ls2Db true) ∧
    decode 0b00000000000000000000000000100100 = .ok (.hs2 false) ∧
    decode 0b00000000000000000000001000100100 = .ok (.hs2Db false) ∧
    decode 0b00000000000000000000000100100101 = .ok (.mm2 true) ∧
    decode 0b00000000000000000000000000100110 = .ok (.bp2 false) ∧
    decode 0b00000000000000000000000000100111 = .ok (.notch2 false) ∧
    decode 0b00000000000000000000000000101000 = .ok (.peak2 false) ∧
    decode 0b00000000000000000000001000101000 = .ok (.peak2Db false) ∧
    decode 0b00000000000000000000010000101000 = .ok (.peak2Bw false) ∧
    decode 0b00000000000000000000011100101000 = .ok (.peak2BwDb true) := by decide +kernel
theorem test_decode_engine :
    decode 0b00000000000000000000000001000000 = .ok .rst1 ∧
    decode 0b00000000000000000000000001000001 = .ok .proc1 ∧
    decode 0b00000000000000000000000001000010 = .ok .procn1 ∧
    decode 0b00000000000000000000100001000011 = .ok .rstm1Y ∧
    decode 0b00000000000000000001000001000011 = .ok .rstm1S ∧
    decode 0b00000000000000000001100001000011 = .ok .rstm1Ys ∧
    decode 0b00000000000000000000000001000100 = .ok .procm1 ∧
    decode 0b00000000000000000000000001010000 = .ok .rst2 ∧
    decode 0b00000000000000000000000001010001 = .ok .proc2 ∧
    decode 0b00000000000000000000000001010010 = .ok .procn2 ∧
    decode 0b00000000000000000000100001010011 = .ok .rstm2Y ∧
    decode 0b00000000000000000001000001010011 = .ok .rstm2S ∧
    decode 0b00000000000000000001100001010011 = .ok .rstm2Ys ∧
    decode 0b00000000000000000000000001010100 = .ok .procm2 := by decide +kernel
/-- The illegal words of L2.4. -/
theorem test_decode_illegal : ([0x00000000, 0x00000016, 0x00000029, 0x00000030, 0x00000045,
    0x00000150, 0x00000043, 0x00000053, 0x00000210, 0x00000410, 0x00000429, 0x00000810, 0x00002000,
    0x80000010, 0x00000140, 0x00000240, 0x00002043, 0x000000FF, 0x00001028].all
    fun w => !isCommand w) = true := by decide +kernel
theorem test_table_word : decodeTableWord 32 0x1853 = some .rstm2Ys ∧
    decodeTableWord 32 0x110 = some (.lp1 true) ∧ decodeTableWord 32 0 = none := by decide +kernel
theorem test_encode : encode (.peak2BwDb true) = 0x00000728 ∧ encode .rstm2Ys = 0x00001853 ∧
    encode (.lp1 true) = 0x00000110 := by decide +kernel

/-! ### Constants and arithmetic (R14, R11) -/

theorem test_constants : F32.ofDecimal false 499 (-3) = c0499 ∧ F32.ofDecimal false 1 (-6) = fMin ∧
    F32.ofDecimal false 1 12 = fMax ∧ F32.ofDecimal false 1 6 = qMax ∧
    F32.ofDecimal false 1 (-30) = gMin ∧ F32.ofDecimal false 1 30 = gMax ∧
    F32.ofDecimal true 600 0 = dbMin ∧ F32.ofDecimal false 600 0 = dbMax ∧
    F32.ofDecimal false 90 0 = bwMax ∧ F32.ofDecimal false 48000 0 = 0x473B8000 := by decide +kernel
/-- `1/3` rounds up; the least subnormal halves to an even zero; the largest number doubles to an
infinity; `−0 − (−0)` is `+0`. -/
theorem test_rounding : F32.div 0x3F800000 0x40400000 = 0x3EAAAAAB ∧
    F32.mul 0x00000001 0x3F000000 = 0x00000000 ∧ F32.mul 0x7F7FFFFF 0x40000000 = 0x7F800000 ∧
    F32.sub 0x80000000 0x80000000 = 0x00000000 ∧ F32.add 0x80000000 0x80000000 = 0x80000000 := by
  decide +kernel
theorem test_compare : F32.le 0x80000000 0x00000000 = true ∧ F32.lt 0x80000000 0x00000000 = false ∧
    F32.eqv 0x80000000 0x00000000 = true ∧ F32.le 0x7FC00000 0x7FC00000 = false := by decide +kernel
/-- The linear gain of 6 dB and of −6 dB (L2.1). -/
theorem test_gain : F32.dB2linRef 0x40C00000 = 0x3FFF64C1 ∧ F32.dB2linRef 0xC0C00000 = 0x3F004DCE := by
  decide +kernel

/-! ### Designers (L2.1, L2.3), and their faults (L2.2) -/

theorem test_lp1 : words (after (.lp1 false) (built base [])) coefRegs1
    = [0, 0x3D7BF3C6, 0x3D7BF3C6, 0xBF608189] := by decide +kernel
theorem test_lp1_pf : words (after (.lp1 true) (built (base ++ [(.fp, 0x43FA0000)]) [])) coefRegs1
    = [0, 0x3D7BB2E4, 0x3D7BB2E4, 0xBF6089A4] := by decide +kernel
theorem test_hp1 : words (after (.hp1 false) (built base [])) coefRegs1
    = [0, 0x3F7040C5, 0xBF7040C5, 0xBF608189] := by decide +kernel
theorem test_ap1 : words (after (.ap1 false) (built base [])) coefRegs1
    = [0, 0xBF608189, 0x3F800000, 0xBF608189] := by decide +kernel
theorem test_ls1 : words (after (.ls1 false) (built (base ++ [(.gain, 0x40000000)]) [])) coefRegs1
    = [0, 0x3F85AB69, 0xBF5DFB91, 0xBF695261] := by decide +kernel
theorem test_ls1Db : words (after (.ls1Db false) (built (base ++ [(.gain, 0x40C00000)]) [])) coefRegs1
    = [0, 0x3F85A62A, 0xBF5DFF75, 0xBF694BCB] := by decide +kernel
theorem test_hs1 : words (after (.hs1 false) (built (base ++ [(.gain, 0x40000000)]) [])) coefRegs1
    = [0, 0x3FF5244E, 0xBFDF6CED, 0xBF54913D] := by decide +kernel
theorem test_hs1Db : words (after (.hs1Db false) (built (base ++ [(.gain, 0xC0C00000)]) [])) coefRegs1
    = [0, 0x3F05F767, 0xBEDE8666, 0xBF694BCB] := by decide +kernel
theorem test_mm1 : words (after (.mm1 false)
    (built (base ++ [(.cx, 0x3F000000), (.clp, 0x3E800000)]) [])) coefRegs1
    = [0, 0x3F03EFD0, 0xBED8A1EB, 0xBF608189] := by decide +kernel
theorem test_lp2 : words (after (.lp2 false) (built base [])) coefRegs2
    = [0, 0x3B8052DA, 0x3C0052DA, 0x3B8052DA, 0xBFE85D18, 0x3F54BCC8] := by decide +kernel
theorem test_hp2 : words (after (.hp2 false) (built base [])) coefRegs2
    = [0, 0x3F695DBE, 0xBFE95DBE, 0x3F695DBE, 0xBFE85D18, 0x3F54BCC8] := by decide +kernel
theorem test_ap2 : words (after (.ap2 false) (built base [])) coefRegs2
    = [0, 0x3F54BCC8, 0xBFE85D18, 0x3F800000, 0xBFE85D18, 0x3F54BCC8] := by decide +kernel
theorem test_ls2 : words (after (.ls2 false) (built (base ++ [(.gain, 0x40000000)]) [])) coefRegs2
    = [0, 0x3F842EC4, 0xBFEB6201, 0x3F5427C9, 0xBFEC1A2B, 0x3F5B14FE] := by decide +kernel
theorem test_ls2Db : words (after (.ls2Db false) (built (base ++ [(.gain, 0x40C00000)]) [])) coefRegs2
    = [0, 0x3F842B02, 0xBFEB5FA9, 0x3F5428CE, 0xBFEC172A, 0x3F5B0FD1] := by decide +kernel
theorem test_hs2 : words (after (.hs2 false) (built (base ++ [(.gain, 0x40000000)]) [])) coefRegs2
    = [0, 0x3FF7E63B, 0xC064A195, 0x3FD42648, 0xBFE3EF3F, 0x3F4D712F] := by decide +kernel
theorem test_hs2Db : words (after (.hs2Db false) (built (base ++ [(.gain, 0xC0C00000)]) [])) coefRegs2
    = [0, 0x3F047B58, 0xBF6BEEBB, 0x3ED4A9C4, 0xBFEC172A, 0x3F5B0FD1] := by decide +kernel
theorem test_mm2 : words (after (.mm2 false) (built (base ++ [(.cx, 0x3F000000),
    (.clp, 0x3E800000), (.cbp, 0xBF000000), (.chp, 0x40000000)]) [])) coefRegs2
    = [0, 0x4012D574, 0xC091AA78, 0x40113FF8, 0xBFE85D18, 0x3F54BCC8] := by decide +kernel
/-- The mixes of `NOTCH2`, `AP2` and `HP2` at the example `q` (R227): the words of R229, R222, R221. -/
theorem test_mm2_mixes : ([(0, 0xBFB504F3), (0, 0xC03504F3), (0xBF800000, 0xBFB504F3)].map fun p =>
      words (after (.mm2 false) (built (base ++ [(.cx, 0x3F800000), (.clp, p.1), (.cbp, p.2),
        (.chp, 0)]) [])) coefRegs2)
    = [[0, 0x3F6A5E64, 0xBFE85D18, 0x3F6A5E64, 0xBFE85D18, 0x3F54BCC8],
      [0, 0x3F54BCC8, 0xBFE85D18, 0x3F800000, 0xBFE85D18, 0x3F54BCC8],
      [0, 0x3F695DBE, 0xBFE95DBE, 0x3F695DBE, 0xBFE85D18, 0x3F54BCC8]] := by decide +kernel
theorem test_bp2 : words (after (.bp2 false) (built base [])) coefRegs2
    = [0, 0x3D74BAE5, 0x00000000, 0xBD74BAE5, 0xBFE85D18, 0x3F54BCC8] := by decide +kernel
theorem test_notch2 : words (after (.notch2 false) (built base [])) coefRegs2
    = [0, 0x3F6A5E64, 0xBFE85D18, 0x3F6A5E64, 0xBFE85D18, 0x3F54BCC8] := by decide +kernel
theorem test_peak2 : words (after (.peak2 false)
    (built (base ++ [(.q, 0x3F800000), (.gain, 0x40000000)]) [])) coefRegs2
    = [0, 0x3F87D786, 0xBFEE42A2, 0x3F50F2DB, 0xBFEE42A2, 0x3F60A1E8] := by decide +kernel
theorem test_peak2Db : words (after (.peak2Db false)
    (built (base ++ [(.q, 0x3F800000), (.gain, 0x40C00000)]) [])) coefRegs2
    = [0, 0x3F87CE03, 0xBFEE42A2, 0x3F5105E1, 0xBFEE42A2, 0x3F60A1E8] := by decide +kernel
/-- The peak by bandwidth reads no `Q`. -/
theorem test_peak2Bw : words (after (.peak2Bw false) (built
    [(.fs, 0x473B8000), (.fc, 0x447A0000), (.bw, 0x3F800000), (.gain, 0x40000000)] [])) coefRegs2
    = [0, 0x3F840B7B, 0xBFF5CA16, 0x3F67BB1D, 0xBFF5CA16, 0x3F6FD214] := by decide +kernel
theorem test_peak2BwDb : words (after (.peak2BwDb false)
    (built (base ++ [(.bw, 0x3F800000), (.gain, 0x40C00000)]) [])) coefRegs2
    = [0, 0x3F8407C3, 0xBFF5C7BB, 0x3F67BDCC, 0xBFF5C7BB, 0x3F6FCD52] := by decide +kernel
/-- The cutoff of 30 kHz is warped at the clamped point. -/
theorem test_lp1_clamped : words (after (.lp1 false) (built (base ++ [(.fc, 0x46EA6000)]) []))
    coefRegs1 = [0, 0x3F7F5C08, 0x3F7F5C08, 0x3F7EB810] := by decide +kernel
theorem test_ls2_extreme : words (after (.ls2 false) (built (base ++ [(.gain, gMax)]) [])) coefRegs2
    = [0, 0x547A0EA2, 0x54FA0E97, 0x547A0E8C, 0xC0000000, 0x3F800000] := by decide +kernel
theorem test_fault_fs : record (after (.lp1 false) (built (base ++ [(.fs, 0x7F800000)]) []))
    = [0x103, 0, 0, 0x10] := by decide +kernel
theorem test_fault_gain_db : record (after (.ls1Db false)
    (built (base ++ [(.gain, 0x44164000)]) [])) = [0x103, 5, 0, 0x213] := by decide +kernel
theorem test_fault_effective : record (after (.hs1 false)
    (built (base ++ [(.fc, fMax), (.gain, 0x40800000)]) [])) = [0x103, 0x101, 0, 0x14] := by
  decide +kernel
theorem test_fault_derived_q : record (after (.peak2Bw false)
    (built (base ++ [(.bw, bwMax), (.gain, 0x3F800000)]) [])) = [0x103, 0x102, 0, 0x428] := by
  decide +kernel
theorem test_fault_design : record (after (.lp2 false) (built (base ++ [(.fc, 0x3F800000)]) []))
    = [0x104, 0, 0, 0x20] := by decide +kernel
theorem test_fault_unwritten : record (after (.lp2 false) State.reset) = [0x102, 0, 0, 0x20] ∧
    record (after (.lp1 true) (built base [])) = [0x102, 2, 0, 0x110] := by decide +kernel
theorem test_fault_mix : record (after (.mm2 false) (built (base ++ [(.cx, 0), (.clp, 0),
    (.cbp, 0x7F800000), (.chp, 0x7FC00000)]) [])) = [0x103, 8, 0, 0x25] := by decide +kernel

/-! ### Engine, single samples (L1.2, L2.5, L2.6) -/

theorem test_rst1 : words (after .rst1 (built (c1 ++ [(.x, 0x40400000)]) [])) [.y, .s1]
    = [0, 0x40400000, 0x40100000] := by decide +kernel
theorem test_rst1_boundary : words (after .rst1 (built
    [(.b0, 0x3F800000), (.b1, 0), (.a1, 0xBF800000), (.x, 0x40A00000)] [])) [.y, .s1]
    = [0, 0, 0] := by decide +kernel
theorem test_rst2 : words (after .rst2 (built (c2 ++ [(.x, 0xC0800000)]) [])) [.y, .s1, .s2]
    = [0, 0xC0800000, 0xC0400000, 0x3F800000] := by decide +kernel
theorem test_rst2_inexact : words (after .rst2 (built [(.b0, 0x3F800000), (.b1, 0), (.b2, 0),
    (.a1, 0x3FC00000), (.a2, 0x3F000000), (.x, 0x3F800000)] [])) [.y, .s1, .s2]
    = [0, 0x3EAAAAAB, 0xBF2AAAAB, 0xBE2AAAAB] := by decide +kernel
theorem test_proc1 : words (after .proc1 (built (c1 ++ [(.x, 0x3F800000), (.s1, 0)]) [])) [.y, .s1]
    = [0, 0x3E800000, 0x3EC00000] := by decide +kernel
theorem test_proc1_overflow : record (after .proc1 (built [(.b0, 0x3F800000), (.b1, 0), (.a1, 0),
    (.x, 0x7F61B1E6), (.s1, 0x7F61B1E6)] [])) = [0x107, 0, 0, 0x41] := by decide +kernel
theorem test_proc2 : words (after .proc2 (built (c2 ++ [(.x, 0x3F800000), (.s1, 0), (.s2, 0)]) []))
    [.y, .s1, .s2] = [0, 0x3E800000, 0x3F200000, 0x3E000000] := by decide +kernel
theorem test_proc2_signed_zero : words (after .proc2
    (built (c2 ++ [(.x, 0x80000000), (.s1, 0x80000000), (.s2, 0x80000000)]) [])) [.y, .s1, .s2]
    = [0, 0x80000000, 0x80000000, 0] := by decide +kernel
theorem test_fault_coefficients : record (after .rst1 (built
    [(.b0, 0x3F800000), (.b1, 0), (.a1, 0x3FC00000), (.x, 0x3F800000)] [])) = [0x105, 0, 0, 0x40] := by
  decide +kernel
theorem test_fault_value : record (after .proc1 (built (c1 ++ [(.x, 0x7FC00000), (.s1, 0)]) []))
    = [0x106, 0, 0, 0x41] := by decide +kernel

/-! ### Engine, batches (L2.5, L2.7) -/

/-- A run of words. -/
def run (a : Nat) (ws : List Word) : List (Nat × Word) := ws.mapIdx fun j w => (a + 4 * j, w)

theorem test_procn1 :
    let t := after .procn1 (built (c1 ++ [(.s1, 0), (.xptr, 0x100), (.yptr, 0x200), (.ns, 4)])
      (run 0x100 [0x3F800000, 0, 0, 0]))
    words t [.s1] = [0, 0x3D400000] ∧ memory t [0x200, 0x204, 0x208, 0x20C]
      = [some 0x3E800000, some 0x3EC00000, some 0x3E400000, some 0x3DC00000] := by decide +kernel
theorem test_procn1_unwritten :
    let t := after .procn1 (built (c1 ++ [(.s1, 0), (.xptr, 0x100), (.yptr, 0x200), (.ns, 2)])
      (run 0x100 [0x3F800000]))
    record t = [0x10A, 0x104, 0, 0x42] ∧ t.reg .s1 = 0x3EC00000 ∧
      memory t [0x200, 0x204] = [some 0x3E800000, none] := by decide +kernel
theorem test_procn2_in_place :
    let t := after .procn2 (built
      (c2 ++ [(.s1, 0), (.s2, 0), (.xptr, 0x100), (.yptr, 0x100), (.ns, 4)])
      (run 0x100 [0x3F800000, 0, 0, 0]))
    words t [.s1, .s2] = [0, 0xBE880000, 0x3D400000] ∧ memory t [0x100, 0x104, 0x108, 0x10C]
      = [some 0x3E800000, some 0x3F200000, some 0x3EE00000, some 0xBDC00000] := by decide +kernel
theorem test_procn1_range : record (after .procn1 (built
    (c1 ++ [(.s1, 0), (.xptr, 0xFFF0), (.yptr, 0x100), (.ns, 8)]) [])) = [0x108, 0xFFF0, 0, 0x42] ∧
    record (after .procn1 (built (c1 ++ [(.s1, 0), (.xptr, 0x100), (.yptr, 0x104), (.ns, 2)]) []))
    = [0x109, 0, 0, 0x42] := by decide +kernel
theorem test_rstm1Y_in_place :
    let t := after .rstm1Y (built (c1 ++ [(.xptr, 0x300), (.yptr, 0x300), (.nch, 2)])
      (run 0x300 [0x3F800000, 0xC0000000]))
    words t [] = [0] ∧ memory t [0x300, 0x304] = [some 0x3F800000, some 0xC0000000] := by
  decide +kernel
/-- The unwanted output overflows and is not checked. -/
theorem test_rstm1S :
    let t := after .rstm1S (built [(.b0, 0x7F000000), (.b1, 0x7F000000), (.a1, 0x3F800000),
      (.xptr, 0x300), (.sptr, 0x400), (.nch, 1)] (run 0x300 [0x3F800000]))
    words t [] = [0] ∧ memory t [0x400] = [some 0] := by decide +kernel
theorem test_rstm1Ys :
    let t := after .rstm1Ys (built
      (c1 ++ [(.xptr, 0x300), (.yptr, 0x380), (.sptr, 0x400), (.nch, 2)])
      (run 0x300 [0x3F800000, 0xC0000000]))
    words t [] = [0] ∧ memory t [0x380, 0x384, 0x400, 0x404]
      = [some 0x3F800000, some 0xC0000000, some 0x3F400000, some 0xBFC00000] := by decide +kernel
theorem test_rstm1S_overlap : record (after .rstm1S (built
    (c1 ++ [(.xptr, 0x300), (.sptr, 0x304), (.nch, 2)]) (run 0x300 [0x3F800000, 0xC0000000])))
    = [0x109, 0, 0, 0x1043] := by decide +kernel
/-- Two channels of the second order: `(Y, S1, S2)` as in L2.5. -/
def twoChannels : State := built
  (c2 ++ [(.xptr, 0x300), (.yptr, 0x380), (.sptr, 0x400), (.nch, 2)])
  (run 0x300 [0x40000000, 0xBF800000])
theorem test_rstm2Y : memory (after .rstm2Y twoChannels) [0x380, 0x384, 0x400]
    = [some 0x40000000, some 0xBF800000, none] := by decide +kernel
theorem test_rstm2S : memory (after .rstm2S twoChannels) [0x380, 0x400, 0x404, 0x408, 0x40C]
    = [none, some 0x3FC00000, some 0xBF000000, some 0xBF400000, some 0x3E800000] := by
  decide +kernel
theorem test_rstm2Ys : memory (after .rstm2Ys twoChannels) [0x380, 0x384, 0x400, 0x404, 0x408, 0x40C]
    = [some 0x40000000, some 0xBF800000, some 0x3FC00000, some 0xBF000000, some 0xBF400000,
      some 0x3E800000] := by decide +kernel
/-- Two channels of two samples (L1.6, and the mid-run fault of L2.7 with other inputs). -/
def procm1State (y1 : Word) (inputs0 inputs1 : List Word) : State := built
  (c1 ++ [(.xptr, 0x480), (.yptr, 0x4C0), (.sptr, 0x400), (.ns, 2), (.nch, 2)])
  (run 0x480 [0x500, 0x540] ++ run 0x4C0 [0x600, y1] ++ run 0x400 [0, 0] ++ run 0x500 inputs0
    ++ run 0x540 inputs1)
theorem test_procm1 : memory (after .procm1 (procm1State 0x700 [0x3F800000, 0] [0, 0x3F800000]))
    [0x600, 0x604, 0x700, 0x704, 0x400, 0x404]
    = [some 0x3E800000, some 0x3EC00000, some 0, some 0x3E800000, some 0x3E400000,
      some 0x3EC00000] := by decide +kernel
theorem test_procm1_mid_run :
    let t := after .procm1 (procm1State 0x700 [0x3F800000, 0x3F800000] [0x3F800000, 0x7FC00000])
    record t = [0x106, 1, 1, 0x44] ∧ memory t [0x600, 0x604, 0x700, 0x704, 0x400, 0x404]
      = [some 0x3E800000, some 0x3F200000, some 0x3E800000, none, some 0x3F100000,
        some 0x3EC00000] := by decide +kernel
theorem test_procm1_shared_output : record (after .procm1
    (procm1State 0x600 [0x3F800000, 0] [0, 0x3F800000])) = [0x109, 0, 0, 0x44] := by decide +kernel
/-- The state of program P2 before `PROCM2`. -/
def procm2State : State := built
  (c2 ++ [(.xptr, 0x480), (.yptr, 0x4C0), (.sptr, 0x400), (.ns, 2), (.nch, 2)])
  (run 0x480 [0x500, 0x540] ++ run 0x4C0 [0x600, 0x800]
    ++ run 0x400 [0x3FC00000, 0xBF000000, 0xBF400000, 0x3E800000]
    ++ run 0x500 [0x40000000, 0x40000000] ++ run 0x540 [0x3F800000, 0])
theorem test_procm2 : memory (after .procm2 procm2State)
    [0x600, 0x604, 0x800, 0x804, 0x400, 0x404, 0x408, 0x40C]
    = [some 0x40000000, some 0x40000000, some 0xBF000000, some 0x3F000000, some 0x3FC00000,
      some 0xBF000000, some 0x3F400000, some 0xBE800000] := by decide +kernel
/-- Channel 1's cell with `s1` written and `s2` not: channel 0 has done its sample 0 (R307). -/
def procm2NoS2 : State := (procm2State.setReg .sptr 0x408).memWrite 0x410 0
theorem test_procm2_unwritten_s2 : record (after .procm2 procm2NoS2) = [0x10A, 0x414, 1, 0x54] ∧
    memory (after .procm2 procm2NoS2) [0x604, 0x800, 0x410] = [none, none, some 0] := by
  decide +kernel

/-! ### The host port (L2.8) -/

theorem test_reserved_register : record (afterOp (.wr 24 5) State.reset) = [0x10B, 0x18, 0, 0] := by
  decide +kernel
theorem test_read_only_register : record (afterOp (.wr 30 0) State.reset) = [0x10B, 0x1E, 0, 0] := by
  decide +kernel
theorem test_read_unwritten : (afterOp (.rd 0) State.reset).observed = [.reg 0 none] ∧
    (afterOp (.rd 0) State.reset).halted = false := by decide +kernel
theorem test_misaligned_write : record (afterOp (.wrm 3 7) State.reset) = [0x108, 3, 0, 0] ∧
    (afterOp (.wrm 3 7) State.reset).mem = [] := by decide +kernel
theorem test_illegal_word : record (afterOp (.wr 31 0x43) State.reset) = [0x101, 0, 0, 0x43] ∧
    (afterOp (.wr 31 0x43) State.reset).cmd = 0x43 := by decide +kernel
theorem test_halted_port :
    let h := afterOp (.wr 24 5) State.reset
    (afterOp (.wr 0 0x3F800000) h).reg .fs = 0x3F800000 ∧ afterOp (.wr 31 0x10) h = h ∧
    afterOp (.wr 30 0) h = h ∧ afterOp (.wrm 2 1) h = h ∧
    record (afterOp .por h) = [0, 0, 0, 0] := by decide +kernel
theorem test_memory_round_trip :
    let t := afterOp (.wrm 0xFFFC 0x01020304) State.reset
    t.memRead 0xFFFC = some 0x01020304 ∧ readByte t.mem 0xFFFC = some 4 ∧
    (afterOp (.rdm 0xFFFC) t).observed = [.mem 0xFFFC (some 0x01020304)] := by decide +kernel
theorem test_command_runs : (afterOp (.wr 31 0x10) (built base [])).reg .a1 = 0xBF608189 := by
  decide +kernel
theorem test_idle : step State.reset = .next State.reset := rfl

/-! ### Host-program lines (R109 to R111) -/

theorem test_assemble_lines :
    assembleLine "WR FS, 48000.0 ; 473B8000" = some [.wr 0 0x473B8000] ∧
    assembleLine "rstm2.ys" = some [.wr 31 0x1853] ∧
    assembleLine "WRMV 0x480, 0x500, 0x540" = some [.wrm 0x480 0x500, .wrm 0x484 0x540] ∧
    assembleLine "SETC1 0.25, 0.25, -0.5"
      = some [.wr 10 0x3E800000, .wr 11 0x3E800000, .wr 13 0xBF000000] ∧
    assembleLine "RDM 0x100" = some [.rdm 0x100] ∧ assembleLine "POR" = some [.por] ∧
    assembleLine "LP1 FS" = none := by decide +kernel

/-! ### Witnesses: states that meet the hypotheses of the statements, a case for each clause -/

/-- Every parameter register is written: `FP = 500`, `BW = 1`, `GAIN = 2`, and the mixes of L2.3. -/
def design : State := built (base ++ [(.fp, 0x43FA0000), (.bw, 0x3F800000), (.gain, 0x40000000),
  (.cx, 0x3F000000), (.clp, 0x3E800000), (.cbp, 0xBF000000), (.chp, 0x40000000)]) []

/-- Parameters in their domains whose warp ratio overflows: every result check fails. -/
def badDesign : State :=
  ((design.setReg .fs gMin).setReg .fc fMax).setReg .gain 0x3F800000

/-- Every engine register is written: `C2`, `X = 1`, a zero state, two samples or channels. -/
def engine : State := built (c2 ++ [(.x, 0x3F800000), (.y, 0), (.s1, 0), (.s2, 0), (.xptr, 0x100),
  (.yptr, 0x200), (.sptr, 0x300), (.ns, 2), (.nch, 2)]) (run 0x100 [0x3F800000, 0x40000000])

/-- A state whose host performs one operation. -/
def pending (op : HostOp) (s : State) : State := { s with hostQueue := [op] }

/-- A state that a fault has halted. -/
def haltedState : State := faultEntry ⟨.registerAccess, 24, 0⟩ 0 design

/-- The frequencies at the ends of their ranges are in their domains. -/
def edgeDesign : State := ((design.setReg .fs 0x00000001).setReg .fc fMin).setReg .fp fMax

theorem witness_DecodeIffEncode : decode 0x1853 = .ok .rstm2Ys ∧ (0x1853 : Word) = encode .rstm2Ys := by
  decide +kernel
theorem witness_LegalWordsAreTheTableRows : decode 0x110 = .ok (.lp1 true) ∧
    (0x110 : Word) &&& rowMask (.lp1 true) = rowMatch (.lp1 true) := by decide +kernel
theorem witness_StepRunsTheDecodedCommand :
    (pending (.wr 31 0x10) design).hostQueue = [.wr 31 0x10] ∧
    (pending (.wr 31 0x10) design).halted = false ∧ decode 0x10 = .ok (.lp1 false) ∧
    State.reset.halted = false ∧ decodeTableWord 32 0x728 = some (.peak2BwDb true) := by
  decide +kernel
theorem witness_CommandRegister :
    (pending (.wr 31 0x10) design).hostQueue = [.wr 31 0x10] ∧ design.halted = false ∧
    decode 0x10 = .ok (.lp1 false) ∧ isCommand 0x43 = false ∧
    (pending (.wr 31 0x43) design).hostQueue = [.wr 31 0x43] ∧ haltedState.halted = true ∧
    (pending (.wr 31 0x10) haltedState).hostQueue = [.wr 31 0x10] ∧
    (pending (.rd 31) design).hostQueue = [.rd 31] ∧
    (pending .por haltedState).hostQueue = [.por] := by decide +kernel
theorem witness_HostWritesValueRegister :
    (pending (.wr ((regNum .nch).castLE (by decide)) 7) haltedState).hostQueue = [.wr 23 7] ∧
    (pending (.wr ((regNum .fs).castLE (by decide)) 7) design).hostQueue = [.wr 0 7] := by
  decide +kernel
theorem witness_ReservedRegisters : design.halted = false ∧ haltedState.halted = true ∧
    24 ≤ (24 : Fin 32).val ∧ (26 : Fin 32).val ≤ 26 ∧
    (pending (.wr 24 5) design).hostQueue = [.wr 24 5] ∧
    (pending (.rd 26) design).hostQueue = [.rd 26] ∧
    (pending (.wr 26 5) haltedState).hostQueue = [.wr 26 5] ∧
    (pending (.rd 24) haltedState).hostQueue = [.rd 24] := by decide +kernel
theorem witness_ReadOnlyRegisters : design.halted = false ∧ haltedState.halted = true ∧
    27 ≤ (27 : Fin 32).val ∧ (30 : Fin 32).val ≤ 30 ∧
    (pending (.wr 27 5) design).hostQueue = [.wr 27 5] ∧
    (pending (.wr 30 5) haltedState).hostQueue = [.wr 30 5] := by decide +kernel
theorem witness_HostReadsRegister :
    (pending (.rd ((regNum .nch).castLE (by decide))) design).hostQueue = [.rd 23] ∧
    ([27, 28, 29, 30].all fun n => (pending (.rd n) haltedState).hostQueue == [.rd n]) = true := by
  decide +kernel
theorem witness_HostMemoryAccess : design.halted = false ∧ haltedState.halted = true ∧
    ¬((0xFFFE : Word).toNat % 4 = 0 ∧ (0xFFFE : Word).toNat + 4 ≤ design.params.memSize) ∧
    ¬((0x10000 : Word).toNat % 4 = 0 ∧ (0x10000 : Word).toNat + 4 ≤ design.params.memSize) ∧
    (0xFFFC : Word).toNat % 4 = 0 ∧ (0xFFFC : Word).toNat + 4 ≤ design.params.memSize ∧
    (pending (.wrm 0xFFFC 7) design).hostQueue = [.wrm 0xFFFC 7] ∧
    (pending (.rdm 0x10000) haltedState).hostQueue = [.rdm 0x10000] := by decide +kernel
theorem witness_PowerOnReset : (pending .por haltedState).hostQueue = [.por] := by decide +kernel
theorem witness_HaltedUntilPowerOnReset : haltedState.halted = true ∧ (.wr 31 0x10 : HostOp) ≠ .por ∧
    HostOp.wellFormed haltedState.params (.wr 24 5) = false ∧
    (pending .por haltedState).hostQueue = [.por] := by decide +kernel
theorem inv_design : design.Inv := ⟨by decide +kernel, by decide +kernel, by decide +kernel,
  by decide +kernel, .inl (by decide +kernel)⟩
theorem witness_StepKeepsInvariant : design.Inv ∧ step design = .next design := 
  ⟨inv_design, step_idle (by decide +kernel)⟩
theorem witness_StepAnswersNext : design.hostQueue = [] := by decide +kernel
/-- `exec` answers a next state, so every hypothesis `exec i s = .next t` is met by `after i s`. -/
theorem witness_exec (i : Instr) (s : State) : exec i s = .next (after i s) := by
  obtain ⟨t, h⟩ := exec_answers_next i s
  rw [after, h]
theorem witness_CommandsAndTheFaultRegisters :
    (after (.lp1 false) design).halted = false ∧ (after (.lp1 false) badDesign).halted = true ∧
    designerPf .rst1 = none ∧ engineOrder (.lp1 false) = none ∧ isBatch (.lp1 false) = false := by
  decide +kernel
theorem witness_CommandsWriteOnlyTheirWriteSet : Reg.b2 ∉ writeSet (.lp1 false) ∧
    isBatch (.lp1 false) = false ∧ ((engine.setReg .ns 0).reg .ns).toNat = 0 := by decide +kernel
theorem witness_BatchCommandsWriteOnlyTheirRuns :
    (Instr.rstm1Ys, Order.first, true, true) ∈ rstmCommands ∧
    ¬inRun (engine.reg .yptr).toNat (engine.reg .ns).toNat 0x208 ∧
    ¬inRun (engine.reg .yptr).toNat (engine.reg .nch).toNat 0x1FF ∧
    ¬inRun (engine.reg .sptr).toNat (orderWords .first * (engine.reg .nch).toNat) 0x308 := by
  decide +kernel
theorem witness_RegistersOutsideTheReadSetDoNotMatter : Reg.b0 ∉ readSet (.lp1 false) ∧
    Reg.fp ∉ readSet (.lp1 false) ∧ Reg.s2 ∉ readSet .proc1 := by decide +kernel
theorem witness_UnwrittenRegisterFaultsFirst : Reg.fp ∈ readSet (.lp1 true) ∧
    (built base []).written .fp = false ∧
    (∀ r' ∈ readSet (.lp1 true), (regNum r').val < (regNum .fp).val →
      (built base []).written r' = true) := by decide +kernel
theorem witness_FaultsBeforeTheFirstWriteArePrecise : badDesign.halted = false ∧
    (after (.lp1 false) badDesign).halted = true ∧ isBatch (.lp1 false) = false ∧
    (after (.lp1 false) badDesign).status ∈ [0x104#32] := by decide +kernel

/-- The designers' hypotheses on the registers hold of every designer at once. -/
theorem witness_designers : (∀ i ∈ allCommands, (designerPf i).isSome → allWritten design (readSet i))
    ∧ frequenciesOk true design ∧ inDomain qMin (design.reg .q) qMax ∧
    linearGain design false (design.reg .gain) ∧
    linearGain design true (design.num.dB2linF (design.reg .gain)) ∧
    frequenciesOk true edgeDesign := by
  decide +kernel
theorem witness_FrequencyDomainFaults : designerPf (.lp1 true) = some true ∧
    ¬(F32.isFinite ((design.setReg .fs 0).reg .fs) = true ∧
      F32.lt 0 ((design.setReg .fs 0).reg .fs) = true) ∧
    ¬inDomain 0x358637BD ((design.setReg .fc 0x358637BC).reg .fc) 0x5368D4A5 ∧
    F32.isFinite (design.reg .fs) = true ∧ F32.lt 0 (design.reg .fs) = true ∧
    inDomain 0x358637BD (design.reg .fc) 0x5368D4A5 ∧
    ¬inDomain 0x358637BD ((design.setReg .fp 0x5368D4A6).reg .fp) 0x5368D4A5 := by decide +kernel
theorem witness_WidthDomainFaults : Reg.q ∈ readSet (.lp2 false) ∧
    ¬inDomain 0x358637BD ((design.setReg .q 0x49742401).reg .q) 0x49742400 ∧
    ¬(F32.isFinite ((design.setReg .bw 0x42B40001).reg .bw) = true ∧
      F32.lt 0 ((design.setReg .bw 0x42B40001).reg .bw) = true ∧
      F32.le ((design.setReg .bw 0x42B40001).reg .bw) 0x42B40000 = true) := by decide +kernel
theorem witness_GainDomainFaults :
    ¬inDomain 0x0DA24260 ((design.setReg .gain 0x0DA2425F).reg .gain) 0x7149F2CA ∧
    ¬inDomain 0xC4160000 ((design.setReg .gain 0x44160001).reg .gain) 0x44160000 ∧
    F32.isFinite (design.reg .bw) = true ∧ F32.lt 0 (design.reg .bw) = true ∧
    F32.le (design.reg .bw) bwMax = true := by decide +kernel
theorem witness_MixDomainFaults : F32.isFinite ((design.setReg .chp 0x7F800000).reg .chp) = false ∧
    (∀ r' ∈ [Reg.cx, .clp, .cbp, .chp], (regNum r').val < (regNum .chp).val →
      F32.isFinite ((design.setReg .chp 0x7F800000).reg r') = true) ∧
    F32.isFinite ((design.setReg .cx 0x7FC00000).reg .cx) = false := by decide +kernel
/-- A gain of `1e30` takes the shelves' cutoffs out of range, and 90 octaves at unit gain the `Q`. -/
theorem witness_DerivedDomainFaults :
    let g := (design.setReg .gain gMax).setReg .fc 0x41200000
    let h := (design.setReg .gain gMax).setReg .fc fMax
    let b := (design.setReg .gain 0x3F800000).setReg .bw bwMax
    frequenciesOk false g ∧ linearGain g false gMax ∧
    ¬inDomain fMin (g.num.div (g.reg .fc) (g.num.sqrtF gMax)) fMax ∧
    ¬inDomain fMin (h.num.mul (h.reg .fc) (h.num.sqrtF gMax)) fMax ∧
    ¬inDomain fMin (g.num.div (g.reg .fc) (g.num.sqrtF (g.num.sqrtF gMax))) fMax ∧
    ¬inDomain fMin (h.num.mul (h.reg .fc) (h.num.sqrtF (h.num.sqrtF gMax))) fMax ∧
    F32.isFinite (b.reg .bw) = true ∧ F32.lt 0 (b.reg .bw) = true ∧
    F32.le (b.reg .bw) bwMax = true ∧
    ¬inDomain 0x358637BD (bwToQ b.num (b.reg .bw) 0x3F800000) 0x49742400 := by decide +kernel
/-- The first-order results: a valid set, and one that is not. -/
theorem witness_first_order_results :
    let k := fun s fe => warpRatio s.num (s.reg .fs) (s.reg .fc) fe false (s.reg .fp)
    let fl := design.num.div (design.reg .fc) (design.num.sqrtF (design.reg .gain))
    let fh := design.num.mul (design.reg .fc) (design.num.sqrtF (design.reg .gain))
    inDomain fMin fl fMax ∧ inDomain fMin fh fMax ∧
    ([(design.reg .fc, 0x00000000, 0x3F800000), (design.reg .fc, 0x3F800000, 0x00000000),
      (design.reg .fc, 0xBF800000, 0x3F800000), (fl, 0x3F800000, design.reg .gain),
      (fh, design.reg .gain, 0x3F800000),
      (design.reg .fc, design.reg .cx, design.num.add (design.reg .cx) (design.reg .clp))].all fun p =>
      coefsValid design.num (.first (bl1 design.num.toArith (k design p.1) p.2.1 p.2.2))) = true ∧
    allWritten badDesign (readSet (.ls1 true)) ∧ frequenciesOk true badDesign ∧
    linearGain badDesign false 0x3F800000 ∧
    coefsValid badDesign.num (.first (bl1 badDesign.num.toArith (k badDesign fMax) 0x3F800000
      0x3F800000)) = false := by decide +kernel
/-- The second-order results: a valid set, and one that is not. -/
theorem witness_second_order_results :
    let k := fun s fe => warpRatio s.num (s.reg .fs) (s.reg .fc) fe false (s.reg .fp)
    let g := design.reg .gain
    let r := design.num.sqrtF g
    let fl := design.num.div (design.reg .fc) (design.num.sqrtF r)
    let fh := design.num.mul (design.reg .fc) (design.num.sqrtF r)
    let qb := bwToQ design.num (design.reg .bw) g
    inDomain fMin fl fMax ∧ inDomain fMin fh fMax ∧ inDomain qMin qb qMax ∧
    ([(design.reg .fc, design.reg .q, 0x00000000, 0x00000000, 0x3F800000),
      (design.reg .fc, design.reg .q, 0x3F800000, 0x00000000, 0x00000000),
      (design.reg .fc, design.reg .q, 0x3F800000, 0xBF800000, 0x3F800000),
      (design.reg .fc, design.reg .q, 0x3F800000, 0x00000000, 0x3F800000),
      (design.reg .fc, design.reg .q, 0x00000000, design.reg .q, 0x00000000),
      (fl, design.reg .q, 0x3F800000, r, g), (fh, design.reg .q, g, r, 0x3F800000),
      (design.reg .fc, design.reg .q, 0x3F800000, g, 0x3F800000),
      (design.reg .fc, qb, 0x3F800000, g, 0x3F800000)].all fun p =>
      coefsValid design.num (.second (bl2 design.num.toArith (k design p.1) p.2.1 p.2.2.1 p.2.2.2.1
        p.2.2.2.2))) = true ∧
    allWritten badDesign (readSet (.ls2 true)) ∧ inDomain qMin (badDesign.reg .q) qMax ∧
    coefsValid badDesign.num (.second (bl2 badDesign.num.toArith (k badDesign fMax)
      (badDesign.reg .q) 0x3F800000 0x3F800000 0x3F800000)) = false := by decide +kernel
theorem witness_Mm2Result :
    let s := design
    F32.isFinite (s.reg .cx) = true ∧ F32.isFinite (s.reg .clp) = true ∧
    F32.isFinite (s.reg .cbp) = true ∧ F32.isFinite (s.reg .chp) = true ∧
    coefsValid s.num (.second (bl2 s.num.toArith
      (warpRatio s.num (s.reg .fs) (s.reg .fc) (s.reg .fc) false (s.reg .fp)) (s.reg .q)
      (s.num.add (s.reg .cx) (s.reg .chp))
      (s.num.add (s.reg .cx) (s.num.mul (s.reg .cbp) (s.reg .q)))
      (s.num.add (s.reg .cx) (s.reg .clp)))) = true := by decide +kernel
theorem witness_DesignedCoefficientsAreValid : designerPf (.hs2Db false) = some false ∧
    (after (.hs2Db false) design).halted = false := by decide +kernel
theorem witness_DecibelCommandsAreWrappers : design.halted = false ∧ design.written .gain = true ∧
    inDomain 0xC4160000 (design.reg .gain) 0x44160000 := by decide +kernel
theorem witness_MultiModeSpecialCases :
    let s := (design.setReg .cx 0xBF800000).setReg .clp 0x40000000
    let t := (((design.setReg .cx 0).setReg .clp 0).setReg .cbp 0).setReg .chp 0x3F800000
    allWritten s (readSet (.mm1 false)) ∧ s.reg .cx = 0xBF800000 ∧ s.reg .clp = 0x40000000 ∧
    allWritten t (readSet (.mm2 false)) ∧ t.reg .cx = 0 ∧ t.reg .clp = 0 ∧ t.reg .cbp = 0 ∧
    t.reg .chp = 0x3F800000 ∧ s.halted = false ∧ (after (.ap1 false) s).halted = false ∧
    (after (.hp2 false) t).halted = false := by decide +kernel
theorem witness_MultiModeSpecialCases_bp2 :
    let s := (((design.setReg .cx 0).setReg .clp 0).setReg .cbp 0x3F800000).setReg .chp 0
    allWritten s (readSet (.mm2 true)) ∧ s.reg .cx = 0 ∧ s.reg .clp = 0 ∧ s.reg .cbp = 0x3F800000 ∧
    s.reg .chp = 0 ∧ s.halted = false ∧ (after (.bp2 true) s).halted = false := by decide +kernel
/-- At `q = 1` the products are exact. -/
theorem witness_MultiModeSpecialCases_products :
    let s := (((design.setReg .q 0x3F800000).setReg .cx 0x3F800000).setReg .clp 0).setReg .chp 0
    let n := s.setReg .cbp 0xBF800000
    let a := s.setReg .cbp 0xC0000000
    allWritten n (readSet (.mm2 false)) ∧ allWritten a (readSet (.mm2 false)) ∧
    F32.isFinite (n.reg .cbp) = true ∧ n.num.mul (n.reg .cbp) (n.reg .q) = 0xBF800000 ∧
    F32.isFinite (a.reg .cbp) = true ∧ a.num.mul (a.reg .cbp) (a.reg .q) = 0xC0000000 ∧
    (n.setReg .clp 0xBF800000).reg .clp = 0xBF800000 ∧ n.reg .cx = 0x3F800000 ∧ n.reg .clp = 0 ∧
    n.reg .chp = 0 ∧ (after (.notch2 false) n).halted = false ∧
    (after (.ap2 false) a).halted = false := by decide +kernel
theorem witness_IdealDesignGainsAndStability : (0 : Rat) < 1 / 1000 := by norm_num

/-- The engine commands' hypotheses on the registers hold of every engine command at once. -/
theorem witness_engine : (∀ i ∈ allCommands, (engineOrder i).isSome → allWritten engine (readSet i)) ∧
    coefsValid engine.num (loadCoef .first engine) = true ∧
    coefsValid engine.num (loadCoef .second engine) = true ∧
    cellFinite .first (regCell .first engine) = true ∧
    cellFinite .second (regCell .second engine) = true := by decide +kernel
theorem witness_InvalidCoefficientsFault : engineOrder .procm2 = some .second ∧
    allWritten (engine.setReg .a2 0x3F800001) (readSet .procm2) ∧
    coefsValid engine.num (loadCoef .second (engine.setReg .a2 0x3F800001)) = false ∧
    engineOrder .rst1 = some .first ∧
    coefsValid engine.num (loadCoef .first (engine.setReg .a1 0xBF800001)) = false := by
  decide +kernel
/-- The resets: a finite result, an input that is not finite, a result that is not. -/
theorem witness_Rst1Result : F32.isFinite (engine.reg .x) = true ∧
    F32.isFinite (resetValues engine.num (loadCoef .first engine) (engine.reg .x)).1 = true ∧
    F32.isFinite (resetValues engine.num (loadCoef .first engine) (engine.reg .x)).2.s1 = true ∧
    F32.isFinite ((engine.setReg .x 0x7F800000).reg .x) = false ∧
    (let s := ((engine.setReg .b0 0x7F000000).setReg .b1 0x7F000000).setReg .a1 0x3F800000
     coefsValid s.num (loadCoef .first s) = true ∧
     F32.isFinite (resetValues s.num (loadCoef .first s) (s.reg .x)).1 = false) := by decide +kernel
theorem witness_Rst2Result : F32.isFinite (engine.reg .x) = true ∧
    F32.isFinite (resetValues engine.num (loadCoef .second engine) (engine.reg .x)).1 = true ∧
    cellFinite .second (resetValues engine.num (loadCoef .second engine) (engine.reg .x)).2 = true ∧
    F32.isFinite ((engine.setReg .x 0xFF800000).reg .x) = false ∧
    (let s := (engine.setReg .b0 0x7F000000).setReg .b1 0x7F7FFFFF
     coefsValid s.num (loadCoef .second s) = true ∧
     F32.isFinite (resetValues s.num (loadCoef .second s) (s.reg .x)).1 = false) := by decide +kernel
theorem witness_Proc1Result_runs :
    F32.isFinite (stepValues engine.num (loadCoef .first engine) (engine.reg .x)
      (regCell .first engine)).1 = true ∧
    cellFinite .first (stepValues engine.num (loadCoef .first engine) (engine.reg .x)
      (regCell .first engine)).2 = true := by decide +kernel
theorem witness_Proc1Result_value : F32.isFinite ((engine.setReg .x 0x7F800000).reg .x) = false := by
  decide +kernel
/-- The largest finite input and state: the output overflows. -/
def overflowing : State := (engine.setReg .x 0x7F7FFFFF).setReg .s1 0x7F7FFFFF
theorem witness_Proc1Result_output :
    F32.isFinite (overflowing.reg .x) = true ∧ F32.isFinite (overflowing.reg .s1) = true ∧
    F32.isFinite (stepValues overflowing.num (loadCoef .first overflowing) (overflowing.reg .x)
      (regCell .first overflowing)).1 = false := by decide +kernel
theorem witness_Proc2Result_runs :
    F32.isFinite (stepValues engine.num (loadCoef .second engine) (engine.reg .x)
      (regCell .second engine)).1 = true ∧
    cellFinite .second (stepValues engine.num (loadCoef .second engine) (engine.reg .x)
      (regCell .second engine)).2 = true := by decide +kernel
theorem witness_Proc2Result_value : F32.isFinite ((engine.setReg .s2 0x7FC00000).reg .s2) = false := by
  decide +kernel
theorem witness_Proc2Result_output :
    F32.isFinite (overflowing.reg .x) = true ∧ cellFinite .second (regCell .second overflowing) = true ∧
    F32.isFinite (stepValues overflowing.num (loadCoef .second overflowing) (overflowing.reg .x)
      (regCell .second overflowing)).1 = false := by decide +kernel

/-! The batches: `engine` has two inputs at `0x100`, outputs at `0x200`, cells at `0x300`. -/

theorem witness_ProcnCompletes :
    let s := engine
    (s.reg .ns).toNat = 2 ∧ runInMemory s 0x100 2 ∧ runInMemory s 0x200 2 ∧ sameOrApart 0x100 0x200 2 ∧
    runHolds s.params.byteOrder s.mem 0x100 [0x3F800000, 0x40000000] ∧
    (channelRun s.num (loadCoef .first s) (regCell .first s) [0x3F800000, 0x40000000]).isSome = true ∧
    (channelRun s.num (loadCoef .second s) (regCell .second s) [0x3F800000, 0x40000000]).isSome = true ∧
    ((s.setReg .ns 0).reg .ns).toNat = 0 ∧ runHolds s.params.byteOrder s.mem 3 [] ∧
    (channelRun s.num (loadCoef .first s) (regCell .first s) []).isSome = true := by decide +kernel
theorem witness_ProcnChecks :
    cellFinite .first (regCell .first (engine.setReg .s1 0x7F800000)) = false ∧
    ¬runInMemory engine 0xFFFC 2 ∧ ¬runInMemory engine 0x102 2 ∧ runInMemory engine 0xFFF8 2 ∧
    ¬sameOrApart 0x100 0x104 2 ∧ sameOrApart 0x100 0x108 2 := by decide +kernel
/-- The second input is unwritten, is not finite, or makes the output overflow. -/
theorem witness_ProcnFaultKeepsCompletedSamples :
    let s := engine.setReg .xptr 0x104
    let t := engine.memWrite 0x104 0x7F800000
    let u := (engine.memWrite 0x100 0x7F7FFFFF).memWrite 0x104 0x7F7FFFFF
    let v := u.setReg .b0 0x40000000
    runHolds s.params.byteOrder s.mem 0x104 [0x40000000] ∧
    (channelRun s.num (loadCoef .first s) (regCell .first s) [0x40000000]).isSome = true ∧
    s.memRead (wordAddr 0x104 1) = none ∧
    runHolds t.params.byteOrder t.mem 0x100 [0x3F800000] ∧
    t.memRead (wordAddr 0x100 1) = some 0x7F800000 ∧ F32.isFinite 0x7F800000 = false ∧
    v.memRead (wordAddr 0x100 0) = some 0x7F7FFFFF ∧
    channelRun v.num (loadCoef .first v) (regCell .first v) [0x7F7FFFFF] = none := by decide +kernel
theorem witness_BatchEqualsScalarLoop :
    engine.halted = false ∧ (scalarLoop .proc1 [0x3F800000, 0x40000000] engine).2.halted = false ∧
    (scalarLoop .proc2 [0x3F800000, 0x7F800000] engine).2.halted = true := by decide +kernel
theorem witness_RstmCompletes_runs : (∀ p ∈ rstmCommands, allWritten engine (readSet p.1)) ∧
    runInMemory engine 0x100 2 ∧ runInMemory engine 0x200 2 ∧ sameOrApart 0x100 0x200 2 ∧
    (∀ o ∈ [Order.first, .second], runInMemory engine 0x300 (orderWords o * 2) ∧
      apart 0x300 (orderWords o * 2) 0x100 2 ∧ apart 0x300 (orderWords o * 2) 0x200 2) ∧
    ((engine.setReg .nch 0).reg .nch).toNat = 0 := by decide +kernel
theorem witness_RstmCompletes_values : ([(Order.first, 0x3F800000#32), (.first, 0x40000000),
    (.second, 0x3F800000), (.second, 0x40000000)].all fun p => F32.isFinite p.2 &&
      F32.isFinite (resetValues engine.num (loadCoef p.1 engine) p.2).1 &&
      cellFinite p.1 (resetValues engine.num (loadCoef p.1 engine) p.2).2) = true := by decide +kernel
/-- Every check at the edge it fails at, and each of the three faults at channel 0. -/
theorem witness_RstmFaults : (engine.reg .nch).toNat = 2 ∧
    ¬runInMemory engine 0xFFFC 2 ∧ ¬runInMemory engine 0xFFF4 (orderWords .second * 2) ∧
    ¬apart 0x104 (orderWords .first * 2) 0x100 2 ∧ ¬sameOrApart 0x100 0x104 2 ∧
    (engine.setReg .xptr 0x108).memRead (wordAddr 0x108 0) = none ∧
    (engine.memWrite 0x100 0x7FC00000).memRead (wordAddr 0x100 0) = some 0x7FC00000 ∧
    F32.isFinite 0x7FC00000 = false ∧
    (let s := ((engine.setReg .b0 0x7F000000).setReg .b1 0x7F000000).setReg .a1 0x3F800000
     coefsValid s.num (loadCoef .first s) = true ∧ s.memRead (wordAddr 0x100 0) = some 0x3F800000 ∧
     F32.isFinite (resetValues s.num (loadCoef .first s) 0x3F800000).1 = false) := by decide +kernel

/-! `procm2State` has two channels of two samples; its input and output bases and its cells: -/

def inputBase (c : Nat) : Word := if c = 0 then 0x500 else 0x540
def outputBase (c : Nat) : Word := if c = 0 then 0x600 else 0x800
def inputs (c : Nat) : List Word := if c = 0 then [0x40000000, 0x40000000] else [0x3F800000, 0]
def startCell (c : Nat) : Cell Word :=
  if c = 0 then ⟨0x3FC00000, 0xBF000000⟩ else ⟨0xBF400000, 0x3E800000⟩

theorem witness_ProcmCompletes_runs :
    allWritten procm2State (readSet .procm2) ∧
    coefsValid procm2State.num (loadCoef .second procm2State) = true ∧
    runInMemory procm2State 0x480 2 ∧ runInMemory procm2State 0x4C0 2 ∧
    runInMemory procm2State 0x400 (orderWords .second * 2) ∧
    ((procm2State.setReg .nch 0).reg .nch).toNat = 0 ∧
    ((procm2State.setReg .ns 0).reg .ns).toNat = 0 := by decide +kernel
theorem witness_ProcmCompletes_pointers : ∀ c < 2,
    procm2State.memRead (wordAddr 0x480 c) = some (inputBase c) ∧
    procm2State.memRead (wordAddr 0x4C0 c) = some (outputBase c) ∧
    runInMemory procm2State (inputBase c).toNat 2 ∧
    runInMemory procm2State (outputBase c).toNat 2 := by decide +kernel
theorem witness_ProcmCompletes_channels : ∀ c < 2, ∀ c' < 2, c ≠ c' →
    apart (outputBase c).toNat 2 (outputBase c').toNat 2 ∧
    apart (outputBase c).toNat 2 (inputBase c').toNat 2 := by decide +kernel
theorem witness_ProcmCompletes_apart : (∀ c < 2, sameOrApart (outputBase c).toNat (inputBase c).toNat 2 ∧
    apart 0x400 (orderWords .second * 2) (inputBase c).toNat 2 ∧
    apart 0x400 (orderWords .second * 2) (outputBase c).toNat 2 ∧
    apart 0x480 2 (outputBase c).toNat 2 ∧ apart 0x4C0 2 (outputBase c).toNat 2) ∧
    apart 0x480 2 0x400 (orderWords .second * 2) ∧
    apart 0x4C0 2 0x400 (orderWords .second * 2) := by decide +kernel
theorem witness_ProcmCompletes_values : ∀ c < 2, (inputs c).length = 2 ∧
    runHolds procm2State.params.byteOrder procm2State.mem (inputBase c).toNat (inputs c) ∧
    cellHolds procm2State.params.byteOrder .second procm2State.mem
      (cellAddr (orderWords .second) 0x400 c) (startCell c) ∧
    (channelRun procm2State.num (loadCoef .second procm2State) (startCell c) (inputs c)).isSome
      = true := by decide +kernel
/-- Every check of `PROCM` fails somewhere: the runs, a pointer, a channel's run, the contract. -/
theorem witness_ProcmChecks :
    let s := procm2State
    ¬runInMemory s 0xFFFC 2 ∧ ¬runInMemory s 0xFFF4 (orderWords .second * 2) ∧
    s.memRead (wordAddr 0x484 0) = some 0x540 ∧ s.memRead (wordAddr 0x484 1) = none ∧
    (s.memWrite 0x484 0xFFFC).memRead (wordAddr 0x480 1) = some 0xFFFC ∧
    ¬runInMemory s (0xFFFC : Word).toNat 2 ∧
    (s.memWrite 0x4C4 0x600).memRead (wordAddr 0x4C0 1) = some 0x600 ∧
    ¬apart 0x600 2 0x600 2 := by decide +kernel
/-- The mid-run fault of L2.7: channel 1 stops at sample 1, channel 0 has done two samples. -/
theorem witness_ProcmFaultKeepsCompletedSteps :
    let s := procm1State 0x700 [0x3F800000, 0x3F800000] [0x3F800000, 0x7FC00000]
    let st : Cell Word := ⟨0, 0⟩
    allWritten s (readSet .procm1) ∧ coefsValid s.num (loadCoef .first s) = true ∧
    runHolds s.params.byteOrder s.mem 0x500 [0x3F800000, 0x3F800000] ∧
    runHolds s.params.byteOrder s.mem 0x540 [0x3F800000] ∧ cellFinite .first st = true ∧
    (∀ c < 2, cellHolds s.params.byteOrder .first s.mem (cellAddr (orderWords .first) 0x400 c) st) ∧
    (channelRun s.num (loadCoef .first s) st [0x3F800000, 0x3F800000]).isSome = true ∧
    (channelRun s.num (loadCoef .first s) st [0x3F800000]).isSome = true ∧
    s.memRead (wordAddr 0x540 1) = some 0x7FC00000 ∧ F32.isFinite 0x7FC00000 = false ∧
    s.memRead (wordAddr 0x540 2) = none ∧
    channelRun s.num (loadCoef .first (s.setReg .b0 0x7F7FFFFF)) st [0x40000000] = none := by
  decide +kernel
/-- A cell that is not finite: channel 1 stops at sample 0. -/
theorem witness_ProcmFaultKeepsCompletedSteps_cell :
    let s := (procm1State 0x700 [0x3F800000, 0x3F800000] [0x3F800000, 0]).memWrite 0x404 0x7F800000
    cellHolds s.params.byteOrder .first s.mem (cellAddr (orderWords .first) 0x400 1)
      ⟨0x7F800000, 0⟩ ∧ s.memRead (wordAddr 0x540 0) = some 0x3F800000 ∧
    cellFinite .first ⟨0x7F800000, 0⟩ = false := by decide +kernel
/-- A cell that is not written, in both orders, and one whose second word is not: channel 1 stops at
sample 0, channel 0 has done it. -/
theorem witness_ProcmFaultKeepsCompletedSteps_unwritten :
    let s := (procm1State 0x700 [0x3F800000, 0] [0x3F800000, 0]).setReg .sptr 0x404
    let t := procm2State.setReg .sptr 0x408
    let u := procm2NoS2
    cellHolds s.params.byteOrder .first s.mem (cellAddr (orderWords .first) 0x404 0) ⟨0, 0⟩ ∧
    s.memRead (wordAddr 0x540 0) = some 0x3F800000 ∧
    s.memRead (cellAddr (orderWords .first) 0x404 1) = none ∧
    cellHolds u.params.byteOrder .second u.mem (cellAddr (orderWords .second) 0x408 0)
      ⟨0xBF400000, 0x3E800000⟩ ∧
    t.memRead (wordAddr 0x540 0) = some 0x3F800000 ∧
    t.memRead (cellAddr (orderWords .second) 0x408 1) = none ∧
    u.memRead (wordAddr 0x540 0) = some 0x3F800000 ∧
    u.memRead (cellAddr (orderWords .second) 0x408 1) = some 0 ∧
    u.memRead (cellAddr (orderWords .second) 0x408 1 + 4) = none := by decide +kernel
theorem witness_ProcmFaultKeepsCompletedSteps_unwritten_runs :
    runInMemory procm2NoS2 0x408 (orderWords .second * 2) ∧
    apart 0x480 2 0x408 (orderWords .second * 2) ∧ apart 0x4C0 2 0x408 (orderWords .second * 2) ∧
    (∀ c < 2, apart 0x408 (orderWords .second * 2) (inputBase c).toNat 2 ∧
      apart 0x408 (orderWords .second * 2) (outputBase c).toNat 2) ∧
    (channelRun procm2NoS2.num (loadCoef .second procm2NoS2) ⟨0xBF400000, 0x3E800000⟩
      [0x40000000]).isSome = true := by decide +kernel
theorem witness_ChannelsAreIndependent : procm2State.halted = false ∧
    (after .procm2 procm2State).halted = false ∧ (procm2State.reg .ns).toNat ≠ 0 ∧
    1 < (procm2State.reg .nch).toNat ∧
    procm2State.memRead (wordAddr (procm2State.reg .xptr).toNat 1) = some 0x540 ∧
    procm2State.memRead (wordAddr (procm2State.reg .yptr).toNat 1) = some 0x800 ∧
    cellHolds procm2State.params.byteOrder .second procm2State.mem
      (cellAddr (orderWords .second) (procm2State.reg .sptr).toNat 1) ⟨0xBF400000, 0x3E800000⟩ := by
  decide +kernel
theorem witness_IdealResetIsAFixedPoint : (1 : Rat) + 1 / 2 ≠ 0 ∧ (1 : Rat) + 1 / 2 + 1 / 3 ≠ 0 ∧
    (-1 : Rat) / 2 + -1 / 2 = -1 := by norm_num
theorem witness_EngineStoresOnlyFiniteValues : engineOrder .procn1 = some .first ∧
    (after .procn1 engine).halted = false ∧
    (after .procn1 (engine.memWrite 0x104 0x7F800000)).halted = true := by decide +kernel
theorem witness_HostRoundTrip : (0xFFFC : Word).toNat % 4 = 0 ∧
    (0xFFFC : Word).toNat + 4 ≤ haltedState.params.memSize := by decide +kernel

end Sys2Proof.Tests
end

section
/-! The invariant of `Safety.lean` is kept by every step (O14). A command's procedure keeps it: it
changes no fault register and writes memory only in aligned words in range. A fault entry keeps it:
every raise of a command or of the host port is a legal record of R342. -/

namespace Sys2Proof.Machine

/-! ### Records and raises, field by field -/

section
variable (size : Nat) (w info ch : Word)

@[simp] theorem recordLegal_illegalCommand : recordLegal size .illegalCommand w info ch
    = (!isCommand w && info == 0 && ch == 0) := rfl

@[simp] theorem recordLegal_unwrittenRegister : recordLegal size .unwrittenRegister w info ch
    = (isCommand w && decide (info.toNat < 24) && ch == 0) := rfl

@[simp] theorem recordLegal_paramDomain : recordLegal size .paramDomain w info ch
    = (isCommand w && [0, 1, 2, 3, 4, 5, 6, 7, 8, 9, 0x101, 0x102, 0x103].contains info.toNat
      && ch == 0) := rfl

@[simp] theorem recordLegal_designResult : recordLegal size .designResult w info ch
    = (isCommand w && info == 0 && ch == 0) := rfl

@[simp] theorem recordLegal_coeffInvalid : recordLegal size .coeffInvalid w info ch
    = (isCommand w && info == 0 && ch == 0) := rfl

@[simp] theorem recordLegal_valueNonfinite :
    recordLegal size .valueNonfinite w info ch = isCommand w := rfl

@[simp] theorem recordLegal_outputNonfinite :
    recordLegal size .outputNonfinite w info ch = isCommand w := rfl

@[simp] theorem recordLegal_accessFault : recordLegal size .accessFault w info ch
    = (isCommand w || (w == 0 && ch == 0)) := rfl

@[simp] theorem recordLegal_aliasViolation : recordLegal size .aliasViolation w info ch
    = (isCommand w && info == 0 && ch == 0) := rfl

@[simp] theorem recordLegal_unwrittenMemory : recordLegal size .unwrittenMemory w info ch
    = (isCommand w && info.toNat % 4 == 0 && decide (info.toNat + 4 ≤ size)) := rfl

@[simp] theorem recordLegal_registerAccess : recordLegal size .registerAccess w info ch
    = (w == 0 && decide (24 ≤ info.toNat) && decide (info.toNat ≤ 30) && ch == 0) := rfl

end

@[simp] theorem raiseWith_cause (c : Cause) (n ch : Nat) : (raiseWith c n ch).cause = c := rfl

@[simp] theorem raiseWith_info (c : Cause) (n ch : Nat) :
    (raiseWith c n ch).info = BitVec.ofNat 32 n := rfl

@[simp] theorem raiseWith_ch (c : Cause) (n ch : Nat) :
    (raiseWith c n ch).ch = BitVec.ofNat 32 ch := rfl

/-! ### Raises with a legal record -/

theorem designRaise_recordLegal {r : Raise} (h : designRaise r) (size : Nat) {w : Word}
    (hw : isCommand w = true) : recordLegal size r.cause w r.info r.ch = true := by
  obtain ⟨n, hn, rfl⟩ | rfl := h
  · have hlt : n < 2 ^ 32 := by
      have hmax : ∀ k ∈ [0, 1, 2, 3, 4, 5, 6, 7, 8, 9, 0x101, 0x102, 0x103], k ≤ 0x103 := by decide
      have := hmax n hn
      omega
    show recordLegal size .paramDomain w (BitVec.ofNat 32 n) 0 = true
    rw [recordLegal_paramDomain, hw, BitVec.toNat_ofNat, Nat.mod_eq_of_lt hlt,
      List.contains_iff_mem.mpr hn]
    rfl
  · simp [hw]

theorem engineRaise_recordLegal {r : Raise} (h : engineRaise r) (size : Nat) {w : Word}
    (hw : isCommand w = true) : recordLegal size r.cause w r.info r.ch = true := by
  obtain rfl | hc | hc := h
  · simp [hw]
  · rw [hc]; exact hw
  · rw [hc]; exact hw

/-- The address of an `UNWRITTEN_MEMORY` stays aligned and in range when cut to 32 bits. -/
theorem batchRaise_recordLegal {r : Raise} {size : Nat} (h : batchRaise size r) {w : Word}
    (hw : isCommand w = true) : recordLegal size r.cause w r.info r.ch = true := by
  obtain h | hc | rfl | ⟨a, ch, rfl, h4, hs⟩ := h
  · exact engineRaise_recordLegal h size hw
  · simp [hc, hw]
  · simp [hw]
  · simp only [raiseWith_cause, raiseWith_info, recordLegal_unwrittenMemory, hw,
      BitVec.toNat_ofNat, Bool.true_and, Bool.and_eq_true, beq_iff_eq, decide_eq_true_eq]
    omega

/-- A command is a designer or an engine command (`30_encoding.md` R101). -/
theorem engineOrder_or_designerPf_eq_none (i : Instr) :
    engineOrder i = none ∨ designerPf i = none := by
  cases i <;> first | exact .inl rfl | exact .inr rfl

/-- What a command's procedure raises is a legal record under the command's word (R342). -/
theorem bodyOf_raised_recordLegal {i : Instr} {s t : State} {r : Raise}
    (h : bodyOf i s = .raised r t) :
    recordLegal s.params.memSize r.cause (encode i) r.info r.ch = true := by
  have hw := isCommand_encode i
  cases hb : isBatch i with
  | true => exact batchRaise_recordLegal (bodyOf_raises_batch hb h) hw
  | false =>
    rcases engineOrder_or_designerPf_eq_none i with hd | he
    · exact designRaise_recordLegal (bodyOf_raises_design hd h) _ hw
    · exact engineRaise_recordLegal (bodyOf_raises_engine he hb h) _ hw

theorem unwrittenRegister_recordLegal (size : Nat) (r : Reg) {w : Word} (hw : isCommand w = true) :
    recordLegal size .unwrittenRegister w (BitVec.ofNat 32 (regNum r).val) 0 = true := by
  have hr := (regNum r).isLt
  simp only [recordLegal_unwrittenRegister, hw, BitVec.toNat_ofNat, Bool.true_and,
    Bool.and_eq_true, decide_eq_true_eq, BEq.rfl, and_true]
  omega

theorem registerAccess_recordLegal (size : Nat) {n : Nat} (h : 24 ≤ n) (h' : n ≤ 30) :
    recordLegal size .registerAccess 0 (BitVec.ofNat 32 n) 0 = true := by
  simp only [recordLegal_registerAccess, BitVec.toNat_ofNat, Bool.and_eq_true, decide_eq_true_eq,
    BEq.rfl, true_and, and_true]
  omega

/-! ### Updates that keep the invariant -/

theorem Keeps.faultRegsLegal {rs : List Reg} {s t : State} (hk : Keeps rs s t)
    (h : faultRegsLegal s) : faultRegsLegal t := by
  obtain ⟨hh, h1, h2, h3, h4⟩ | ⟨hh, c, hc, hr⟩ := h
  · exact .inl ⟨hk.halted.trans hh, hk.status.trans h1, hk.fcmd.trans h2, hk.finfo.trans h3,
      hk.fch.trans h4⟩
  · refine .inr ⟨hk.halted.trans hh, c, hk.status.trans hc, ?_⟩
    rwa [hk.params, hk.fcmd, hk.finfo, hk.fch]

theorem State.Inv.faultEntry {s : State} (h : s.Inv) {r : Raise} {w : Word}
    (hr : recordLegal s.params.memSize r.cause w r.info r.ch = true) : (faultEntry r w s).Inv :=
  { h with faultRegs := .inr ⟨rfl, r.cause, rfl, hr⟩ }

theorem State.Inv.storeCommand {s : State} (h : s.Inv) (w : Word) : (storeCommand w s).Inv :=
  { h with }

theorem State.Inv.recordRead {s : State} (h : s.Inv) (r : HostRead) : (recordRead r s).Inv :=
  { h with }

theorem State.Inv.powerOnReset {s : State} (h : s.Inv) : (powerOnReset s).Inv where
  params := h.params
  canonical := List.Pairwise.nil
  wholeWords := rfl
  inside := rfl
  faultRegs := .inl ⟨rfl, rfl, rfl, rfl, rfl⟩

/-- An aligned write in range keeps the invariant (`20_memory.md` R70, R76). -/
theorem State.Inv.memWrite {s : State} (h : s.Inv) {a : Nat} (h4 : a % 4 = 0)
    (hs : a + 4 ≤ s.params.memSize) (v : Word) : (s.memWrite a v).Inv :=
  { h with
    canonical := wf_writeWord _ _ _ h.canonical
    wholeWords := wholeWords_writeWord _ _ h4 h.wholeWords
    inside := inside_writeWord _ _ hs h.inside }

theorem State.Inv.hostFault {s : State} (h : s.Inv) {c : Cause} {n : Nat}
    (hr : recordLegal s.params.memSize c 0 (BitVec.ofNat 32 n) 0 = true) :
    (hostFault c n s).Inv := by
  cases hh : s.halted with
  | true => rwa [hostFault_halted c n hh]
  | false => rw [hostFault_running c n hh]; exact h.faultEntry hr

/-! ### Commands -/

/-- A command's procedure keeps the invariant, also where it stops with a fault (R346). -/
theorem State.Inv.bodyOf {s : State} (h : s.Inv) (i : Instr) : (bodyOf i s).state.Inv := by
  have hk := bodyOf_keeps i s
  obtain ⟨hw, hh, hi⟩ := (bodyOf_wrote i s).keeps (fun _ _ ⟨h4, hs, _⟩ => ⟨h4, hs⟩)
    h.canonical h.wholeWords h.inside
  exact ⟨hk.params ▸ h.params, hw, hh, hk.params ▸ hi, hk.faultRegsLegal h.faultRegs⟩

theorem exec_keeps_inv {i : Instr} {s t : State} (h : s.Inv) (ht : exec i s = .next t) : t.Inv := by
  have hbody := h.bodyOf i
  have hp := (bodyOf_keeps i s).params
  rcases exec_cases i s with ⟨r, _, e⟩ | ⟨_, ⟨u, hb, e⟩ | ⟨r, u, hb, e⟩⟩ <;>
    obtain rfl := Host.Outcome.next.inj (e.symm.trans ht)
  · exact h.faultEntry (unwrittenRegister_recordLegal _ r (isCommand_encode i))
  · rwa [hb] at hbody
  · rw [hb] at hbody hp
    exact hbody.faultEntry (congrArg Params.memSize hp ▸ bodyOf_raised_recordLegal hb)

theorem issueCommand_keeps_inv {w : Word} {s t : State} (h : s.Inv)
    (ht : issueCommand w s = .next t) : t.Inv := by
  cases hh : s.halted with
  | true =>
    rw [issueCommand_halted w hh] at ht
    cases ht
    exact h
  | false =>
    cases hw : isCommand w with
    | true =>
      obtain ⟨i, hi⟩ := isCommand_iff.mp hw
      rw [issueCommand_legal hh hi] at ht
      exact exec_keeps_inv (h.storeCommand w) ht
    | false =>
      rw [issueCommand_illegal hh hw] at ht
      cases ht
      exact (h.storeCommand w).faultEntry (by simp [hw])

/-! ### The host port -/

theorem hostWriteReg_keeps_inv {n : Fin 32} {v : Word} {s t : State} (h : s.Inv)
    (ht : hostWriteReg n v s = .next t) : t.Inv := by
  obtain hn | hn | rfl : n.val < 24 ∨ (24 ≤ n.val ∧ n.val ≤ 30) ∨ n = 31 := by omega
  · rw [hostWriteReg_below hn] at ht
    cases ht
    exact { h with }
  · rw [hostWriteReg_other hn.1 hn.2] at ht
    cases ht
    exact h.hostFault (registerAccess_recordLegal _ hn.1 hn.2)
  · exact issueCommand_keeps_inv h (hostWriteReg_cmd v s ▸ ht)

theorem State.Inv.hostReadReg {s : State} (h : s.Inv) (n : Fin 32) : (hostReadReg n s).Inv := by
  by_cases hn : 24 ≤ n.val ∧ n.val ≤ 26
  · rw [hostReadReg_reserved hn.1 hn.2]
    exact (h.recordRead _).hostFault (registerAccess_recordLegal _ hn.1 (by omega))
  · rw [hostReadReg_readable (by omega)]
    exact h.recordRead _

theorem State.Inv.hostWriteMem {s : State} (h : s.Inv) (a v : Word) : (hostWriteMem a v s).Inv := by
  by_cases ha : hostAddrOk a s = true
  · rw [hostWriteMem_ok ha]
    obtain ⟨h4, hs⟩ := hostAddrOk_iff.mp ha
    exact h.memWrite h4 hs v
  · rw [hostWriteMem_bad ha]
    exact h.hostFault (by simp)

theorem State.Inv.hostReadMem {s : State} (h : s.Inv) (a : Word) : (hostReadMem a s).Inv := by
  by_cases ha : hostAddrOk a s = true
  · rw [hostReadMem_ok ha]
    exact h.recordRead _
  · rw [hostReadMem_bad ha]
    exact (h.recordRead _).hostFault (by simp)

theorem hostOperation_keeps_inv {op : HostOp} {s t : State} (h : s.Inv)
    (ht : hostOperation op s = .next t) : t.Inv := by
  cases op with
  | wr n v => exact hostWriteReg_keeps_inv h ht
  | rd n => cases ht; exact h.hostReadReg n
  | wrm a v => cases ht; exact h.hostWriteMem a v
  | rdm a => cases ht; exact h.hostReadMem a
  | por => cases ht; exact h.powerOnReset

/-- Settles O14: an idle step changes nothing, and every host action keeps the invariant. -/
theorem stepKeepsInvariant : Obligations.StepKeepsInvariant := by
  intro s t h ht
  cases hq : s.hostQueue with
  | nil =>
    rw [step_idle hq] at ht
    cases ht
    exact h
  | cons op rest =>
    rw [step_cons hq] at ht
    exact hostOperation_keeps_inv (s := { s with hostQueue := rest }) { h with } ht

end Sys2Proof.Machine
end

section
/-! The host's view of the registers and power-on reset (`10_state.md`; O6 to O10, O12, O15), and the
first fault of a command, `UNWRITTEN_REGISTER` (O21). Each statement about the port follows from the
operation's law in `Laws/HostPort.lean` at the state that has taken the action from the queue. -/

namespace Sys2Proof.Machine

/-! ### Fault entries -/

@[simp] theorem statusOfCause_unwrittenRegister : statusOfCause .unwrittenRegister = 0x102 := rfl

@[simp] theorem statusOfCause_registerAccess : statusOfCause .registerAccess = 0x10B := rfl

/-- Fault entry of a raise with `ch = 0` (`60_exceptions.md` R344). -/
theorem faultEntry_raiseWith (c : Cause) (n : Nat) (w : Word) (s : State) :
    faultEntry (raiseWith c n 0) w s = { s with
      status := statusOfCause c, fcmd := w, finfo := BitVec.ofNat 32 n, fch := 0,
      halted := true } := rfl

/-- A command whose lowest unwritten register is `r` enters `UNWRITTEN_REGISTER(info = r)` and does
nothing else (`30_encoding.md` R104). -/
theorem exec_of_firstUnwritten {i : Instr} {s : State} {r : Reg}
    (h : firstUnwritten s (readSet i) = some r) :
    exec i s = .next { s with
      status := 0x102, fcmd := encode i, finfo := BitVec.ofNat 32 (regNum r).val, fch := 0,
      halted := true } := by
  rcases exec_cases i s with ⟨r', hr', he⟩ | ⟨hw, _⟩
  · obtain rfl : r = r' := Option.some.inj (h.symm.trans hr')
    rw [he, faultEntry_raiseWith, statusOfCause_unwrittenRegister]
  · exact absurd h (by simp [firstUnwritten_none.mpr hw])

/-- `REGISTER_ACCESS(info = n)` of a running block (`10_state.md` R36 to R40). -/
theorem hostFault_registerAccess {s : State} (n : Nat) (h : s.halted = false) :
    hostFault .registerAccess n s = { s with
      status := 0x10B, fcmd := 0, finfo := BitVec.ofNat 32 n, fch := 0, halted := true } := by
  rw [hostFault_running _ _ h, faultEntry_raiseWith, statusOfCause_registerAccess]

/-! ### Register actions of the host, as steps -/

section
variable {s : State} {n : Fin 32} {v : Word} {rest : List HostOp}

theorem step_wr (h : s.hostQueue = .wr n v :: rest) :
    step s = hostWriteReg n v { s with hostQueue := rest } := step_cons h

theorem step_rd (h : s.hostQueue = .rd n :: rest) :
    step s = .next (hostReadReg n { s with hostQueue := rest }) := step_cons h

theorem step_por (h : s.hostQueue = .por :: rest) :
    step s = .next (powerOnReset { s with hostQueue := rest }) := step_cons h

theorem step_wr_cmd (h : s.hostQueue = .wr 31 v :: rest) :
    step s = issueCommand v { s with hostQueue := rest } :=
  (step_wr h).trans (hostWriteReg_cmd v _)

/-- A write of a reserved or read-only register (R36 to R40). -/
theorem step_wr_other (h : s.hostQueue = .wr n v :: rest) (hn : 24 ≤ n.val) (hn' : n.val ≤ 30) :
    step s = .next (hostFault .registerAccess n.val { s with hostQueue := rest }) :=
  (step_wr h).trans (hostWriteReg_other hn hn' v _)

/-- A write of a reserved or read-only register is a fault of a running block. -/
theorem step_wr_other_running (h : s.hostQueue = .wr n v :: rest) (hn : 24 ≤ n.val)
    (hn' : n.val ≤ 30) (hh : s.halted = false) :
    step s = .next { s with
      hostQueue := rest, status := 0x10B, fcmd := 0, finfo := BitVec.ofNat 32 n.val, fch := 0,
      halted := true } := by
  rw [step_wr_other h hn hn', hostFault_registerAccess]
  exact hh

/-- A halted block ignores a write of a reserved or read-only register. -/
theorem step_wr_other_halted (h : s.hostQueue = .wr n v :: rest) (hn : 24 ≤ n.val)
    (hn' : n.val ≤ 30) (hh : s.halted = true) : step s = .next { s with hostQueue := rest } := by
  rw [step_wr_other h hn hn', hostFault_halted]
  exact hh

/-- A read of a register that is not reserved records what the register returns (R71). -/
theorem step_rd_readable (h : s.hostQueue = .rd n :: rest) (hn : n.val < 24 ∨ 27 ≤ n.val) :
    step s = .next { s with
      hostQueue := rest, observed := .reg n (hostRegValue n s) :: s.observed } := by
  rw [step_rd h, hostReadReg_readable hn]
  rfl

/-- A read of a reserved register finds no value (R36). -/
theorem step_rd_reserved (h : s.hostQueue = .rd n :: rest) (hn : 24 ≤ n.val) (hn' : n.val ≤ 26) :
    step s = .next (hostFault .registerAccess n.val { s with
      hostQueue := rest, observed := .reg n none :: s.observed }) := by
  rw [step_rd h, hostReadReg_reserved hn hn']
  rfl

end

/-! ### The statements -/

/-- Settles O21: the read set ascends in register number, so the lowest unwritten register is the one
the written-bit check finds. -/
theorem unwrittenRegisterFaultsFirst : Obligations.UnwrittenRegisterFaultsFirst := by
  intro i s r hr hw hlow
  exact exec_of_firstUnwritten (firstUnwritten_eq_some hr hw hlow)

/-- Settles O6: the four cases of R41, each by the law of `issueCommand`, of a register read or of
power-on reset. -/
theorem commandRegister : Obligations.CommandRegister := by
  intro s rest
  refine ⟨fun w hq hh => ⟨fun i hd => ?legal, fun hw => ?illegal⟩, fun w hq hh => ?halted,
    fun hq => ?read, fun hq => ?reset⟩
  case legal => exact (step_wr_cmd hq).trans (issueCommand_legal hh hd)
  case illegal => exact (step_wr_cmd hq).trans (issueCommand_illegal hh hw)
  case halted => exact (step_wr_cmd hq).trans (issueCommand_halted w hh)
  case read => exact step_rd_readable hq (by decide)
  case reset => exact ⟨_, step_por hq, powerOnReset_cmdWr _⟩

/-- Settles O7: the step is `setReg`, which changes the register and its written-bit alone. -/
theorem hostWritesValueRegister : Obligations.HostWritesValueRegister := by
  intro s r v rest hq
  refine ⟨_, (step_wr hq).trans (hostWriteReg_value r v _), reg_setReg_same _ r v,
    written_setReg_same _ r v, fun r' hr => ?others, rfl⟩
  case others => exact ⟨reg_setReg_ne _ v hr.symm, written_setReg_ne _ v hr.symm⟩

/-- Settles O8: a running block faults on any access of a reserved register; a halted one ignores a
write and returns no value to a read. -/
theorem reservedRegisters : Obligations.ReservedRegisters := by
  intro s n rest hn hn'
  refine ⟨fun hh => ⟨fun v hq => ?writeRunning, fun hq => ⟨.reg n none :: s.observed, ?readRunning⟩⟩,
    fun hh => ⟨fun v hq => ?writeHalted, fun hq => ?readHalted⟩⟩
  case writeRunning => exact step_wr_other_running hq hn (by omega) hh
  case readRunning =>
    rw [step_rd_reserved hq hn hn', hostFault_registerAccess]
    exact hh
  case writeHalted => exact step_wr_other_halted hq hn (by omega) hh
  case readHalted =>
    rw [step_rd_reserved hq hn hn', hostFault_halted]
    exact hh

/-- Settles O9: a read-only register takes the same path as a reserved one. -/
theorem readOnlyRegisters : Obligations.ReadOnlyRegisters := by
  intro s n v rest hn hn' hq
  exact ⟨step_wr_other_running hq (by omega) hn', step_wr_other_halted hq (by omega) hn'⟩

/-- Settles O10: a value register by its written-bit, the fault registers always. -/
theorem hostReadsRegister : Obligations.HostReadsRegister := by
  intro s rest
  refine ⟨fun r hq => ?value, fun hq => ?fcmd, fun hq => ?finfo, fun hq => ?fch, fun hq => ?status⟩
  case value =>
    rw [step_rd hq, hostReadReg_value]
    rfl
  all_goals exact step_rd_readable hq (by decide)

/-- Settles O12: POR puts every field but the configuration and the host's own at its reset value, so
the reset state reads the same. (`powerOnReset` is the model's own operation.) -/
theorem powerOnResetClearsState : Obligations.PowerOnReset := by
  refine ⟨fun s rest hq => ⟨_, step_por hq, written_powerOnReset _, ?_⟩,
    written_powerOnReset .reset, ?_⟩
  · exact ⟨rfl, fun _ => rfl, rfl, rfl, rfl, rfl, rfl, rfl⟩
  · exact ⟨rfl, fun _ => rfl, rfl, rfl, rfl, rfl, rfl⟩

/-- Settles O15: the memory is empty and the fault registers are 0. -/
theorem resetMeetsInvariant : Obligations.ResetMeetsInvariant where
  params := by decide
  canonical := List.Pairwise.nil
  wholeWords := rfl
  inside := rfl
  faultRegs := .inl ⟨rfl, rfl, rfl, rfl, rfl⟩

end Sys2Proof.Machine
end

section
/-! The data memory (`20_memory.md`): what each batch command leaves unchanged (O19), and the host's
memory port (O11). A batch command's writes lie at the places that `Laws/Batch.lean` gives its
procedure, so a byte in none of their words is kept. -/

namespace Sys2Proof.Machine

/-! ### The procedure of a batch command -/

theorem bodyOf_procnCommand (o : Order) : bodyOf (procnCommand o) = procnBody o := by
  cases o <;> rfl

theorem bodyOf_procmCommand (o : Order) : bodyOf (procmCommand o) = procmBody o := by
  cases o <;> rfl

theorem bodyOf_rstmCommands :
    ∀ p ∈ rstmCommands, bodyOf p.1 = rstmBody p.2.1 p.2.2.1 p.2.2.2 := by
  simp [rstmCommands, bodyOf]

/-! ### Bytes that a batch command leaves alone -/

/-- A byte in none of the words where the command's procedure may write reads as before, whether the
command completes or faults (`60_exceptions.md` R346). -/
theorem exec_readByte_outside {i : Instr} {s t : State} {place : Nat → Prop} {x : Nat}
    (h : exec i s = .next t)
    (hw : Wrote s.params.byteOrder (allowedWrite s place) s.mem (bodyOf i s).state.mem)
    (hx : ∀ a, place a → x < a ∨ a + 4 ≤ x) : readByte t.mem x = readByte s.mem x :=
  (exec_wrote h hw).outside fun a _ ⟨_, _, _, hp⟩ => hx a hp

/-- `PROCN` writes in its output run alone (R78, `44_engine_process.md` R304). -/
theorem exec_procn_readByte {o : Order} {s t : State} {x : Nat}
    (h : exec (procnCommand o) s = .next t)
    (hx : ¬inRun (s.reg .yptr).toNat (s.reg .ns).toNat x) :
    readByte t.mem x = readByte s.mem x :=
  exec_readByte_outside h (bodyOf_procnCommand o ▸ procnBody_wrote o s) fun _ ha =>
    inRunWords_inRun ha hx

/-- `RSTM` writes in its wanted arrays alone (R80, R81, `43_engine_reset.md` R277). -/
theorem exec_rstm_readByte {i : Instr} {o : Order} {wy ws : Bool} {s t : State} {x : Nat}
    (hi : (i, o, wy, ws) ∈ rstmCommands) (h : exec i s = .next t)
    (hy : wy = true → ¬inRun (s.reg .yptr).toNat (s.reg .nch).toNat x)
    (hs : ws = true → ¬inRun (s.reg .sptr).toNat (orderWords o * (s.reg .nch).toNat) x) :
    readByte t.mem x = readByte s.mem x := by
  have hb : bodyOf i = rstmBody o wy ws := bodyOf_rstmCommands _ hi
  refine exec_readByte_outside h (hb ▸ rstmBody_wrote o wy ws s) ?_
  rintro a (⟨hwy, ha⟩ | ⟨hws, ha⟩)
  · exact inRunWords_inRun ha (hy hwy)
  · exact inCells_inRun ha (hs hws)

/-- `PROCM` writes in the channels' output runs and the state array alone. The output bases are the
pointer words of the state before the command (R79, R80, `44_engine_process.md` R307). -/
theorem exec_procm_readByte {o : Order} {s t : State} {x : Nat}
    (h : exec (procmCommand o) s = .next t)
    (hy : ∀ (c : Nat) (v : Word), c < (s.reg .nch).toNat →
      s.memRead (wordAddr (s.reg .yptr).toNat c) = some v → ¬inRun v.toNat (s.reg .ns).toNat x)
    (hs : ¬inRun (s.reg .sptr).toNat (orderWords o * (s.reg .nch).toNat) x) :
    readByte t.mem x = readByte s.mem x := by
  refine exec_readByte_outside h (bodyOf_procmCommand o ▸ procmBody_wrote o s) ?_
  rintro a (⟨c, v, hc, hv, ha⟩ | ha)
  · exact inRunWords_inRun ha (hy c v hc hv)
  · exact inCells_inRun ha hs

/-! ### Memory actions of the host, as steps -/

@[simp] theorem statusOfCause_accessFault : statusOfCause .accessFault = 0x108 := rfl

/-- `ACCESS_FAULT(info = a)` of a running block (R71). -/
theorem hostFault_accessFault {s : State} (a : Word) (h : s.halted = false) :
    hostFault .accessFault a.toNat s = { s with
      status := 0x108, fcmd := 0, finfo := a, fch := 0, halted := true } := by
  rw [hostFault_running _ _ h, faultEntry_raiseWith, statusOfCause_accessFault, BitVec.ofNat_toNat,
    BitVec.setWidth_eq]

section
variable {s : State} {a v : Word} {rest : List HostOp}

theorem step_wrm (h : s.hostQueue = .wrm a v :: rest) :
    step s = .next (hostWriteMem a v { s with hostQueue := rest }) := step_cons h

theorem step_rdm (h : s.hostQueue = .rdm a :: rest) :
    step s = .next (hostReadMem a { s with hostQueue := rest }) := step_cons h

/-- A write at an address that is aligned and in range (R71). -/
theorem step_wrm_ok (h : s.hostQueue = .wrm a v :: rest) (ha : hostAddrOk a s = true) :
    step s = .next { s with
      hostQueue := rest, mem := writeWord s.params.byteOrder s.mem a.toNat v } := by
  rw [step_wrm h, hostWriteMem_ok (s := { s with hostQueue := rest }) ha]
  rfl

/-- A write at another address goes to the fault of the port. -/
theorem step_wrm_bad (h : s.hostQueue = .wrm a v :: rest) (ha : ¬hostAddrOk a s = true) :
    step s = .next (hostFault .accessFault a.toNat { s with hostQueue := rest }) := by
  rw [step_wrm h, hostWriteMem_bad (s := { s with hostQueue := rest }) ha]

/-- A read at an address that is aligned and in range (R71, R76). -/
theorem step_rdm_ok (h : s.hostQueue = .rdm a :: rest) (ha : hostAddrOk a s = true) :
    step s = .next { s with
      hostQueue := rest, observed := .mem a (s.memRead a.toNat) :: s.observed } := by
  rw [step_rdm h, hostReadMem_ok (s := { s with hostQueue := rest }) ha]
  rfl

/-- A read at another address finds no value and goes to the fault of the port. -/
theorem step_rdm_bad (h : s.hostQueue = .rdm a :: rest) (ha : ¬hostAddrOk a s = true) :
    step s = .next (hostFault .accessFault a.toNat { s with
      hostQueue := rest, observed := .mem a none :: s.observed }) := by
  rw [step_rdm h, hostReadMem_bad (s := { s with hostQueue := rest }) ha]
  rfl

end

/-! ### The statements -/

/-- Settles O19: each of the three kinds of batch command by its own frame. -/
theorem batchCommandsWriteOnlyTheirRuns : Obligations.BatchCommandsWriteOnlyTheirRuns :=
  ⟨fun _ _ _ h _ => exec_procn_readByte h,
    fun _ _ _ _ hi _ _ h _ => exec_rstm_readByte hi h,
    fun _ _ _ h _ => exec_procm_readByte h⟩

/-- Settles O11: the address check splits the accesses, and `halted` splits those it rejects. -/
theorem hostMemoryAccess : Obligations.HostMemoryAccess := by
  intro s a rest
  refine ⟨fun hbad => ?rejected, fun h4 hs => ?accepted⟩
  case rejected =>
    have ha : ¬hostAddrOk a s = true := hostAddrOk_iff.not.mpr hbad
    refine ⟨fun hh => ⟨fun v hq => ?writeRunning,
        fun hq => ⟨.mem a none :: s.observed, ?readRunning⟩⟩,
      fun hh => ⟨fun v hq => ?writeHalted, fun hq => ?readHalted⟩⟩
    case writeRunning =>
      rw [step_wrm_bad hq ha, hostFault_accessFault]
      exact hh
    case readRunning =>
      rw [step_rdm_bad hq ha, hostFault_accessFault]
      exact hh
    case writeHalted =>
      rw [step_wrm_bad hq ha, hostFault_halted]
      exact hh
    case readHalted =>
      rw [step_rdm_bad hq ha, hostFault_halted]
      exact hh
  case accepted =>
    have ha : hostAddrOk a s = true := hostAddrOk_iff.mpr ⟨h4, hs⟩
    refine ⟨fun v hq => ⟨_, step_wrm_ok hq ha, readWord_writeWord_same _ _ _ v,
        fun x hx => ?outside⟩,
      fun hq => step_rdm_ok hq ha⟩
    case outside => exact readByte_writeWord_outside _ _ v (by omega)

end Sys2Proof.Machine
end

section
/-! Encoding (`30_encoding.md`; O1 to O5) and what a command leaves unchanged in the fault registers
and the registers (O17, O18). A word decodes to a command exactly when it is the command's word, so
the statements about words become statements about the finitely many commands. -/

namespace Sys2Proof

/-! ### Words and commands -/

/-- The decoder and the encoder are inverse to each other (`30_encoding.md` R105, R108). -/
theorem decode_eq_ok_iff {w : Word} {i : Instr} : decode w = .ok i ↔ w = encode i := by
  constructor
  · intro h
    obtain ⟨h0, hf⟩ := decode_ok h
    rw [encode, hf, fieldsWord_wordFields h0]
  · rintro rfl
    exact decode_encode i

namespace Machine

theorem isCommand_iff_encode {w : Word} : isCommand w = true ↔ ∃ i, w = encode i := by
  simp only [isCommand_iff, decode_eq_ok_iff]

theorem decode_toOption_eq_some {w : Word} {i : Instr} :
    (decode w).toOption = some i ↔ decode w = .ok i := by
  cases decode w <;> simp [Except.toOption]

theorem decodeTableWord_eq_some {nbits w : Nat} {i : Instr} :
    decodeTableWord nbits w = some i ↔ decode (BitVec.ofNat 32 (w % 2 ^ nbits)) = .ok i := by
  unfold decodeTableWord
  cases decode (BitVec.ofNat 32 (w % 2 ^ nbits)) <;> simp

/-! ### The list of all commands -/

theorem mem_allCommands (i : Instr) : i ∈ allCommands := by
  cases i <;> simp [allCommands]

theorem allCommands_nodup : allCommands.Nodup := by decide

theorem allCommands_length : allCommands.length = 58 := rfl

/-- What is decided for the listed commands holds of every command. -/
theorem forall_of_allCommands {P : Instr → Prop} (h : ∀ i ∈ allCommands, P i) (i : Instr) : P i :=
  h i (mem_allCommands i)

/-! ### Legal fields (R103) -/

/-- A command's fields are legal. -/
theorem instrFields_wellFormed (i : Instr) : (instrFields i).wellFormed = true :=
  forall_of_allCommands (P := fun i => (instrFields i).wellFormed = true) (by decide) i

/-- On each assigned operation, the flags that R103 makes legal are those of a command: that of the
operation's kind. -/
theorem instrOfKind_fields : ∀ op ∈ CmdFields.assignedOps, ∀ pf db bw wy ws : Bool,
    CmdFields.wellFormed ⟨op, pf, db, bw, wy, ws⟩ = true →
    (kindOfOp op.toNat).map (fun k => instrFields (instrOfKind k pf db bw wy ws))
      = some ⟨op, pf, db, bw, wy, ws⟩ := by
  -- As `List.Forall`, it is decided over the listed operations alone, not over all 8-bit values.
  rw [← List.forall_iff_forall_mem]
  decide

/-- Legal fields are those of a command. -/
theorem exists_instrFields {f : CmdFields} (h : f.wellFormed = true) : ∃ i, instrFields i = f := by
  have hop : f.op ∈ CmdFields.assignedOps := by
    simp only [CmdFields.wellFormed, Bool.and_eq_true, CmdFields.opAssigned,
      List.contains_iff_mem] at h
    obtain ⟨⟨⟨⟨hop, _⟩, _⟩, _⟩, _⟩ := h
    exact hop
  obtain ⟨k, _, hf⟩ := Option.map_eq_some_iff.mp (instrOfKind_fields f.op hop _ _ _ _ _ h)
  exact ⟨_, hf⟩

/-! ### Rows of the opcode table (R108) -/

/-- A command's word matches the command's row. -/
theorem encode_matches (i : Instr) : encode i &&& rowMask i = rowMatch i :=
  forall_of_allCommands (P := fun i => encode i &&& rowMask i = rowMatch i) (by decide) i

/-- The words of a command's row: the row's `match`, and for a designer also that with `PF`. -/
def rowWords (i : Instr) : List Word :=
  if (designerPf i).isSome then [rowMatch i, rowMatch i ||| 0x100#32] else [rowMatch i]

/-- A word is its bits other than bit 8, with bit 8 set or not. -/
theorem word_eq_or_bit8 (w : Word) :
    w = w &&& 0xFFFFFEFF#32 ∨ w = w &&& 0xFFFFFEFF#32 ||| 0x100#32 := by
  have hsplit : w = w &&& 0xFFFFFEFF#32 ||| w &&& 0x100#32 := by
    rw [← BitVec.and_or_distrib_left, show 0xFFFFFEFF#32 ||| 0x100#32 = BitVec.allOnes 32 from rfl,
      BitVec.and_allOnes]
  have hbit : w &&& 0x100#32 = if w.getLsbD 8 then 0x100#32 else 0#32 := BitVec.and_twoPow w 8
  rw [hbit] at hsplit
  split at hsplit
  · exact .inr hsplit
  · rw [BitVec.or_zero] at hsplit
    exact .inl hsplit

/-- A word that matches a row is one of the row's words. -/
theorem mem_rowWords {w : Word} {i : Instr} (h : w &&& rowMask i = rowMatch i) :
    w ∈ rowWords i := by
  unfold rowMask at h
  unfold rowWords
  split at h
  · rw [if_pos ‹_›, ← h, List.mem_pair]
    exact word_eq_or_bit8 w
  · rw [if_neg ‹_›, ← h, List.mem_singleton]
    exact (BitVec.and_allOnes).symm

/-- The words of a row decode to commands of that row. -/
theorem rowWords_decode (i : Instr) :
    ∀ w ∈ rowWords i, ∃ j, decode w = .ok j ∧ rowMatch j = rowMatch i := by
  have h : ∀ i ∈ allCommands, (rowWords i).map (fun w => (decode w).toOption.map rowMatch)
      = (rowWords i).map fun _ => some (rowMatch i) := by decide
  intro w hw
  obtain ⟨j, hj, hm⟩ :=
    Option.map_eq_some_iff.mp (List.map_inj_left.mp (forall_of_allCommands h i) w hw)
  exact ⟨j, decode_toOption_eq_some.mp hj, hm⟩

/-! ### The statements about the encoding -/

/-- Settles O2: the encoder is the decoder's inverse. -/
theorem decodeIffEncode : Obligations.DecodeIffEncode := fun _ _ => decode_eq_ok_iff

/-- Settles O3: a legal word is a command's word, which its row matches; a word that a row matches
is one of the row's words, and these decode to commands of the row; the legal words are those of
the 58 commands. -/
theorem legalWordsAreTheTableRows : Obligations.LegalWordsAreTheTableRows := by
  refine ⟨by decide, by decide, fun w i hd => ?legal, fun w i hm => ?matched,
    allCommands.map encode, ?nodup, ?length, fun w => ?words⟩
  case legal =>
    obtain rfl := decode_eq_ok_iff.mp hd
    exact encode_matches i
  case matched => exact rowWords_decode i w (mem_rowWords hm)
  case nodup => exact allCommands_nodup.map fun _ _ => encode_inj
  case length => rw [List.length_map, allCommands_length]
  case words =>
    rw [isCommand_iff_encode, List.mem_map]
    exact ⟨fun ⟨i, _, hi⟩ => ⟨i, hi.symm⟩, fun ⟨i, hi⟩ => ⟨i, mem_allCommands i, hi.symm⟩⟩

/-- Settles O4: a command's fields are legal and legal fields are a command's, and a word whose
reserved bits are 0 is the word of its fields. -/
theorem decodeAcceptsExactlyTheLegalWords : Obligations.DecodeAcceptsExactlyTheLegalWords := by
  refine ⟨fun w => ⟨fun ⟨i, hd⟩ => ?legal, fun ⟨h0, hf⟩ => ?command⟩, fun w i hd => ?fields⟩
  case legal =>
    obtain ⟨h0, hf⟩ := decode_ok hd
    exact ⟨h0, hf ▸ instrFields_wellFormed i⟩
  case command =>
    obtain ⟨i, hi⟩ := exists_instrFields hf
    exact ⟨i, decode_eq_ok_iff.mpr (by rw [encode, hi, fieldsWord_wordFields h0])⟩
  case fields => exact (decode_ok hd).2

/-- Settles O1: the legal words are those of the encoder; of the others, operation `0x00` is not
assigned, `RSTM1` wants no output, `LP1` takes no gain, and a reserved bit is set. -/
theorem writtenOutWordsDecode : Obligations.WrittenOutWordsDecode := by
  unfold Obligations.WrittenOutWordsDecode
  simp only [decode_eq_ok_iff]
  decide

/-! ### A command as a step -/

/-- The step that takes a legal word to `CMD` stores the word and runs its command (R41, R104). -/
theorem step_wr_cmd_legal {s : State} {w : Word} {i : Instr} {rest : List HostOp}
    (hq : s.hostQueue = .wr 31 w :: rest) (hh : s.halted = false) (hd : decode w = .ok i) :
    step s = exec i { s with hostQueue := rest, cmd := w, cmdWr := true } :=
  (step_wr_cmd hq).trans (issueCommand_legal hh hd)

/-- Settles O5: the step stores the word and runs the command; a placed word is the queue's first
action, and it is the command's `encode`. -/
theorem stepRunsTheDecodedCommand : Obligations.StepRunsTheDecodedCommand := by
  refine ⟨fun s w i rest => step_wr_cmd_legal, fun s nbits w i hh hw => ?placed⟩
  case placed =>
    have hd := decodeTableWord_eq_some.mp hw
    rw [step_wr_cmd_legal (s := s.withFetchWord nbits w) rfl hh hd, decode_eq_ok_iff.mp hd]
    rfl

/-! ### What a command leaves unchanged -/

/-- What holds at the start of a command and after its procedure, and what a fault entry with the
command's word keeps, holds after the command (`30_encoding.md` R104). -/
theorem exec_property {P : State → Prop} {i : Instr} {s t : State} (h : exec i s = .next t)
    (hs : P s) (hb : P (bodyOf i s).state)
    (hf : ∀ r u, P u → P (faultEntry r (encode i) u)) : P t := by
  rcases exec_cases i s with ⟨r, _, e⟩ | ⟨_, ⟨u, hu, e⟩ | ⟨r, u, hu, e⟩⟩ <;>
    obtain rfl := Host.Outcome.next.inj (e.symm.trans h)
  · exact hf _ _ hs
  · rwa [hu] at hb
  · rw [hu] at hb
    exact hf _ _ hb

/-- The registers outside a command's write set, `CMD`, the configuration and the host's queue and
record are as before (R106). -/
def registerFrame (i : Instr) (s t : State) : Prop :=
  (∀ r, r ∉ writeSet i → t.reg r = s.reg r ∧ t.written r = s.written r) ∧
  t.cmd = s.cmd ∧ t.cmdWr = s.cmdWr ∧ t.params = s.params ∧ t.hostQueue = s.hostQueue ∧
  t.observed = s.observed

theorem Keeps.registerFrame {i : Instr} {s t : State} (h : Keeps (writeSet i) s t) :
    registerFrame i s t :=
  ⟨fun r hr => ⟨h.reg r hr, h.written r hr⟩, h.cmd, h.cmdWr, h.params, h.hostQueue, h.observed⟩

/-- Every command keeps its register frame, completed or faulted. -/
theorem exec_registerFrame {i : Instr} {s t : State} (h : exec i s = .next t) :
    registerFrame i s t :=
  exec_property h (Keeps.refl _ s).registerFrame (bodyOf_keeps i s).registerFrame fun _ _ hu => hu

/-- A command that is no batch leaves memory as it was (`20_memory.md` R70). -/
theorem exec_mem {i : Instr} (hb : isBatch i = false) {s t : State} (h : exec i s = .next t) :
    t.mem = s.mem :=
  exec_property (P := fun u => u.mem = s.mem) h rfl (bodyOf_mem hb s) fun _ _ hu => hu

/-- The procedure of a `PROCN` of no samples leaves the state as it was (`44_engine_process.md`
R304). -/
theorem bodyOf_procn_zero {i : Instr} (hi : i = .procn1 ∨ i = .procn2) {s : State}
    (h : (s.reg .ns).toNat = 0) : (bodyOf i s).state = s := by
  obtain rfl | rfl := hi <;> exact procnBody_zero h

/-- A `PROCN` of no samples leaves every register as it was. -/
theorem exec_procn_zero_regs {i : Instr} (hi : i = .procn1 ∨ i = .procn2) {s t : State}
    (hn : (s.reg .ns).toNat = 0) (h : exec i s = .next t) (r : Reg) :
    t.reg r = s.reg r ∧ t.written r = s.written r :=
  exec_property (P := fun u => u.reg r = s.reg r ∧ u.written r = s.written r) h ⟨rfl, rfl⟩
    ((bodyOf_procn_zero hi hn).symm ▸ ⟨rfl, rfl⟩) fun _ _ hu => hu

/-! ### The faults a command can enter -/

/-- A command is a designer or an engine command, not both (`30_encoding.md` R101). -/
theorem designerPf_eq_none_iff {i : Instr} : designerPf i = none ↔ engineOrder i ≠ none :=
  forall_of_allCommands (P := fun i => designerPf i = none ↔ engineOrder i ≠ none) (by decide) i

/-- No designer is a batch command. -/
theorem isBatch_eq_false_of_designer {i : Instr} (h : engineOrder i = none) :
    isBatch i = false :=
  forall_of_allCommands (P := fun i => engineOrder i = none → isBatch i = false) (by decide) i h

/-- The causes a command of this kind can raise (`60_exceptions.md` R341). -/
def commandCause (i : Instr) (c : Cause) : Prop :=
  c ≠ .illegalCommand ∧ c ≠ .registerAccess ∧
  (designerPf i = none → c ≠ .paramDomain ∧ c ≠ .designResult) ∧
  (engineOrder i = none → c = .unwrittenRegister ∨ c = .paramDomain ∨ c = .designResult) ∧
  (isBatch i = false → c ≠ .accessFault ∧ c ≠ .aliasViolation ∧ c ≠ .unwrittenMemory)

theorem commandCause_unwrittenRegister (i : Instr) : commandCause i .unwrittenRegister := by
  simp [commandCause]

theorem commandCause_of_designRaise {i : Instr} (hi : engineOrder i = none) {r : Raise}
    (h : designRaise r) : commandCause i r.cause := by
  have hd : designerPf i ≠ none := designerPf_eq_none_iff.not.mpr (by simp [hi])
  obtain ⟨n, _, rfl⟩ | rfl := h
  · simp [commandCause, paramDomain, hd]
  · simp [commandCause, hd]

theorem commandCause_of_engineRaise {i : Instr} (hi : engineOrder i ≠ none) {r : Raise}
    (h : engineRaise r) : commandCause i r.cause := by
  obtain rfl | hc | hc := h
  · simp [commandCause, hi]
  · simp [commandCause, hi, hc]
  · simp [commandCause, hi, hc]

theorem commandCause_of_batchRaise {i : Instr} (hb : isBatch i = true) {size : Nat} {r : Raise}
    (h : batchRaise size r) : commandCause i r.cause := by
  have hi : engineOrder i ≠ none := fun hi => by simp [isBatch_eq_false_of_designer hi] at hb
  obtain h | hc | rfl | ⟨a, ch, rfl, _⟩ := h
  · exact commandCause_of_engineRaise hi h
  · simp [commandCause, hi, hb, hc]
  · simp [commandCause, hi, hb]
  · simp [commandCause, hi, hb]

/-- What a command's procedure raises has a cause of the command's kind. -/
theorem bodyOf_raised_commandCause {i : Instr} {s t : State} {r : Raise}
    (h : bodyOf i s = .raised r t) : commandCause i r.cause := by
  cases hb : isBatch i with
  | true => exact commandCause_of_batchRaise hb (bodyOf_raises_batch hb h)
  | false =>
    by_cases hi : engineOrder i = none
    · exact commandCause_of_designRaise hi (bodyOf_raises_design hi h)
    · exact commandCause_of_engineRaise hi
        (bodyOf_raises_engine (designerPf_eq_none_iff.mpr hi) hb h)

/-! ### The statements about the frames -/

/-- Settles O17: an unwritten register and a raise of the procedure enter a fault, with a cause of
the command's kind; a completed procedure keeps the fault registers. -/
theorem commandsAndTheFaultRegisters : Obligations.CommandsAndTheFaultRegisters := by
  intro i s t h
  rcases exec_cases i s with ⟨r, _, e⟩ | ⟨_, ⟨u, hu, e⟩ | ⟨r, u, hu, e⟩⟩ <;>
    obtain rfl := Host.Outcome.next.inj (e.symm.trans h)
  · exact .inr ⟨rfl, rfl, .unwrittenRegister, rfl, commandCause_unwrittenRegister i⟩
  · have hk := bodyOf_keeps i s
    rw [hu] at hk
    exact .inl ⟨hk.status, hk.fcmd, hk.finfo, hk.fch, hk.halted⟩
  · exact .inr ⟨rfl, rfl, r.cause, rfl, bodyOf_raised_commandCause hu⟩

/-- Settles O18: a fault entry changes none of these, so the frame is that of the procedure. -/
theorem commandsWriteOnlyTheirWriteSet : Obligations.CommandsWriteOnlyTheirWriteSet := by
  intro i s t h
  obtain ⟨hregs, hcmd, hcmdWr, hparams, hqueue, hobserved⟩ := exec_registerFrame h
  exact ⟨hregs, hcmd, hcmdWr, hparams, hqueue, hobserved, fun hb => exec_mem hb h,
    fun hi hn => exec_procn_zero_regs hi hn h⟩

end Machine
end Sys2Proof
end

section
/-! What the designers share (`40_designer_shared.md`; O23 to O28, O39, O40, O42): the parameter checks
in the order of R140, the formulas and their ideal meaning, the check of the result, and the decibel
commands as wrappers. A command that takes a gain is one plan of its kind, linear or in decibels, so
the statements about gains and derived parameters are proved of the plan. -/

namespace Sys2Proof.Machine

/-! ### The frequencies (R141 to R143) -/

theorem checkFrequencies_fs_error {pf : Bool} {s : State}
    (h : ¬(F32.isFinite (s.reg .fs) = true ∧ F32.lt F32.posZero (s.reg .fs) = true)) :
    checkFrequencies pf s = .error (paramDomain 0) := by
  rw [checkFrequencies, checkFs_error h, error_bind]

theorem checkFrequencies_fc_error {pf : Bool} {s : State} (hfs : F32.isFinite (s.reg .fs) = true)
    (hfs' : F32.lt F32.posZero (s.reg .fs) = true) (h : ¬inDomain fMin (s.reg .fc) fMax) :
    checkFrequencies pf s = .error (paramDomain 1) := by
  rw [checkFrequencies, checkFs_ok (u := ()).mpr ⟨hfs, hfs'⟩, checkFc_error h, ok_bind, error_bind]

theorem checkFrequencies_fp_error {s : State} (hfs : F32.isFinite (s.reg .fs) = true)
    (hfs' : F32.lt F32.posZero (s.reg .fs) = true) (hfc : inDomain fMin (s.reg .fc) fMax)
    (h : ¬inDomain fMin (s.reg .fp) fMax) :
    checkFrequencies true s = .error (paramDomain 2) := by
  rw [checkFrequencies, checkFs_ok (u := ()).mpr ⟨hfs, hfs'⟩, checkFc_ok (u := ()).mpr hfc,
    checkFp_error h, ok_bind, ok_bind]

/-- A designer whose frequency checks raise faults so. -/
theorem exec_designer_frequencies {i : Instr} {pf : Bool} {s : State} {r : Raise}
    (hi : designerPf i = some pf) (hw : allWritten s (readSet i))
    (h : checkFrequencies pf s = .error r) :
    exec i s = .next (faultEntry r (encode i) s) := by
  obtain ⟨p, hb, _⟩ | ⟨p, hb, _⟩ := bodyOf_designer hi
  · rw [exec_design1 hb hw, design1_frequencies h]
  · rw [exec_design2 hb hw, design2_frequencies h]

/-! ### The width and the mixing coefficients (R144, R145, R147) -/

/-- A designer that reads `Q` is of the second order and checks `Q` first of its own parameters. -/
theorem bodyOf_reads_q {i : Instr} {pf : Bool} (hi : designerPf i = some pf)
    (hq : Reg.q ∈ readSet i) :
    ∃ rest : State → Except Raise Proto2,
      bodyOf i = designBody2 pf fun s => checkQ (s.reg .q) >>= fun _ => rest s := by
  cases i <;> cases hi
  case lp2 | hp2 | ap2 | ls2 | ls2Db | hs2 | hs2Db | mm2 | bp2 | notch2 | peak2 | peak2Db =>
    exact ⟨_, rfl⟩
  all_goals exact absurd hq (by cases pf <;> decide)

theorem protoPeak2Bw_width_error {db : Bool} {s : State} {r : Raise}
    (h : checkBw (s.reg .bw) = .error r) : protoPeak2Bw db s = .error r := by
  rw [protoPeak2Bw, h, error_bind]

/-- `CheckMix` (R147): the mixing coefficients of a list of registers, in the list's order. -/
def checkMix (s : State) (mix : List Reg) : Except Raise Unit := forM mix (checkMixReg s)

/-- In ascending register number, the check stops at the first coefficient that is not finite. -/
theorem checkMix_error {s : State} {mix : List Reg} {r : Reg}
    (hasc : mix.Pairwise fun r r' => (regNum r).val < (regNum r').val) (hr : r ∈ mix)
    (hnf : F32.isFinite (s.reg r) = false)
    (hlow : ∀ r' ∈ mix, (regNum r').val < (regNum r).val → F32.isFinite (s.reg r') = true) :
    checkMix s mix = .error (paramDomain (regNum r).val) := by
  induction mix with
  | nil => cases hr
  | cons r₀ mix ih =>
    obtain ⟨hfirst, hasc⟩ := List.pairwise_cons.mp hasc
    rw [checkMix, List.forM_cons]
    obtain rfl | hr := List.mem_cons.mp hr
    · rw [checkMixReg_error hnf, error_bind]
    · have hfin := hlow r₀ (List.mem_cons_self ..) (hfirst r hr)
      rw [checkMixReg_ok (u := ()).mpr hfin, ok_bind]
      exact ih hasc hr fun r' h => hlow r' (List.mem_cons_of_mem _ h)

theorem protoMm1_eq_checkMix (s : State) : protoMm1 s = do
    checkMix s [.cx, .clp]
    return ⟨s.reg .fc, s.reg .cx, s.num.add (s.reg .cx) (s.reg .clp)⟩ := by
  simp [protoMm1, checkMix, bind_assoc]

theorem protoMm2_eq_checkMix (s : State) : protoMm2 s = do
    checkQ (s.reg .q)
    checkMix s [.cx, .clp, .cbp, .chp]
    return ⟨s.reg .fc, s.reg .q, s.num.add (s.reg .cx) (s.reg .chp),
      s.num.add (s.reg .cx) (s.num.mul (s.reg .cbp) (s.reg .q)),
      s.num.add (s.reg .cx) (s.reg .clp)⟩ := by
  simp [protoMm2, checkMix, bind_assoc]

/-! ### Commands that take a gain (R140, R146, R148) -/

/-- The kinds of designer that take a gain. -/
inductive GainKind where
  | ls1 | hs1 | ls2 | hs2 | peak2 | peak2Bw

/-- The command of a kind, linear or in decibels. -/
def gainCommand (k : GainKind) (db pf : Bool) : Instr :=
  match k with
  | .ls1 => if db then .ls1Db pf else .ls1 pf
  | .hs1 => if db then .hs1Db pf else .hs1 pf
  | .ls2 => if db then .ls2Db pf else .ls2 pf
  | .hs2 => if db then .hs2Db pf else .hs2 pf
  | .peak2 => if db then .peak2Db pf else .peak2 pf
  | .peak2Bw => if db then .peak2BwDb pf else .peak2Bw pf

/-- The check between the frequencies and the gain: of `Q` in the second order (R144), of `BW` in the
peak by bandwidth (R145). -/
def widthCheck (k : GainKind) (s : State) : Except Raise Unit :=
  match k with
  | .ls1 | .hs1 => .ok ()
  | .ls2 | .hs2 | .peak2 => checkQ (s.reg .q)
  | .peak2Bw => checkBw (s.reg .bw)

/-- `EffectiveCutoff` (R140): `fc` unless the kind is a shelf. -/
def effectiveCutoff (k : GainKind) (g : Word) (s : State) : Word :=
  match k with
  | .ls1 => s.num.div (s.reg .fc) (s.num.sqrtF g)
  | .hs1 => s.num.mul (s.reg .fc) (s.num.sqrtF g)
  | .ls2 => s.num.div (s.reg .fc) (s.num.sqrtF (s.num.sqrtF g))
  | .hs2 => s.num.mul (s.reg .fc) (s.num.sqrtF (s.num.sqrtF g))
  | .peak2 | .peak2Bw => s.reg .fc

/-- `CheckDerived` (R148). -/
def derivedCheck (k : GainKind) (g : Word) (s : State) : Except Raise Unit :=
  match k with
  | .ls1 | .hs1 | .ls2 | .hs2 => checkEffective (effectiveCutoff k g s)
  | .peak2 => .ok ()
  | .peak2Bw => checkDerivedQ (bwToQ s.num (s.reg .bw) g)

/-- The set a kind designs for the linear gain `g`. -/
def gainSet (k : GainKind) (pf : Bool) (g : Word) (s : State) : Coefs Word :=
  let fe := effectiveCutoff k g s
  let q := s.reg .q
  let r := s.num.sqrtF g
  match k with
  | .ls1 => .first (designed1 pf s ⟨fe, F32.one, g⟩)
  | .hs1 => .first (designed1 pf s ⟨fe, g, F32.one⟩)
  | .ls2 => .second (designed2 pf s ⟨fe, q, F32.one, r, g⟩)
  | .hs2 => .second (designed2 pf s ⟨fe, q, g, r, F32.one⟩)
  | .peak2 => .second (designed2 pf s ⟨fe, q, F32.one, g, F32.one⟩)
  | .peak2Bw =>
    .second (designed2 pf s ⟨fe, bwToQ s.num (s.reg .bw) g, F32.one, g, F32.one⟩)

/-- `CheckDesign` of a set of either order (R155). -/
def checkSet (N : Num) (c : Coefs Word) : Except Raise (Coefs Word) := do
  require (coefsValid N c) (raiseWith .designResult 0 0)
  return c

/-- `WriteCoefficients` of either order (R156). -/
def writeCoefs (c : Coefs Word) (s : State) : State :=
  match c with
  | .first c => writeCoef1 c s
  | .second c => writeCoef2 c s

/-- The procedure of R140 for a kind that takes a gain, up to the write. -/
def gainPlan (k : GainKind) (db pf : Bool) (s : State) : Except Raise (Coefs Word) := do
  checkFrequencies pf s
  widthCheck k s
  let g ← gainIn s.num db (s.reg .gain)
  derivedCheck k g s
  checkSet s.num (gainSet k pf g s)

theorem atOnce_map {α β : Type} (f : α → β) (plan : Except Raise α) (write : β → State → State)
    (s : State) : atOnce (f <$> plan) write s = atOnce plan (fun a => write (f a)) s := by
  cases plan <;> rfl

/-- A first-order designer writes the set of its design, as a set of either order. -/
theorem designBody1_eq (pf : Bool) (proto : State → Except Raise Proto1) (s : State) :
    designBody1 pf proto s = atOnce (do
      checkFrequencies pf s
      let p ← proto s
      checkSet s.num (.first (designed1 pf s p))) writeCoefs s := by
  have h := atOnce_map Coefs.first (design1 pf proto s) writeCoefs s
  simp only [design1, map_bind, map_pure] at h
  exact h.symm

theorem designBody2_eq (pf : Bool) (proto : State → Except Raise Proto2) (s : State) :
    designBody2 pf proto s = atOnce (do
      checkFrequencies pf s
      let p ← proto s
      checkSet s.num (.second (designed2 pf s p))) writeCoefs s := by
  have h := atOnce_map Coefs.second (design2 pf proto s) writeCoefs s
  simp only [design2, map_bind, map_pure] at h
  exact h.symm

/-- Every command that takes a gain runs the plan of its kind. -/
theorem bodyOf_gainCommand (k : GainKind) (db pf : Bool) (s : State) :
    bodyOf (gainCommand k db pf) s = atOnce (gainPlan k db pf s) writeCoefs s := by
  cases k <;> simp only [gainPlan, widthCheck, derivedCheck, gainSet]
  case ls1 =>
    rw [show bodyOf _ = designBody1 pf (protoLs1 db) by cases db <;> rfl, designBody1_eq]
    simp [protoLs1, effectiveCutoff]
  case hs1 =>
    rw [show bodyOf _ = designBody1 pf (protoHs1 db) by cases db <;> rfl, designBody1_eq]
    simp [protoHs1, effectiveCutoff]
  case ls2 =>
    rw [show bodyOf _ = designBody2 pf (protoLs2 db) by cases db <;> rfl, designBody2_eq]
    simp [protoLs2, effectiveCutoff]
  case hs2 =>
    rw [show bodyOf _ = designBody2 pf (protoHs2 db) by cases db <;> rfl, designBody2_eq]
    simp [protoHs2, effectiveCutoff]
  case peak2 =>
    rw [show bodyOf _ = designBody2 pf (protoPeak2 db) by cases db <;> rfl, designBody2_eq]
    simp [protoPeak2, effectiveCutoff]
  case peak2Bw =>
    rw [show bodyOf _ = designBody2 pf (protoPeak2Bw db) by cases db <;> rfl, designBody2_eq]
    simp [protoPeak2Bw, effectiveCutoff]

/-! ### Where the plan raises -/

theorem exec_gainCommand_error {k : GainKind} {db pf : Bool} {s : State} {r : Raise}
    (hw : allWritten s (readSet (gainCommand k db pf))) (h : gainPlan k db pf s = .error r) :
    exec (gainCommand k db pf) s = .next (faultEntry r (encode (gainCommand k db pf)) s) := by
  rw [exec_of_written hw, bodyOf_gainCommand, h]
  rfl

theorem gainPlan_gain_error {k : GainKind} {db pf : Bool} {s : State} {r : Raise}
    (hf : frequenciesOk pf s) (hwidth : widthCheck k s = .ok ())
    (h : gainIn s.num db (s.reg .gain) = .error r) : gainPlan k db pf s = .error r := by
  simp [gainPlan, checkFrequencies_ok (u := ()).mpr hf, hwidth, h]

theorem gainPlan_derived_error {k : GainKind} {db pf : Bool} {g : Word} {s : State} {r : Raise}
    (hf : frequenciesOk pf s) (hwidth : widthCheck k s = .ok ()) (hg : linearGain s db g)
    (h : derivedCheck k g s = .error r) : gainPlan k db pf s = .error r := by
  simp [gainPlan, checkFrequencies_ok (u := ()).mpr hf, hwidth, gainIn_ok.mpr hg, h]

/-- The width is in its domain if each width register that the command reads is. -/
theorem widthCheck_ok {k : GainKind} {db pf : Bool} {s : State}
    (hq : Reg.q ∈ readSet (gainCommand k db pf) → inDomain qMin (s.reg .q) qMax)
    (hbw : Reg.bw ∈ readSet (gainCommand k db pf) → F32.isFinite (s.reg .bw) = true ∧
      F32.lt 0 (s.reg .bw) = true ∧ F32.le (s.reg .bw) bwMax = true) :
    widthCheck k s = .ok () := by
  cases k
  case ls1 | hs1 => rfl
  case ls2 | hs2 | peak2 => exact checkQ_ok.mpr (hq (by cases db <;> cases pf <;> decide))
  case peak2Bw => exact checkBw_ok.mpr (hbw (by cases db <;> cases pf <;> decide))

/-- The kinds in the order of the opcode table. -/
def gainKinds : List GainKind := [.ls1, .hs1, .ls2, .hs2, .peak2, .peak2Bw]

/-- The kinds with an effective cutoff of their own (R148). -/
def shelfKinds : List GainKind := [.ls1, .hs1, .ls2, .hs2]

theorem shelf_reads_no_bw :
    ∀ k ∈ shelfKinds, ∀ db pf, Reg.bw ∉ readSet (gainCommand k db pf) := by decide

theorem derivedCheck_shelf_error {k : GainKind} (hk : k ∈ shelfKinds) {g : Word} {s : State}
    (h : ¬inDomain fMin (effectiveCutoff k g s) fMax) :
    derivedCheck k g s = .error (paramDomain 0x101) := by
  cases k
  case ls1 | hs1 | ls2 | hs2 => exact checkEffective_error h
  case peak2 | peak2Bw => simp [shelfKinds] at hk

/-! ### A decibel command and its linear command (R157) -/

/-- A fault of the linear command as the decibel command enters it: `FINFO = 0x103` in place of 5. -/
def dbRaise (r : Raise) : Raise :=
  if r.cause = .paramDomain ∧ r.info = 5 then { r with info := 0x103 } else r

theorem mapError_bind {α β : Type} (f : Raise → Raise) (x : Except Raise α)
    (g : α → Except Raise β) :
    (x >>= g).mapError f = x.mapError f >>= fun a => (g a).mapError f := by
  cases x <;> rfl

theorem mapError_require (f : Raise → Raise) (ok : Bool) (r : Raise) :
    (require ok r).mapError f = require ok (f r) := by
  cases ok <;> rfl

section
variable (k : GainKind) (pf : Bool) (g v : Word) (s : State)

@[simp] theorem checkFrequencies_dbRaise :
    (checkFrequencies pf s).mapError dbRaise = checkFrequencies pf s := by
  simp [checkFrequencies, checkFs, checkFc, checkFp, mapError_bind, mapError_require, dbRaise,
    paramDomain]

@[simp] theorem widthCheck_dbRaise :
    (widthCheck k s).mapError dbRaise = widthCheck k s := by
  cases k
  case ls1 | hs1 => rfl
  case ls2 | hs2 | peak2 => exact mapError_require ..
  case peak2Bw => exact mapError_require ..

@[simp] theorem derivedCheck_dbRaise :
    (derivedCheck k g s).mapError dbRaise = derivedCheck k g s := by
  cases k
  case ls1 | hs1 | ls2 | hs2 => exact mapError_require ..
  case peak2 => rfl
  case peak2Bw => exact mapError_require ..

@[simp] theorem checkSet_dbRaise (N : Num) (c : Coefs Word) :
    (checkSet N c).mapError dbRaise = checkSet N c := by
  rw [checkSet, mapError_bind, mapError_require]
  rfl

@[simp] theorem checkFrequencies_setReg_gain :
    checkFrequencies pf (s.setReg .gain v) = checkFrequencies pf s := by
  simp [checkFrequencies, reg_setReg]

@[simp] theorem widthCheck_setReg_gain : widthCheck k (s.setReg .gain v) = widthCheck k s := by
  cases k <;> simp [widthCheck, reg_setReg]

@[simp] theorem effectiveCutoff_setReg_gain :
    effectiveCutoff k g (s.setReg .gain v) = effectiveCutoff k g s := by
  cases k <;> simp [effectiveCutoff, reg_setReg]

@[simp] theorem derivedCheck_setReg_gain :
    derivedCheck k g (s.setReg .gain v) = derivedCheck k g s := by
  cases k <;> simp [derivedCheck, reg_setReg]

@[simp] theorem gainSet_setReg_gain : gainSet k pf g (s.setReg .gain v) = gainSet k pf g s := by
  cases k <;> simp [gainSet, designed1, designed2, warpOf, reg_setReg]

end

/-- A gain in the decibel range is taken as its converted value is (R146). -/
theorem gainIn_db {N : Num} {g : Word} (h : inDomain dbMin g dbMax) :
    gainIn N true g = (gainIn N false (N.dB2linF g)).mapError dbRaise := by
  simp only [gainIn, within_iff.mpr h, require_true, ok_bind, if_true, Bool.false_eq_true, if_false,
    mapError_bind, mapError_require]
  rfl

/-- The decibel plan is the linear plan at the converted gain, with its faults renamed. -/
theorem gainPlan_db {k : GainKind} {pf : Bool} {s : State}
    (h : inDomain dbMin (s.reg .gain) dbMax) :
    gainPlan k true pf s
      = (gainPlan k false pf (s.setReg .gain (s.num.dB2linF (s.reg .gain)))).mapError dbRaise := by
  simp [gainPlan, mapError_bind, gainIn_db h]

/-- A write of a written register leaves the first unwritten one as it was. -/
theorem firstUnwritten_setReg {s : State} {r : Reg} (h : s.written r = true) (v : Word)
    (rs : List Reg) : firstUnwritten (s.setReg r v) rs = firstUnwritten s rs := by
  have hw : (s.setReg r v).written = s.written := by
    funext r'
    rw [written_setReg]
    split
    · subst r'; exact h.symm
    · rfl
  rw [firstUnwritten, firstUnwritten, hw]

theorem readSet_gainCommand_db (k : GainKind) (pf : Bool) :
    readSet (gainCommand k true pf) = readSet (gainCommand k false pf) := by
  cases k <;> rfl

/-- What the two commands agree on outside the fault registers. -/
def agreesButGain (t u : State) : Prop :=
  ∀ r, r ≠ .gain → t.reg r = u.reg r ∧ t.written r = u.written r

theorem agreesButGain_setReg_gain (s : State) (v : Word) : agreesButGain s (s.setReg .gain v) :=
  fun _ hr => ⟨(reg_setReg_ne s v hr.symm).symm, (written_setReg_ne s v hr.symm).symm⟩

theorem agreesButGain.setReg {t u : State} (h : agreesButGain t u) (r : Reg) (v : Word) :
    agreesButGain (t.setReg r v) (u.setReg r v) := by
  intro r' hr'
  rw [reg_setReg, reg_setReg, written_setReg, written_setReg]
  split
  · exact ⟨rfl, rfl⟩
  · exact h r' hr'

theorem agreesButGain.writeCoefs {t u : State} (h : agreesButGain t u) (c : Coefs Word) :
    agreesButGain (writeCoefs c t) (writeCoefs c u) := by
  cases c with
  | first c => exact ((h.setReg _ _).setReg _ _).setReg _ _
  | second c => exact ((((h.setReg _ _).setReg _ _).setReg _ _).setReg _ _).setReg _ _

theorem keeps_writeCoefs (c : Coefs Word) (s : State) : Keeps coefRegs2 s (writeCoefs c s) := by
  cases c with
  | first c => exact (keeps_writeCoef1 c s).mono (by decide)
  | second c => exact keeps_writeCoef2 c s

/-- How a decibel command's end `t` relates to the linear command's end `u` (R157). -/
def wrapsLinear (t u : State) : Prop :=
  agreesButGain t u ∧ t.status = u.status ∧ t.fch = u.fch ∧ t.halted = u.halted ∧
  (u.halted = true → u.status = 0x103 → u.finfo = 5 → t.finfo = 0x103) ∧
  (¬(u.halted = true ∧ u.status = 0x103 ∧ u.finfo = 5) → t.finfo = u.finfo)

theorem statusOfCause_eq_paramDomain {c : Cause} :
    statusOfCause c = 0x103 ↔ c = .paramDomain := by
  cases c <;> decide

theorem wrapsLinear_faultEntry {t u : State} (h : agreesButGain t u) (r : Raise) (w w' : Word) :
    wrapsLinear (faultEntry (dbRaise r) w t) (faultEntry r w' u) := by
  have hcause : r.cause = .paramDomain ↔ (faultEntry r w' u).status = 0x103 :=
    statusOfCause_eq_paramDomain.symm
  by_cases hr : r.cause = .paramDomain ∧ r.info = 5
  · rw [dbRaise, if_pos hr]
    exact ⟨h, rfl, rfl, rfl, fun _ _ _ => rfl, fun hn => absurd ⟨rfl, hcause.mp hr.1, hr.2⟩ hn⟩
  · rw [dbRaise, if_neg hr]
    exact ⟨h, rfl, rfl, rfl, fun _ hs hi => absurd ⟨hcause.mpr hs, hi⟩ hr, fun _ => rfl⟩

theorem wrapsLinear_writeCoefs {s : State} (h : s.halted = false) (c : Coefs Word) (v : Word) :
    wrapsLinear (writeCoefs c s) (writeCoefs c (s.setReg .gain v)) := by
  have ht := keeps_writeCoefs c s
  have hu := keeps_writeCoefs c (s.setReg .gain v)
  refine ⟨(agreesButGain_setReg_gain s v).writeCoefs c, ?_⟩
  simp [ht.status, ht.fch, ht.halted, ht.finfo, hu.status, hu.fch, hu.halted, hu.finfo, h]

/-- Both commands stop at the same unwritten register, or run the same plan up to the renaming of its
faults. -/
theorem exec_gainCommand_db {k : GainKind} {pf : Bool} {s : State} {v : Word}
    (hh : s.halted = false) (hw : s.written .gain = true)
    (hplan : gainPlan k true pf s = (gainPlan k false pf (s.setReg .gain v)).mapError dbRaise) :
    ∃ t u, exec (gainCommand k true pf) s = .next t ∧
      exec (gainCommand k false pf) (s.setReg .gain v) = .next u ∧ wrapsLinear t u := by
  have hagree := agreesButGain_setReg_gain s v
  simp only [exec_eq_runCommand, runCommand, bodyOf_gainCommand, readSet_gainCommand_db,
    firstUnwritten_setReg hw, hplan]
  cases firstUnwritten s (readSet (gainCommand k false pf)) with
  | some r =>
    exact ⟨_, _, rfl, rfl,
      wrapsLinear_faultEntry hagree (raiseWith .unwrittenRegister (regNum r).val 0) _ _⟩
  | none =>
    cases gainPlan k false pf (s.setReg .gain v) with
    | error r => exact ⟨_, _, rfl, rfl, wrapsLinear_faultEntry hagree r _ _⟩
    | ok c => exact ⟨_, _, rfl, rfl, wrapsLinear_writeCoefs hh c v⟩

/-! ### The result (R155, R156) -/

theorem allWritten_writeCoef1 (c : Coef1 Word) (s : State) :
    allWritten (writeCoef1 c s) coefRegs1 := by
  simp [allWritten, coefRegs1, writeCoef1, written_setReg]

theorem allWritten_writeCoef2 (c : Coef2 Word) (s : State) :
    allWritten (writeCoef2 c s) coefRegs2 := by
  simp [allWritten, coefRegs2, writeCoef2, written_setReg]

/-- What a first-order designer writes is what the engine loads (R156, R270). -/
theorem loadCoef_writeCoef1 (c : Coef1 Word) (s : State) :
    loadCoef .first (writeCoef1 c s) = .first c := by
  simp [loadCoef, writeCoef1, reg_setReg]

theorem loadCoef_writeCoef2 (c : Coef2 Word) (s : State) :
    loadCoef .second (writeCoef2 c s) = .second c := by
  simp [loadCoef, writeCoef2, reg_setReg]

/-- A command that leaves the block running completed its procedure. -/
theorem exec_running {i : Instr} {s t : State} (h : exec i s = .next t) (hh : t.halted = false) :
    bodyOf i s = .done t := by
  rcases exec_cases i s with ⟨r, _, e⟩ | ⟨_, ⟨u, hu, e⟩ | ⟨r, u, _, e⟩⟩ <;>
    obtain rfl := Host.Outcome.next.inj (e.symm.trans h)
  · cases hh
  · exact hu
  · cases hh

/-! ### The ideal meaning (R151, R152) -/

/-- The ideal first-order helper over its one denominator `1 + k` (R151). -/
theorem bl1_ideal (k beta1 beta0 : Rat) : bl1 idealArith k beta1 beta0 =
    ⟨(beta1 + beta0 * k) / (1 + k), (beta0 * k - beta1) / (1 + k), (k - 1) / (1 + k)⟩ := by
  simp [bl1, idealArith, div_eq_mul_inv]

/-- The ideal second-order helper over its one denominator `1 + k/q + k²` (R152). -/
theorem bl2_ideal (k q alpha2 mu alpha0 : Rat) : bl2 idealArith k q alpha2 mu alpha0 =
    let D := 1 + k / q + k * k
    ⟨(alpha2 + mu * (k / q) + alpha0 * (k * k)) / D, 2 * (alpha0 * (k * k) - alpha2) / D,
      (alpha2 - mu * (k / q) + alpha0 * (k * k)) / D, 2 * (k * k - 1) / D,
      (1 - k / q + k * k) / D⟩ := by
  simp [bl2, idealArith, div_eq_mul_inv]

/-! ### The statements -/

/-- Settles O28: each formula is the model's definition. -/
theorem sharedDesignFormulas : Obligations.SharedDesignFormulas :=
  ⟨fun _ _ _ _ _ _ => rfl, fun _ _ _ _ => rfl, fun _ _ _ _ _ _ => rfl, fun _ _ _ => rfl,
    fun _ => rfl, fun _ _ _ => rfl, fun _ _ => rfl, fun _ _ => rfl, fun _ => ⟨rfl, rfl, rfl⟩⟩

/-- Settles O23: every designer begins with the three frequency checks, each after those before it. -/
theorem frequencyDomainFaults : Obligations.FrequencyDomainFaults := by
  intro i pf s hi hw
  refine ⟨fun h => ?fs, fun hfs hfs' h => ?fc, fun hfs hfs' hfc hpf h => ?fp⟩
  case fs => exact exec_designer_frequencies hi hw (checkFrequencies_fs_error h)
  case fc => exact exec_designer_frequencies hi hw (checkFrequencies_fc_error hfs hfs' h)
  case fp =>
    subst hpf
    exact exec_designer_frequencies hi hw (checkFrequencies_fp_error hfs hfs' hfc h)

/-- Settles O24: the check of `Q` or of `BW` is the first of the prototype. -/
theorem widthDomainFaults : Obligations.WidthDomainFaults := by
  intro i pf s hi hw hf
  refine ⟨fun hq h => ?q, fun hbw h => ?bw⟩
  case q =>
    obtain ⟨rest, hb⟩ := bodyOf_reads_q hi hq
    refine exec_design2_proto hb hw hf ?_
    rw [checkQ_error h, error_bind]
    rfl
  case bw =>
    obtain rfl | rfl := hbw
    · exact exec_design2_proto rfl hw hf (protoPeak2Bw_width_error (checkBw_error h))
    · exact exec_design2_proto rfl hw hf (protoPeak2Bw_width_error (checkBw_error h))

/-- Settles O25: the gain is checked after the frequencies and the width, in decibels before it is
converted. -/
theorem gainDomainFaults : Obligations.GainDomainFaults := by
  intro pf s hf
  refine ⟨fun i hi hw hq hbw h => ?linear, fun i hi hw hq hbw => ?decibels⟩
  case linear =>
    obtain ⟨k, _, rfl⟩ :=
      List.mem_map.mp (show i ∈ gainKinds.map (gainCommand · false pf) from hi)
    exact exec_gainCommand_error hw
      (gainPlan_gain_error hf (widthCheck_ok hq hbw) (gainIn_error_linear h))
  case decibels =>
    obtain ⟨k, _, rfl⟩ :=
      List.mem_map.mp (show i ∈ gainKinds.map (gainCommand · true pf) from hi)
    have hgain {r} (h : gainIn s.num true (s.reg .gain) = .error r) :=
      exec_gainCommand_error hw (gainPlan_gain_error hf (widthCheck_ok hq hbw) h)
    exact ⟨fun h => hgain (gainIn_error_db h), fun h h' => hgain (gainIn_error_converted h h')⟩

/-- Settles O26: both multi-mode prototypes check their coefficients in ascending order, `MM2` after
`Q`. -/
theorem mixDomainFaults : Obligations.MixDomainFaults := by
  intro pf s hf i mix hi hw hq r hr hnf hlow
  simp only [List.mem_cons, Prod.mk.injEq, List.not_mem_nil, or_false] at hi
  obtain ⟨rfl, rfl⟩ | ⟨rfl, rfl⟩ := hi
  · refine exec_design1_proto rfl hw hf ?_
    rw [protoMm1_eq_checkMix, checkMix_error (by decide) hr hnf hlow, error_bind]
    rfl
  · have hq : inDomain qMin (s.reg .q) qMax := hq (by cases pf <;> decide)
    refine exec_design2_proto rfl hw hf ?_
    rw [protoMm2_eq_checkMix, checkQ_ok (u := ()).mpr hq, ok_bind,
      checkMix_error (by decide) hr hnf hlow, error_bind]
    rfl

/-- Settles O27: the derived parameters are checked after all direct ones. -/
theorem derivedDomainFaults : Obligations.DerivedDomainFaults := by
  intro pf db g s hf hg
  refine ⟨fun i fe hi hw hq h => ?shelf, fun i hi hw hfin hpos hmax h => ?bandwidth⟩
  case shelf =>
    obtain ⟨k, hk, hi⟩ := List.mem_map.mp (show (i, fe) ∈
      shelfKinds.map fun k => (gainCommand k db pf, effectiveCutoff k g s) from hi)
    cases hi
    have hwidth : widthCheck k s = .ok () :=
      widthCheck_ok hq fun hbw => absurd hbw (shelf_reads_no_bw k hk db pf)
    exact exec_gainCommand_error hw
      (gainPlan_derived_error hf hwidth hg (derivedCheck_shelf_error hk h))
  case bandwidth =>
    obtain rfl : i = gainCommand .peak2Bw db pf := hi
    have hwidth : widthCheck .peak2Bw s = .ok () := checkBw_ok.mpr ⟨hfin, hpos, hmax⟩
    exact exec_gainCommand_error hw
      (gainPlan_derived_error hf hwidth hg (checkDerivedQ_error h))

/-- Settles O39: a design that succeeds passed the check of its result, and the engine loads the set
it wrote. -/
theorem designedCoefficientsAreValid : Obligations.DesignedCoefficientsAreValid := by
  intro i pf s t hi h hh
  have hdone := exec_running h hh
  obtain ⟨p, hb, hws⟩ | ⟨p, hb, hws⟩ := bodyOf_designer hi <;> rw [hb] at hdone <;>
    obtain ⟨c, hc, rfl⟩ := atOnce_done hdone
  · obtain ⟨_, _, _, _, hv⟩ := design1_ok.mp hc
    rw [← loadCoef_writeCoef1 c s] at hv
    exact .inl ⟨hws, allWritten_writeCoef1 c s, hv⟩
  · obtain ⟨_, _, _, _, hv⟩ := design2_ok.mp hc
    rw [← loadCoef_writeCoef2 c s] at hv
    exact .inr ⟨hws, allWritten_writeCoef2 c s, hv⟩

/-- Settles O40: the decibel plan is the linear plan at the converted gain, with its faults renamed. -/
theorem decibelCommandsAreWrappers : Obligations.DecibelCommandsAreWrappers := by
  intro pf dbi lini s hi hh hw hdb
  obtain ⟨k, _, hk⟩ := List.mem_map.mp (show (dbi, lini) ∈
    gainKinds.map fun k => (gainCommand k true pf, gainCommand k false pf) from hi)
  cases hk
  exact exec_gainCommand_db hh hw (gainPlan_db hdb)

/-- Settles O42: over the one positive denominator `D` of each helper. The margins of the second order
are `1 + a1 + a2 = 4k²/D` and `1 - a1 + a2 = 4/D` (R155). -/
theorem idealDesignGainsAndStability : Obligations.IdealDesignGainsAndStability := by
  refine ⟨fun k beta1 beta0 hk => ?first, fun k q alpha2 mu alpha0 hk hq => ?second⟩
  case first =>
    rw [bl1_ideal]
    have hD : 0 < 1 + k := by positivity
    refine ⟨?dc, ?nyquist, ?lower, ?upper⟩
    case dc => field_simp; ring
    case nyquist => field_simp; ring
    case lower => rw [lt_div_iff₀ hD]; linarith
    case upper => rw [div_lt_one hD]; linarith
  case second =>
    rw [bl2_ideal]
    have hkq : 0 < k / q := by positivity
    generalize k / q = x at hkq
    have hD : 0 < 1 + x + k * k := by positivity
    refine ⟨?dc, ?nyquist, ?radius, ?sum, ?difference⟩
    case dc => field_simp; ring
    case nyquist => field_simp; ring
    case radius => rw [div_lt_one hD]; linarith
    case sum =>
      have h : 1 + 2 * (k * k - 1) / (1 + x + k * k) + (1 - x + k * k) / (1 + x + k * k)
          = 4 * (k * k) / (1 + x + k * k) := by field_simp; ring
      simp only [h]
      positivity
    case difference =>
      have h : 1 - 2 * (k * k - 1) / (1 + x + k * k) + (1 - x + k * k) / (1 + x + k * k)
          = 4 / (1 + x + k * k) := by field_simp; ring
      simp only [h]
      positivity

end Sys2Proof.Machine
end

section
/-! The first-order designers (`41_designer_order1.md`; O29 to O32): each prototype that passes its
checks, written out, and the shared procedure on it. The multi-mode commands of both orders (O41):
`MM1` and `MM2` with mixing coefficients that sum up to the coefficients of a plain response have its
prototype, so they end as its command does. -/

namespace Sys2Proof.Machine

/-! ### Prototypes that pass their checks -/

theorem protoLs1_ok {db : Bool} {g : Word} {s : State} (hg : linearGain s db g)
    (hfe : inDomain fMin (s.num.div (s.reg .fc) (s.num.sqrtF g)) fMax) :
    protoLs1 db s = .ok ⟨s.num.div (s.reg .fc) (s.num.sqrtF g), F32.one, g⟩ := by
  simp [protoLs1, gainIn_ok.mpr hg, checkEffective_ok (u := ()).mpr hfe]

theorem protoHs1_ok {db : Bool} {g : Word} {s : State} (hg : linearGain s db g)
    (hfe : inDomain fMin (s.num.mul (s.reg .fc) (s.num.sqrtF g)) fMax) :
    protoHs1 db s = .ok ⟨s.num.mul (s.reg .fc) (s.num.sqrtF g), g, F32.one⟩ := by
  simp [protoHs1, gainIn_ok.mpr hg, checkEffective_ok (u := ()).mpr hfe]

theorem protoMm1_ok {s : State} (hcx : F32.isFinite (s.reg .cx) = true)
    (hclp : F32.isFinite (s.reg .clp) = true) :
    protoMm1 s = .ok ⟨s.reg .fc, s.reg .cx, s.num.add (s.reg .cx) (s.reg .clp)⟩ := by
  simp [protoMm1, checkMixReg_ok (u := ()).mpr hcx, checkMixReg_ok (u := ()).mpr hclp]

/-- The second-order multi-mode form with finite mixing coefficients is the prototype at `Q` with
their sums (R227). -/
theorem protoMm2_eq_protoQ {s : State} {alpha2 mu alpha0 : Word}
    (hcx : F32.isFinite (s.reg .cx) = true) (hclp : F32.isFinite (s.reg .clp) = true)
    (hcbp : F32.isFinite (s.reg .cbp) = true) (hchp : F32.isFinite (s.reg .chp) = true)
    (hsq : s.num.add (s.reg .cx) (s.reg .chp) = alpha2)
    (hlin : inDomain qMin (s.reg .q) qMax →
      s.num.add (s.reg .cx) (s.num.mul (s.reg .cbp) (s.reg .q)) = mu)
    (hconst : s.num.add (s.reg .cx) (s.reg .clp) = alpha0) :
    protoMm2 s = protoQ alpha2 mu alpha0 s := by
  by_cases hq : inDomain qMin (s.reg .q) qMax
  · simp [protoMm2, protoQ, checkQ_ok (u := ()).mpr hq, checkMixReg_ok (u := ()).mpr hcx,
      checkMixReg_ok (u := ()).mpr hclp, checkMixReg_ok (u := ()).mpr hcbp,
      checkMixReg_ok (u := ()).mpr hchp, hsq, hlin hq, hconst]
  · simp [protoMm2, protoQ, checkQ_error hq]

/-! ### Commands that end alike -/

/-- From `s` both commands answer the same state, but for `FCMD` where they fault: there it holds each
command's own word (R344). -/
def endsAs (i j : Instr) (s : State) : Prop :=
  ∃ t u, exec i s = .next t ∧ exec j s = .next u ∧ t = { u with fcmd := t.fcmd } ∧
    (s.halted = false → u.halted = false → t = u)

/-- Commands with their read sets written end alike if their procedures do. -/
theorem endsAs_of_bodyOf_eq {i j : Instr} {s : State} (hi : allWritten s (readSet i))
    (hj : readSet j ⊆ readSet i) (h : bodyOf i s = bodyOf j s) : endsAs i j s := by
  refine ⟨_, _, exec_of_written hi, exec_of_written fun r hr => hi r (hj hr), ?_⟩
  rw [h]
  cases bodyOf j s with
  | done t => exact ⟨rfl, fun _ _ => rfl⟩
  | raised r t => exact ⟨rfl, fun _ hrunning => nomatch hrunning⟩

theorem designBody1_congr {pf : Bool} {proto proto' : State → Except Raise Proto1} {s : State}
    (h : proto s = proto' s) : designBody1 pf proto s = designBody1 pf proto' s := by
  rw [designBody1, designBody1, design1, design1, h]

theorem designBody2_congr {pf : Bool} {proto proto' : State → Except Raise Proto2} {s : State}
    (h : proto s = proto' s) : designBody2 pf proto s = designBody2 pf proto' s := by
  rw [designBody2, designBody2, design2, design2, h]

theorem readSet_subset_mm1 (pf : Bool) :
    ∀ i ∈ [Instr.lp1 pf, .hp1 pf, .ap1 pf], readSet i ⊆ readSet (.mm1 pf) := by
  cases pf <;> decide

theorem readSet_subset_mm2 (pf : Bool) :
    ∀ i ∈ [Instr.lp2 pf, .hp2 pf, .ap2 pf, .bp2 pf, .notch2 pf],
      readSet i ⊆ readSet (.mm2 pf) := by
  cases pf <;> decide

/-- `a + b = c` in `NUM`, with and without `FTZ` (log 5). -/
abbrev sumIs (a b c : Word) : Prop := ∀ ftz, binaryOp ftz F32.add a b = c

theorem num_add_of_sumIs {a b c : Word} (h : sumIs a b c) (s : State) : s.num.add a b = c :=
  h s.params.ftz

/-- The mix of `BP` that `LP2` and `HP2` ask of `MM2`. -/
theorem num_zero_add_zero_mul_q {s : State} (hq : inDomain qMin (s.reg .q) qMax) :
    s.num.add F32.posZero (s.num.mul F32.posZero (s.reg .q)) = F32.posZero := by
  rw [State.num, num_zero_mul _ (posNormal_of_q hq)]
  exact num_add_of_sumIs (by decide) s

/-- The mix of `BP` that `BP2` asks of `MM2`. -/
theorem num_zero_add_one_mul_q {s : State} (hq : inDomain qMin (s.reg .q) qMax) :
    s.num.add F32.posZero (s.num.mul F32.one (s.reg .q)) = s.reg .q := by
  rw [State.num, num_one_mul _ (posNormal_of_q hq), num_zero_add _ (posNormal_of_q hq)]

/-- `MM1` with mixing coefficients that sum up to a first-order prototype at `fc` ends as the command
of that prototype. -/
theorem endsAs_mm1 {i : Instr} {pf : Bool} {s : State} {cx clp beta0 : Word}
    (hb : bodyOf i = designBody1 pf fun s => .ok ⟨s.reg .fc, cx, beta0⟩)
    (hsub : readSet i ⊆ readSet (.mm1 pf)) (hw : allWritten s (readSet (.mm1 pf)))
    (hcx : s.reg .cx = cx) (hclp : s.reg .clp = clp)
    (hfin : F32.isFinite cx = true ∧ F32.isFinite clp = true) (hconst : sumIs cx clp beta0) :
    endsAs (.mm1 pf) i s := by
  subst hcx hclp
  obtain ⟨hcx, hclp⟩ := hfin
  refine endsAs_of_bodyOf_eq hw hsub ?_
  rw [hb]
  refine designBody1_congr ?_
  rw [protoMm1_ok hcx hclp, num_add_of_sumIs hconst]

/-- `MM2` with mixing coefficients that sum up to a second-order prototype at `fc` and `Q` ends as the
command of that prototype; `mu` is asked for only where `CheckQ` passes. -/
theorem endsAs_mm2 {i : Instr} {pf : Bool} {s : State} {cx clp chp alpha2 mu alpha0 : Word}
    (hb : bodyOf i s = designBody2 pf (protoQ alpha2 mu alpha0) s)
    (hsub : readSet i ⊆ readSet (.mm2 pf)) (hw : allWritten s (readSet (.mm2 pf)))
    (hcx : s.reg .cx = cx) (hclp : s.reg .clp = clp) (hchp : s.reg .chp = chp)
    (hfin : F32.isFinite cx = true ∧ F32.isFinite clp = true ∧ F32.isFinite chp = true)
    (hcbp : F32.isFinite (s.reg .cbp) = true) (hsq : sumIs cx chp alpha2)
    (hlin : inDomain qMin (s.reg .q) qMax → s.num.add cx (s.num.mul (s.reg .cbp) (s.reg .q)) = mu)
    (hconst : sumIs cx clp alpha0) : endsAs (.mm2 pf) i s := by
  subst hcx hclp hchp
  obtain ⟨hcx, hclp, hchp⟩ := hfin
  refine endsAs_of_bodyOf_eq hw hsub ?_
  rw [hb]
  exact designBody2_congr (protoMm2_eq_protoQ hcx hclp hcbp hchp (num_add_of_sumIs hsq s) hlin
    (num_add_of_sumIs hconst s))

/-! ### The statements -/

/-- Settles O29: the prototypes of `LP1`, `HP1` and `AP1` check nothing. -/
theorem lp1Hp1Ap1Result : Obligations.Lp1Hp1Ap1Result := by
  intro pf s i beta1 beta0 hi hw hf c hc
  simp only [List.mem_cons, Prod.mk.injEq, List.not_mem_nil, or_false] at hi
  obtain ⟨rfl, rfl, rfl⟩ | ⟨rfl, rfl, rfl⟩ | ⟨rfl, rfl, rfl⟩ := hi
  case inl => exact exec_design1_result (proto := protoLp1) rfl hw hf rfl hc
  case inr.inl => exact exec_design1_result (proto := protoHp1) rfl hw hf rfl hc
  case inr.inr => exact exec_design1_result (proto := protoAp1) rfl hw hf rfl hc

/-- Settles O30: with the gain and the effective cutoff in their domains the prototype passes. -/
theorem ls1Result : Obligations.Ls1Result := by
  intro pf db s i g fe hi hw hf hg hfe hdom c hc
  subst hi hfe
  have hb : bodyOf (if db then .ls1Db pf else .ls1 pf) = designBody1 pf (protoLs1 db) := by
    cases db <;> rfl
  exact exec_design1_result hb hw hf (protoLs1_ok hg hdom) hc

/-- Settles O31: as for the low shelf, at the cutoff of the high shelf. -/
theorem hs1Result : Obligations.Hs1Result := by
  intro pf db s i g fe hi hw hf hg hfe hdom c hc
  subst hi hfe
  have hb : bodyOf (if db then .hs1Db pf else .hs1 pf) = designBody1 pf (protoHs1 db) := by
    cases db <;> rfl
  exact exec_design1_result hb hw hf (protoHs1_ok hg hdom) hc

/-- Settles O32: with finite mixing coefficients the prototype passes. -/
theorem mm1Result : Obligations.Mm1Result := by
  intro pf s hw hf hcx hclp c hc
  exact exec_design1_result rfl hw hf (protoMm1_ok hcx hclp) hc

/-- Settles O41: the mixes of each plain response sum up to the coefficients of its prototype. `CBP·Q`
is 0 or `Q` for the constant mixes, by the exact products with a word in the range of `Q`, and the
given product for those in `1/q`. -/
theorem multiModeSpecialCases : Obligations.MultiModeSpecialCases := by
  refine ⟨?first, ?constant, ?reciprocal⟩
  case first =>
    intro pf s i cx clp hi hw hcx hclp
    simp only [List.mem_cons, Prod.mk.injEq, List.not_mem_nil, or_false] at hi
    obtain ⟨rfl, rfl, rfl⟩ | ⟨rfl, rfl, rfl⟩ | ⟨rfl, rfl, rfl⟩ := hi
    case inl | inr.inl | inr.inr =>
      exact endsAs_mm1 rfl (readSet_subset_mm1 pf _ (by simp)) hw hcx hclp (by decide) (by decide)
  case constant =>
    intro pf s i cx clp cbp chp hi hw hcx hclp hcbp hchp
    simp only [List.mem_cons, Prod.mk.injEq, List.not_mem_nil, or_false] at hi
    obtain ⟨rfl, rfl, rfl, rfl, rfl⟩ | ⟨rfl, rfl, rfl, rfl, rfl⟩ | ⟨rfl, rfl, rfl, rfl, rfl⟩ := hi
    case inl | inr.inl =>
      exact endsAs_mm2 rfl (readSet_subset_mm2 pf _ (by simp)) hw hcx hclp hchp (by decide)
        (by rw [hcbp]; decide) (by decide) (by rw [hcbp]; exact num_zero_add_zero_mul_q) (by decide)
    case inr.inr =>
      exact endsAs_mm2 rfl (readSet_subset_mm2 pf _ (by simp)) hw hcx hclp hchp (by decide)
        (by rw [hcbp]; decide) (by decide) (by rw [hcbp]; exact num_zero_add_one_mul_q) (by decide)
  case reciprocal =>
    intro pf s i clp product hi hw hcx hclp hcbp hproduct hchp
    have hmu {mu : Word} (h : sumIs F32.one product mu) :
        s.num.add F32.one (s.num.mul (s.reg .cbp) (s.reg .q)) = mu := by
      rw [hproduct]
      exact num_add_of_sumIs h s
    simp only [List.mem_cons, Prod.mk.injEq, List.not_mem_nil, or_false] at hi
    obtain ⟨rfl, rfl, rfl⟩ | ⟨rfl, rfl, rfl⟩ | ⟨rfl, rfl, rfl⟩ := hi
    case inl | inr.inl | inr.inr =>
      exact endsAs_mm2 rfl (readSet_subset_mm2 pf _ (by simp)) hw hcx hclp hchp (by decide)
        hcbp (by decide) (fun _ => hmu (by decide)) (by decide)

end Sys2Proof.Machine
end

section
/-! The second-order designers (`42_designer_order2.md`; O33 to O38): each command whose checks pass
ends as the result check says, the plain ones by their prototype at `Q`, those that take a gain by the
plan of their kind. -/

namespace Sys2Proof.Machine

theorem protoQ_ok {s : State} (hq : inDomain qMin (s.reg .q) qMax) (alpha2 mu alpha0 : Word) :
    protoQ alpha2 mu alpha0 s = .ok ⟨s.reg .fc, s.reg .q, alpha2, mu, alpha0⟩ := by
  simp [protoQ, checkQ_ok (u := ()).mpr hq]

/-- With finite mixing coefficients `MM2` is the prototype at `Q` with their sums (R227). -/
theorem protoMm2_ok {s : State} (hq : inDomain qMin (s.reg .q) qMax)
    (hcx : F32.isFinite (s.reg .cx) = true) (hclp : F32.isFinite (s.reg .clp) = true)
    (hcbp : F32.isFinite (s.reg .cbp) = true) (hchp : F32.isFinite (s.reg .chp) = true) :
    protoMm2 s = .ok ⟨s.reg .fc, s.reg .q, s.num.add (s.reg .cx) (s.reg .chp),
      s.num.add (s.reg .cx) (s.num.mul (s.reg .cbp) (s.reg .q)),
      s.num.add (s.reg .cx) (s.reg .clp)⟩ := by
  rw [protoMm2_eq_protoQ hcx hclp hcbp hchp rfl (fun _ => rfl) rfl, protoQ_ok hq]

/-- A command that takes a gain and whose checks pass ends as the result check says (R155, R156). -/
theorem exec_gainCommand_result {k : GainKind} {db pf : Bool} {s : State} {g : Word}
    (hw : allWritten s (readSet (gainCommand k db pf))) (hf : frequenciesOk pf s)
    (hwidth : widthCheck k s = .ok ()) (hg : linearGain s db g)
    (hderived : derivedCheck k g s = .ok ()) {c : Coefs Word} (hc : c = gainSet k pf g s) :
    (coefsValid s.num c = true → exec (gainCommand k db pf) s = .next (writeCoefs c s)) ∧
    (coefsValid s.num c = false → exec (gainCommand k db pf) s
      = .next (faultEntry ⟨.designResult, 0, 0⟩ (encode (gainCommand k db pf)) s)) := by
  have hplan : gainPlan k db pf s = checkSet s.num c := by
    simp [gainPlan, checkFrequencies_ok (u := ()).mpr hf, hwidth, gainIn_ok.mpr hg, hderived, hc]
  rw [exec_of_written hw, bodyOf_gainCommand, hplan, checkSet]
  constructor <;> intro h <;> rw [h] <;> rfl

/-! ### The statements -/

/-- Settles O33: with `Q` in its domain each of the five prototypes is the one at `Q` with its
coefficients. -/
theorem lp2Hp2Ap2Notch2Bp2Result : Obligations.Lp2Hp2Ap2Notch2Bp2Result := by
  intro pf s i alpha2 mu alpha0 hi hw hf hq c hc
  have hp := protoQ_ok hq
  simp only [List.mem_cons, Prod.mk.injEq, List.not_mem_nil, or_false] at hi
  obtain ⟨rfl, rfl, rfl, rfl⟩ | ⟨rfl, rfl, rfl, rfl⟩ | ⟨rfl, rfl, rfl, rfl⟩ | ⟨rfl, rfl, rfl, rfl⟩ |
    ⟨rfl, rfl, rfl, rfl⟩ := hi
  case inl => exact exec_design2_result (proto := protoLp2) rfl hw hf (hp ..) hc
  case inr.inl => exact exec_design2_result (proto := protoHp2) rfl hw hf (hp ..) hc
  case inr.inr.inl => exact exec_design2_result (proto := protoAp2) rfl hw hf (hp ..) hc
  case inr.inr.inr.inl => exact exec_design2_result (proto := protoNotch2) rfl hw hf (hp ..) hc
  case inr.inr.inr.inr => exact exec_design2_result (proto := protoBp2) rfl hw hf (hp ..) hc

/-- Settles O34: with `Q`, the gain and the effective cutoff in their domains the plan of the low
shelf passes its checks. -/
theorem ls2Result : Obligations.Ls2Result := by
  intro pf db s i g r fe hi hw hf hq hg hr hfe hdom c hc
  subst hi hr hfe
  exact exec_gainCommand_result (k := .ls2) hw hf (checkQ_ok.mpr hq) hg (checkEffective_ok.mpr hdom)
    (congrArg Coefs.second hc)

/-- Settles O35: as for the low shelf, at the cutoff of the high shelf. -/
theorem hs2Result : Obligations.Hs2Result := by
  intro pf db s i g r fe hi hw hf hq hg hr hfe hdom c hc
  subst hi hr hfe
  exact exec_gainCommand_result (k := .hs2) hw hf (checkQ_ok.mpr hq) hg (checkEffective_ok.mpr hdom)
    (congrArg Coefs.second hc)

/-- Settles O36: with `Q` in its domain and finite mixing coefficients the prototype passes. -/
theorem mm2Result : Obligations.Mm2Result := by
  intro pf s hw hf hq hcx hclp hcbp hchp c hc
  exact exec_design2_result rfl hw hf (protoMm2_ok hq hcx hclp hcbp hchp) hc

/-- Settles O37: the peak by `Q` has no derived parameter to check. -/
theorem peak2Result : Obligations.Peak2Result := by
  intro pf db s i g hi hw hf hq hg c hc
  subst hi
  exact exec_gainCommand_result (k := .peak2) hw hf (checkQ_ok.mpr hq) hg rfl
    (congrArg Coefs.second hc)

/-- Settles O38: the derived `Q` is `BwToQ` of the bandwidth and the linear gain (R234). -/
theorem peak2BwResult : Obligations.Peak2BwResult := by
  intro pf db s i g r q hi hw hf hfin hpos hmax hg hr hq hdom c hc
  subst hi hr hq
  exact exec_gainCommand_result (k := .peak2Bw) hw hf (checkBw_ok.mpr ⟨hfin, hpos, hmax⟩) hg
    (checkDerivedQ_ok.mpr hdom) (congrArg Coefs.second hc)

end Sys2Proof.Machine
end

section
/-! Noninterference (`42_designer_order2.md` R235, `30_encoding.md` R106; O20): a register outside a
command's read set changes none of its results. A designer, `RST` and `PROC` answer the same plan and
write it at once, over the register or beside it; a batch command reads and writes registers of its
read set only, so its procedure commutes with the write of any other register. -/

namespace Sys2Proof.Machine

/-! ### States that differ in one register -/

/-- `t'` is `t` but for the word `v` in register `r`, or `t` itself where `r` is one of `ws`. -/
def sameBut (ws : List Reg) (r : Reg) (v : Word) (t t' : State) : Prop :=
  t' = t.setReg r v ∨ (r ∈ ws ∧ t' = t)

section
variable {ws : List Reg} {r : Reg} {v : Word} {t t' : State}

theorem sameBut_setReg_self (ws : List Reg) (r : Reg) (v : Word) (s : State) :
    sameBut ws r v s (s.setReg r v) := .inl rfl

/-- A write of one of `ws` covers the difference or leaves it beside. -/
theorem sameBut.setReg (h : sameBut ws r v t t') {r₀ : Reg} (hr₀ : r₀ ∈ ws) (w : Word) :
    sameBut ws r v (t.setReg r₀ w) (t'.setReg r₀ w) := by
  obtain rfl | ⟨hr, rfl⟩ := h
  · by_cases e : r = r₀
    · subst e
      exact .inr ⟨hr₀, setReg_setReg t r v w⟩
    · exact .inl (setReg_comm t v w e)
  · exact .inr ⟨hr, rfl⟩

theorem sameBut.faultEntry (h : sameBut ws r v t t') (f : Raise) (w : Word) :
    sameBut ws r v (faultEntry f w t) (faultEntry f w t') := by
  obtain rfl | ⟨hr, rfl⟩ := h
  · exact .inl rfl
  · exact .inr ⟨hr, rfl⟩

/-- A difference in a register outside `ws` stays. -/
theorem sameBut.eq_setReg (h : sameBut ws r v t t') (hr : r ∉ ws) : t' = t.setReg r v :=
  h.resolve_right fun h => hr h.1

theorem sameBut.writeCoef1 (h : sameBut coefRegs1 r v t t') (c : Coef1 Word) :
    sameBut coefRegs1 r v (writeCoef1 c t) (writeCoef1 c t') :=
  ((h.setReg (by decide) _).setReg (by decide) _).setReg (by decide) _

theorem sameBut.writeCoef2 (h : sameBut coefRegs2 r v t t') (c : Coef2 Word) :
    sameBut coefRegs2 r v (writeCoef2 c t) (writeCoef2 c t') :=
  ((((h.setReg (by decide) _).setReg (by decide) _).setReg (by decide) _).setReg (by decide) _).setReg
    (by decide) _

theorem sameBut.setRegCell {o : Order} (h : sameBut ws r v t t') (hws : stateRegs o ⊆ ws)
    (st : Cell Word) : sameBut ws r v (setRegCell o st t) (setRegCell o st t') := by
  cases o with
  | first => exact h.setReg (hws (by decide)) _
  | second => exact (h.setReg (hws (by decide)) _).setReg (hws (by decide)) _

theorem sameBut.writeOutput {o : Order} (h : sameBut (.y :: stateRegs o) r v t t')
    (out : Word × Cell Word) :
    sameBut (.y :: stateRegs o) r v (writeOutput o out t) (writeOutput o out t') :=
  (h.setReg (List.mem_cons_self ..) _).setRegCell (List.subset_cons_self ..) _

end

/-! ### Procedures that differ in one register -/

/-- A procedure's end with a register written afterwards. -/
def Ran.setReg (r : Reg) (v : Word) : Ran → Ran
  | .done s => .done (s.setReg r v)
  | .raised f s => .raised f (s.setReg r v)

theorem concludeRan_setReg (w : Word) (r : Reg) (v : Word) (x : Ran) :
    concludeRan w (x.setReg r v) = (concludeRan w x).setReg r v := by
  cases x <;> rfl

section
variable {r : Reg} {v : Word} {s : State}

/-- The same plan, written at once from states that differ in one register. -/
theorem sameBut_concludeRan_atOnce {α : Type} {ws : List Reg} {plan plan' : Except Raise α}
    {write : α → State → State} (hplan : plan' = plan)
    (hwrite : ∀ a, sameBut ws r v (write a s) (write a (s.setReg r v))) (w : Word) :
    sameBut ws r v (concludeRan w (atOnce plan write s))
      (concludeRan w (atOnce plan' write (s.setReg r v))) := by
  subst hplan
  cases plan' with
  | error f => exact (sameBut_setReg_self ..).faultEntry f w
  | ok a => exact hwrite a

theorem atOnce_setReg {α : Type} {plan plan' : Except Raise α} {write : α → State → State}
    (hplan : plan' = plan) (hwrite : ∀ a, write a (s.setReg r v) = (write a s).setReg r v) :
    atOnce plan' write (s.setReg r v) = (atOnce plan write s).setReg r v := by
  subst hplan
  cases plan' with
  | error f => rfl
  | ok a => exact congrArg Ran.done (hwrite a)

/-- A loop commutes with the write of a register if its body does. -/
theorem repeatFrom_setReg {body : Nat → State → Ran}
    (hb : ∀ j t, body j (t.setReg r v) = (body j t).setReg r v) (i n : Nat) :
    repeatFrom body i n (s.setReg r v) = (repeatFrom body i n s).setReg r v := by
  induction n generalizing i s with
  | zero => rfl
  | succ n ih =>
    rw [repeatFrom, repeatFrom, hb]
    cases body i s with
    | done t => exact ih (i + 1)
    | raised f t => rfl

end

/-! ### Designers -/

section
variable {r : Reg} {pf : Bool} (v : Word) (s : State)

/-- What is not among a designer's frequencies; without `PF` it may be `FP` (R106). -/
theorem not_mem_designRegs : r ∉ designRegs pf ↔ r ≠ .fs ∧ r ≠ .fc ∧ (pf = true → r ≠ .fp) := by
  cases pf <;> simp [designRegs]

theorem checkFrequencies_setReg (hr : r ∉ designRegs pf) :
    checkFrequencies pf (s.setReg r v) = checkFrequencies pf s := by
  obtain ⟨hfs, hfc, hfp⟩ := not_mem_designRegs.mp hr
  cases pf with
  | false => simp [checkFrequencies, checkFp, reg_setReg_ne, hfs, hfc]
  | true => simp [checkFrequencies, reg_setReg_ne, hfs, hfc, hfp rfl]

theorem warpOf_setReg (hr : r ∉ designRegs pf) (fe : Word) :
    warpOf pf fe (s.setReg r v) = warpOf pf fe s := by
  obtain ⟨hfs, hfc, hfp⟩ := not_mem_designRegs.mp hr
  cases pf with
  | false => simp [warpOf, warpRatio, reg_setReg_ne, hfs, hfc]
  | true => simp [warpOf, reg_setReg_ne, hfs, hfc, hfp rfl]

theorem design1_setReg {proto : State → Except Raise Proto1} (hr : r ∉ designRegs pf)
    (hp : proto (s.setReg r v) = proto s) : design1 pf proto (s.setReg r v) = design1 pf proto s := by
  simp only [design1, checkFrequencies_setReg v s hr, hp, warpOf_setReg v s hr, num_setReg]

theorem design2_setReg {proto : State → Except Raise Proto2} (hr : r ∉ designRegs pf)
    (hp : proto (s.setReg r v) = proto s) : design2 pf proto (s.setReg r v) = design2 pf proto s := by
  simp only [design2, checkFrequencies_setReg v s hr, hp, warpOf_setReg v s hr, num_setReg]

/-- A designer reads its frequencies, and its prototype depends on no register outside its read
set. -/
theorem bodyOf_designer_reads {i : Instr} (hi : designerPf i = some pf) (hr : r ∉ readSet i) :
    r ∉ designRegs pf ∧
    ((∃ p, bodyOf i = designBody1 pf p ∧ writeSet i = coefRegs1 ∧ p (s.setReg r v) = p s) ∨
     (∃ p, bodyOf i = designBody2 pf p ∧ writeSet i = coefRegs2 ∧ p (s.setReg r v) = p s)) := by
  have hd : r ∉ designRegs pf := by
    cases i <;> cases hi <;> first | exact hr | exact fun h => hr (List.mem_append_left _ h)
  obtain ⟨-, hfc, -⟩ := not_mem_designRegs.mp hd
  refine ⟨hd, ?_⟩
  cases i <;> cases hi <;>
    simp only [readSet, List.mem_append, List.mem_cons, List.not_mem_nil, or_false, not_or] at hr
  case lp1 | hp1 | ap1 =>
    exact .inl ⟨_, rfl, rfl, by simp [protoLp1, protoHp1, protoAp1, reg_setReg_ne, hfc]⟩
  case ls1 | ls1Db | hs1 | hs1Db =>
    exact .inl ⟨_, rfl, rfl, by simp [protoLs1, protoHs1, reg_setReg_ne, hfc, hr]⟩
  case mm1 => exact .inl ⟨_, rfl, rfl, by simp [protoMm1, checkMixReg, reg_setReg_ne, hfc, hr]⟩
  case lp2 | hp2 | ap2 | notch2 | bp2 =>
    exact .inr ⟨_, rfl, rfl, by
      simp [protoLp2, protoHp2, protoAp2, protoNotch2, protoBp2, protoQ, reg_setReg_ne, hfc, hr]⟩
  case ls2 | ls2Db | hs2 | hs2Db =>
    exact .inr ⟨_, rfl, rfl, by simp [protoLs2, protoHs2, reg_setReg_ne, hfc, hr]⟩
  case mm2 => exact .inr ⟨_, rfl, rfl, by simp [protoMm2, checkMixReg, reg_setReg_ne, hfc, hr]⟩
  case peak2 | peak2Db =>
    exact .inr ⟨_, rfl, rfl, by simp [protoPeak2, reg_setReg_ne, hfc, hr]⟩
  case peak2Bw | peak2BwDb =>
    exact .inr ⟨_, rfl, rfl, by simp [protoPeak2Bw, reg_setReg_ne, hfc, hr]⟩

theorem sameBut_designer {i : Instr} (hi : designerPf i = some pf) (hr : r ∉ readSet i) (w : Word) :
    sameBut (writeSet i) r v (concludeRan w (bodyOf i s)) (concludeRan w (bodyOf i (s.setReg r v))) := by
  obtain ⟨hd, ⟨p, hb, hws, hp⟩ | ⟨p, hb, hws, hp⟩⟩ := bodyOf_designer_reads v s hi hr <;> rw [hb, hws]
  · exact sameBut_concludeRan_atOnce (design1_setReg v s hd hp)
      (sameBut_setReg_self _ r v s).writeCoef1 w
  · exact sameBut_concludeRan_atOnce (design2_setReg v s hd hp)
      (sameBut_setReg_self _ r v s).writeCoef2 w

end

/-! ### What the engine commands read in registers -/

/-- The coefficient registers of an order (`10_state.md` R32). -/
def coefRegsOf : Order → List Reg
  | .first => coefRegs1
  | .second => coefRegs2

section
variable {o : Order} {r : Reg} (v : Word) (s : State)

theorem loadCoef_setReg (hr : r ∉ coefRegsOf o) : loadCoef o (s.setReg r v) = loadCoef o s := by
  cases o <;> simp only [coefRegsOf, coefRegs1, coefRegs2, List.mem_cons, not_or] at hr <;>
    simp [loadCoef, reg_setReg_ne, hr]

theorem regCell_setReg (hr : r ∉ stateRegs o) : regCell o (s.setReg r v) = regCell o s := by
  cases o <;> simp only [stateRegs, List.mem_cons, not_or] at hr <;>
    simp [regCell, reg_setReg_ne, hr]

theorem setRegCell_setReg (hr : r ∉ stateRegs o) (st : Cell Word) :
    setRegCell o st (s.setReg r v) = (setRegCell o st s).setReg r v :=
  ((sameBut_setReg_self _ r v s).setRegCell (List.Subset.refl _) st).eq_setReg hr

@[simp] theorem memReadOrRaise_setReg (a ch : Nat) :
    memReadOrRaise (s.setReg r v) a ch = memReadOrRaise s a ch := rfl

@[simp] theorem rangeCheck_setReg (a n ch : Nat) :
    rangeCheck (s.setReg r v) a n ch = rangeCheck s a n ch := rfl

@[simp] theorem memCell_setReg (a ch : Nat) :
    memCell o (s.setReg r v) a ch = memCell o s a ch := rfl

theorem setMemCell_setReg (a : Nat) (st : Cell Word) :
    setMemCell o a st (s.setReg r v) = (setMemCell o a st s).setReg r v := by
  cases o <;> rfl

/-! ### Single-channel commands -/

theorem sameBut_rstBody (hr : r ∉ coefRegsOf o ++ [.x]) (w : Word) :
    sameBut (.y :: stateRegs o) r v (concludeRan w (rstBody o s))
      (concludeRan w (rstBody o (s.setReg r v))) := by
  simp only [List.mem_append, List.mem_cons, List.not_mem_nil, or_false, not_or] at hr
  obtain ⟨hcoef, hx⟩ := hr
  have hplan : rstPlan o (s.setReg r v) = rstPlan o s := by
    simp only [rstPlan, num_setReg, loadCoef_setReg v s hcoef, reg_setReg_ne s v hx]
  exact sameBut_concludeRan_atOnce hplan (sameBut_setReg_self _ r v s).writeOutput w

theorem sameBut_procBody (hr : r ∉ coefRegsOf o ++ .x :: stateRegs o) (w : Word) :
    sameBut (.y :: stateRegs o) r v (concludeRan w (procBody o s))
      (concludeRan w (procBody o (s.setReg r v))) := by
  simp only [List.mem_append, List.mem_cons, not_or] at hr
  obtain ⟨hcoef, hx, hstate⟩ := hr
  have hplan : procPlan o (s.setReg r v) = procPlan o s := by
    simp only [procPlan, num_setReg, loadCoef_setReg v s hcoef, reg_setReg_ne s v hx,
      regCell_setReg v s hstate]
  exact sameBut_concludeRan_atOnce hplan (sameBut_setReg_self _ r v s).writeOutput w

/-! ### Single-channel batch -/

theorem procnSample_setReg (hr : r ∉ stateRegs o) (c : Coefs Word) (xa ya i : Nat) :
    procnSample o c xa ya i (s.setReg r v) = (procnSample o c xa ya i s).setReg r v := by
  refine atOnce_setReg ?_ fun out => setRegCell_setReg v (s.memWrite (wordAddr ya i) out.1) hr out.2
  simp only [memReadOrRaise_setReg, num_setReg, regCell_setReg v s hr]

theorem procnBody_setReg (hr : r ∉ coefRegsOf o ++ (stateRegs o ++ [.xptr, .yptr, .ns])) :
    procnBody o (s.setReg r v) = (procnBody o s).setReg r v := by
  simp only [List.mem_append, List.mem_cons, List.not_mem_nil, or_false, not_or] at hr
  obtain ⟨hcoef, hstate, hptrs⟩ := hr
  have hcheck : procnCheck o (s.setReg r v) = procnCheck o s := by
    simp [procnCheck, loadCoef_setReg v s hcoef, regCell_setReg v s hstate, reg_setReg_ne, hptrs]
  simp only [procnBody, hcheck, loadCoef_setReg v s hcoef, reg_setReg_ne, ne_eq, hptrs,
    not_false_eq_true]
  cases procnCheck o s with
  | error f => rfl
  | ok _ => exact repeatFrom_setReg (fun j t => procnSample_setReg v t hstate _ _ _ j) _ _

/-! ### Batched reset -/

/-- The pointers and the count that `RSTM` reads: of the outputs, those of the wanted ones (R106). -/
def rstmRegs (wy ws : Bool) : List Reg :=
  .xptr :: (bif wy then [.yptr] else []) ++ (bif ws then [.sptr] else []) ++ [.nch]

theorem not_mem_rstmRegs {wy ws : Bool} : r ∉ rstmRegs wy ws ↔
    r ≠ .xptr ∧ (wy = true → r ≠ .yptr) ∧ (ws = true → r ≠ .sptr) ∧ r ≠ .nch := by
  cases wy <;> cases ws <;> simp [rstmRegs]

theorem rstmWrite_setReg (wy ws : Bool) (ya sp ch : Nat) (out : Word × Cell Word) :
    rstmWrite o wy ws ya sp ch out (s.setReg r v)
      = (rstmWrite o wy ws ya sp ch out s).setReg r v := by
  cases wy <;> cases ws <;> cases o <;> rfl

theorem rstmChannel_setReg (wy ws : Bool) (c : Coefs Word) (xa ya sp ch : Nat) :
    rstmChannel o wy ws c xa ya sp ch (s.setReg r v)
      = (rstmChannel o wy ws c xa ya sp ch s).setReg r v :=
  atOnce_setReg rfl (rstmWrite_setReg v s wy ws ya sp ch)

/-- The address of an output that is not wanted does not matter. -/
theorem rstmWrite_congr {wy ws : Bool} {ya ya' sp sp' : Nat} (hy : wy = true → ya' = ya)
    (hs : ws = true → sp' = sp) : rstmWrite o wy ws ya' sp' = rstmWrite o wy ws ya sp := by
  funext ch out t
  cases wy <;> cases ws <;> simp [rstmWrite, hy, hs]

theorem rstmChannel_congr {wy ws : Bool} {ya ya' sp sp' : Nat} (hy : wy = true → ya' = ya)
    (hs : ws = true → sp' = sp) (c : Coefs Word) (xa : Nat) :
    rstmChannel o wy ws c xa ya' sp' = rstmChannel o wy ws c xa ya sp := by
  funext ch t
  rw [rstmChannel, rstmChannel, rstmWrite_congr hy hs]

/-- The run of an output that is not wanted is empty, and is compared with no other. -/
theorem rstmCheck_setReg {wy ws : Bool} (hr : r ∉ rstmRegs wy ws) :
    rstmCheck o wy ws (s.setReg r v) = rstmCheck o wy ws s := by
  obtain ⟨hx, hy, hs, hn⟩ := not_mem_rstmRegs.mp hr
  cases wy <;> cases ws <;>
    simp [rstmCheck, rstmAliasOk, rangeCheck, reg_setReg_ne, hx, hy, hs, hn]

theorem rstmBody_setReg {wy ws : Bool} (hr : r ∉ coefRegsOf o ++ rstmRegs wy ws) :
    rstmBody o wy ws (s.setReg r v) = (rstmBody o wy ws s).setReg r v := by
  obtain ⟨hcoef, hregs⟩ := not_or.mp (List.mem_append.not.mp hr)
  obtain ⟨hx, hy, hs, hn⟩ := not_mem_rstmRegs.mp hregs
  have hchannel := rstmChannel_congr (o := o)
    (fun h => congrArg BitVec.toNat (reg_setReg_ne s v (hy h)))
    (fun h => congrArg BitVec.toNat (reg_setReg_ne s v (hs h)))
  simp only [rstmBody, rstmCheck_setReg v s hregs, loadCoef_setReg v s hcoef, num_setReg,
    reg_setReg_ne s v hx, reg_setReg_ne s v hn, hchannel]
  cases coefCheck s.num (loadCoef o s) with
  | error f => rfl
  | ok _ =>
    by_cases hzero : (s.reg .nch).toNat = 0
    · simp only [hzero, if_true]
      rfl
    · simp only [hzero, if_false]
      cases rstmCheck o wy ws s with
      | error f => rfl
      | ok _ => exact repeatFrom_setReg (fun ch t => rstmChannel_setReg v t wy ws _ _ _ _ ch) _ _

/-! ### Multi-channel batch -/

@[simp] theorem readPointers_setReg (base ch n : Nat) :
    readPointers (s.setReg r v) base ch n = readPointers s base ch n := by
  induction n generalizing ch with
  | zero => rfl
  | succ n ih => simp only [readPointers, memReadOrRaise_setReg, ih]

@[simp] theorem checkChannelRuns_setReg (m ch : Nat) (runs : List (Nat × Nat)) :
    checkChannelRuns (s.setReg r v) m ch runs = checkChannelRuns s m ch runs := by
  induction runs generalizing ch with
  | nil => rfl
  | cons run runs ih => simp only [checkChannelRuns, rangeCheck_setReg, ih]

theorem procmSample_setReg (c : Coefs Word) (sp : Nat) (runs : List (Nat × Nat)) (i ch : Nat) :
    procmSample o c sp runs i ch (s.setReg r v) = (procmSample o c sp runs i ch s).setReg r v := by
  rw [procmSample, procmSample]
  exact atOnce_setReg rfl fun out => setMemCell_setReg v (s.memWrite _ out.1) _ out.2

theorem procmBody_setReg (hr : r ∉ coefRegsOf o ++ [.xptr, .yptr, .sptr, .ns, .nch]) :
    procmBody o (s.setReg r v) = (procmBody o s).setReg r v := by
  simp only [List.mem_append, List.mem_cons, List.not_mem_nil, or_false, not_or] at hr
  obtain ⟨hcoef, hptrs⟩ := hr
  have hplan : procmPlan o (s.setReg r v) = procmPlan o s := by
    simp [procmPlan, reg_setReg_ne, hptrs]
  simp only [procmBody, hplan, loadCoef_setReg v s hcoef, num_setReg, reg_setReg_ne, ne_eq, hptrs,
    not_false_eq_true]
  cases coefCheck s.num (loadCoef o s) with
  | error f => rfl
  | ok _ =>
    by_cases hzero : (s.reg .nch).toNat = 0 ∨ (s.reg .ns).toNat = 0
    · simp only [hzero, if_true]
      rfl
    · simp only [hzero, if_false]
      cases procmPlan o s with
      | error f => rfl
      | ok runs =>
        exact repeatFrom_setReg (fun i t => repeatFrom_setReg
          (fun ch u => procmSample_setReg v u _ _ runs i ch) _ _) _ _

/-! ### All engine commands -/

/-- The procedure of an engine command and its end, from states that differ in a register outside the
read set. -/
theorem sameBut_engine {i : Instr} (hi : designerPf i = none) (hr : r ∉ readSet i) (w : Word) :
    sameBut (writeSet i) r v (concludeRan w (bodyOf i s)) (concludeRan w (bodyOf i (s.setReg r v))) := by
  have batch {ws : List Reg} {x x' : Ran} (h : x' = x.setReg r v) :
      sameBut ws r v (concludeRan w x) (concludeRan w x') :=
    .inl (by rw [h, concludeRan_setReg])
  cases i <;> cases hi
  case rst1 => exact sameBut_rstBody (o := .first) v s hr w
  case rst2 => exact sameBut_rstBody (o := .second) v s hr w
  case proc1 => exact sameBut_procBody (o := .first) v s hr w
  case proc2 => exact sameBut_procBody (o := .second) v s hr w
  case procn1 => exact batch (procnBody_setReg (o := .first) v s hr)
  case procn2 => exact batch (procnBody_setReg (o := .second) v s hr)
  case rstm1Y | rstm1S | rstm1Ys => exact batch (rstmBody_setReg (o := .first) v s hr)
  case rstm2Y | rstm2S | rstm2Ys => exact batch (rstmBody_setReg (o := .second) v s hr)
  case procm1 => exact batch (procmBody_setReg (o := .first) v s hr)
  case procm2 => exact batch (procmBody_setReg (o := .second) v s hr)

end

/-! ### The statement -/

theorem firstUnwritten_setReg_of_not_mem {rs : List Reg} {r : Reg} (hr : r ∉ rs) (s : State)
    (v : Word) : firstUnwritten (s.setReg r v) rs = firstUnwritten s rs :=
  List.find?_congr fun _ h => congrArg not (written_setReg_ne s v fun e => hr (e ▸ h))

/-- Settles O20: both runs stop at the same unwritten register, or conclude procedures that differ in
`r` alone, if at all. -/
theorem registersOutsideTheReadSetDoNotMatter :
    Obligations.RegistersOutsideTheReadSetDoNotMatter := by
  intro i s r v hr
  have hsame := firstUnwritten_setReg_of_not_mem hr s v
  simp only [exec_eq_runCommand, runCommand, hsame]
  cases firstUnwritten s (readSet i) with
  | some r₀ => exact ⟨_, _, rfl, rfl, .inl rfl⟩
  | none =>
    refine ⟨_, _, rfl, rfl, ?_⟩
    cases hi : designerPf i with
    | some pf => exact sameBut_designer v s hi hr _
    | none => exact sameBut_engine v s hi hr _

end Sys2Proof.Machine
end

section
/-! The coefficient check and the state reset (`43_engine_reset.md`; O43, O44, O45, O58): every engine
command checks its coefficient set first, and `RST` of either order ends as the values of its reset
say. -/

namespace Sys2Proof.Machine

/-! ### A command that concludes -/

/-- With its read set written, a command whose procedure completes ends in its state (R104). -/
theorem exec_of_done {i : Instr} {s t : State} (hw : allWritten s (readSet i))
    (h : bodyOf i s = .done t) : exec i s = .next t := by
  rw [exec_of_written hw, h, concludeRan]

/-- With its read set written, a command whose procedure raises enters that fault (R104, R344). -/
theorem exec_of_raised {i : Instr} {s t : State} {r : Raise} (hw : allWritten s (readSet i))
    (h : bodyOf i s = .raised r t) : exec i s = .next (faultEntry r (encode i) t) := by
  rw [exec_of_written hw, h, concludeRan]

/-! ### The coefficient check (R271) -/

theorem coefCheck_valid {N : Num} {c : Coefs Word} (h : coefsValid N c = true) :
    coefCheck N c = .ok () := require_eq_ok.mpr h

theorem coefCheck_invalid {N : Num} {c : Coefs Word} (h : coefsValid N c = false) :
    coefCheck N c = .error ⟨.coeffInvalid, 0, 0⟩ := require_eq_error.mpr ⟨h, rfl⟩

section
variable {o : Order} {s : State} {r : Raise} (h : coefCheck s.num (loadCoef o s) = .error r)
include h

theorem rstBody_coefCheck_error : rstBody o s = .raised r s := by
  simp [rstBody, rstPlan, h]

theorem procBody_coefCheck_error : procBody o s = .raised r s := by
  simp [procBody, procPlan, h]

theorem procnBody_coefCheck_error : procnBody o s = .raised r s := by
  simp [procnBody, procnCheck, h]

theorem rstmBody_coefCheck_error (wy ws : Bool) : rstmBody o wy ws s = .raised r s := by
  simp [rstmBody, h]

theorem procmBody_coefCheck_error : procmBody o s = .raised r s := by
  simp [procmBody, h]

/-- The coefficient check is the first of every engine command (R271). -/
theorem bodyOf_coefCheck_error {i : Instr} (hi : engineOrder i = some o) :
    bodyOf i s = .raised r s := by
  cases i <;> cases hi
  case rst1 | rst2 => exact rstBody_coefCheck_error h
  case proc1 | proc2 => exact procBody_coefCheck_error h
  case procn1 | procn2 => exact procnBody_coefCheck_error h
  case rstm1Y | rstm1S | rstm1Ys | rstm2Y | rstm2S | rstm2Ys => exact rstmBody_coefCheck_error h _ _
  case procm1 | procm2 => exact procmBody_coefCheck_error h

end

/-! ### The reset of one channel (R275, R276) -/

/-- The three ends of `RST` with valid coefficients: the reset values in the output and the state
registers, a fault of the input, or a fault of a result. -/
theorem exec_rst_result {i : Instr} {o : Order} {s : State} {r : Word × Cell Word}
    (hb : bodyOf i = rstBody o) (hw : allWritten s (readSet i))
    (hv : coefsValid s.num (loadCoef o s) = true)
    (hr : resetValues s.num (loadCoef o s) (s.reg .x) = r) :
    (F32.isFinite (s.reg .x) = true → F32.isFinite r.1 = true → cellFinite o r.2 = true →
      exec i s = .next (writeOutput o r s)) ∧
    (F32.isFinite (s.reg .x) = false →
      exec i s = .next (faultEntry ⟨.valueNonfinite, 0, 0⟩ (encode i) s)) ∧
    (F32.isFinite (s.reg .x) = true → ¬(F32.isFinite r.1 = true ∧ cellFinite o r.2 = true) →
      exec i s = .next (faultEntry ⟨.outputNonfinite, 0, 0⟩ (encode i) s)) := by
  refine ⟨fun hx hy hs => exec_of_done hw ?results, fun hx => exec_of_raised hw ?input,
    fun hx hout => exec_of_raised hw ?output⟩ <;>
    rw [hb, rstBody, rstPlan, coefCheck_valid hv, ok_bind, resetChecked, hx]
  case results => simp [hr, hy, hs]
  case input => rfl
  case output =>
    rw [← Bool.and_eq_true, Bool.not_eq_true] at hout
    simp [hr, hout, raiseWith]

/-! ### The ideal meaning (R272, R273) -/

/-- The ideal first-order reset away from the boundary, over its one denominator (R272). -/
theorem resetValues1_ideal {c : Coef1 Rat} (x0 : Rat) (h : 1 + c.a1 ≠ 0) :
    resetValues1 idealArith (-1) c x0 =
      (x0 * (c.b0 + c.b1) / (1 + c.a1), x0 * (c.b1 - c.a1 * c.b0) / (1 + c.a1)) := by
  have hne : c.a1 ≠ -1 := fun e => h (by rw [e]; norm_num)
  simp only [resetValues1, idealArith, hne, decide_false, Bool.false_eq_true, if_false, Prod.mk.injEq]
  constructor <;> ring

/-- The ideal second-order reset away from the boundary, over its one denominator (R273). -/
theorem resetValues2_ideal {c : Coef2 Rat} (x0 : Rat) (h : 1 + c.a1 + c.a2 ≠ 0) :
    resetValues2 idealArith (-1) c x0 =
      (x0 * (c.b0 + c.b1 + c.b2) / (1 + c.a1 + c.a2),
       x0 * (c.b1 + c.b2 - c.b0 * (c.a1 + c.a2)) / (1 + c.a1 + c.a2),
       x0 * (c.b2 * (1 + c.a1) - c.a2 * (c.b0 + c.b1)) / (1 + c.a1 + c.a2)) := by
  have hne : c.a1 + c.a2 ≠ -1 := fun e => h (by rw [add_assoc, e]; norm_num)
  simp only [resetValues2, idealArith, hne, decide_false, Bool.false_eq_true, if_false, Prod.mk.injEq]
  refine ⟨?_, ?_, ?_⟩ <;> ring

/-! ### The statements -/

/-- Settles O43: the check of the set that the engine loads is the first of every engine command. -/
theorem invalidCoefficientsFault : Obligations.InvalidCoefficientsFault := by
  intro i o s hi hw hv
  refine exec_of_raised hw (bodyOf_coefCheck_error (coefCheck_invalid ?_) hi)
  cases o <;> exact hv

/-- Settles O44: on both sides of the boundary the reset values are the given ones. -/
theorem rst1Result : Obligations.Rst1Result := by
  intro s b0 b1 a1 x d kx y0 s0 hw hb0 hb1 ha1 hx hv hd hkx hy0 hs0
  subst hb0 hb1 ha1 hx hd hkx
  have hr : resetValues s.num (loadCoef .first s) (s.reg .x) = (y0, ⟨s0, F32.posZero⟩) := by
    simp only [resetValues, loadCoef, resetValues1, apply_ite Prod.fst, apply_ite Prod.snd, hy0, hs0]
    rfl
  exact exec_rst_result (i := .rst1) rfl hw hv hr

/-- Settles O45: on both sides of the boundary the reset values are the given ones. -/
theorem rst2Result : Obligations.Rst2Result := by
  intro s b0 b1 b2 a1 a2 x sa d kx y0 s1 s2 hw hb0 hb1 hb2 ha1 ha2 hx hv hsa hd hkx hy0 hs1 hs2
  subst hb0 hb1 hb2 ha1 ha2 hx hsa hd hkx
  have hr : resetValues s.num (loadCoef .second s) (s.reg .x) = (y0, ⟨s1, s2⟩) := by
    simp only [resetValues, loadCoef, resetValues2, apply_ite Prod.fst, apply_ite Prod.snd, hy0, hs1,
      hs2]
    rfl
  have hcell : cellFinite .second ⟨s1, s2⟩ = true ↔ F32.isFinite s1 = true ∧ F32.isFinite s2 = true :=
    Bool.and_eq_true_iff
  obtain ⟨hdone, hinput, houtput⟩ := exec_rst_result (i := .rst2) rfl hw hv hr
  exact ⟨fun hfx hfy hf1 hf2 => hdone hfx hfy (hcell.mpr ⟨hf1, hf2⟩), hinput,
    fun hfx hf => houtput hfx (by rwa [hcell])⟩

/-- Settles O58: away from the boundary the closed forms solve the step's equations over their one
denominator; at it the test of the boundary holds. -/
theorem idealResetIsAFixedPoint : Obligations.IdealResetIsAFixedPoint := by
  refine ⟨fun c x0 h => ?first, fun c x0 h => ?second, fun c x0 h => ?boundary1,
    fun c x0 h => ?boundary2⟩
  case first =>
    rw [resetValues1_ideal x0 h]
    simp only [stepValues1, idealArith, Prod.mk.injEq]
    constructor <;> field_simp <;> ring
  case second =>
    rw [resetValues2_ideal x0 h]
    simp only [stepValues2, idealArith, Prod.mk.injEq]
    refine ⟨?_, ?_, ?_⟩ <;> field_simp <;> ring
  case boundary1 => simp [resetValues1, idealArith, h]
  case boundary2 => simp [resetValues2, idealArith, h]

end Sys2Proof.Machine
end

section
/-! The batched reset (`43_engine_reset.md` R277 to R283; O52, O53): its checks in their order, the
loop over the channels where they pass, and the channel at which it stops. -/

namespace Sys2Proof.Machine

/-! ### A range check that passes, and one that fails (`20_memory.md` R74, R75) -/

theorem rangeCheck_inside {s : State} {a n ch : Nat} (h : runInMemory s a n) :
    rangeCheck s a n ch = .ok () := rangeCheck_ok.mpr (.inr h)

theorem rangeCheck_outside {s : State} {v : Word} {n : Nat} (hn : n ≠ 0)
    (h : ¬runInMemory s v.toNat n) : rangeCheck s v.toNat n 0 = .error ⟨.accessFault, v, 0⟩ :=
  rangeCheck_error.mpr ⟨⟨hn, h⟩, by simp [raiseWith]⟩

/-- The run of an array that is not wanted is empty. -/
theorem rangeCheck_wanted {s : State} {a n ch : Nat} {wanted : Bool}
    (h : wanted = true → runInMemory s a n) :
    rangeCheck s a (if wanted then n else 0) ch = .ok () := by
  cases wanted with
  | true => exact rangeCheck_inside (h rfl)
  | false => exact rangeCheck_ok.mpr (.inl rfl)

/-! ### The checks before the first access (R277, `20_memory.md` R85) -/

section
variable {o : Order} {wy ws : Bool} {s : State} (hn : (s.reg .nch).toNat ≠ 0)

include hn in
theorem rstmCheck_input_error
    (hx : ¬runInMemory s (s.reg .xptr).toNat (s.reg .nch).toNat) :
    rstmCheck o wy ws s = .error ⟨.accessFault, s.reg .xptr, 0⟩ := by
  simp only [rstmCheck, rangeCheck_outside hn hx, error_bind]

variable (hx : runInMemory s (s.reg .xptr).toNat (s.reg .nch).toNat)

include hn hx in
theorem rstmCheck_output_error (hwy : wy = true)
    (hy : ¬runInMemory s (s.reg .yptr).toNat (s.reg .nch).toNat) :
    rstmCheck o wy ws s = .error ⟨.accessFault, s.reg .yptr, 0⟩ := by
  simp only [rstmCheck, rangeCheck_inside hx, hwy, if_true, rangeCheck_outside hn hy, ok_bind,
    error_bind]

variable (hy : wy = true → runInMemory s (s.reg .yptr).toNat (s.reg .nch).toNat)

include hn hx hy in
theorem rstmCheck_state_error (hws : ws = true)
    (hs : ¬runInMemory s (s.reg .sptr).toNat (orderWords o * (s.reg .nch).toNat)) :
    rstmCheck o wy ws s = .error ⟨.accessFault, s.reg .sptr, 0⟩ := by
  simp only [rstmCheck, rangeCheck_inside hx, rangeCheck_wanted hy, hws, if_true,
    rangeCheck_outside (orderWords_mul_ne_zero hn) hs, ok_bind, error_bind]

variable
  (hs : ws = true → runInMemory s (s.reg .sptr).toNat (orderWords o * (s.reg .nch).toNat))

include hx hy hs in
/-- Where the ranges pass, the overlap of the arrays decides. -/
theorem rstmCheck_of_ranges : rstmCheck o wy ws s =
    require (rstmAliasOk o wy ws (s.reg .nch).toNat (s.reg .xptr).toNat (s.reg .yptr).toNat
      (s.reg .sptr).toNat) ⟨.aliasViolation, 0, 0⟩ := by
  simp only [rstmCheck, rangeCheck_inside hx, rangeCheck_wanted hy, rangeCheck_wanted hs, ok_bind]
  rfl

end

/-! ### The procedure (R277) -/

section
variable {o : Order} {wy ws : Bool} {s : State} (hv : coefsValid s.num (loadCoef o s) = true)
include hv

theorem rstmBody_no_channel (hn : (s.reg .nch).toNat = 0) : rstmBody o wy ws s = .done s := by
  simp [rstmBody, coefCheck_valid hv, hn]

theorem rstmBody_rstmCheck_error (hn : (s.reg .nch).toNat ≠ 0) {r : Raise}
    (h : rstmCheck o wy ws s = .error r) : rstmBody o wy ws s = .raised r s := by
  simp [rstmBody, coefCheck_valid hv, hn, h]

theorem rstmBody_of_rstmCheck (hn : (s.reg .nch).toNat ≠ 0) (h : rstmCheck o wy ws s = .ok ()) :
    rstmBody o wy ws s = repeatFrom (rstmChannel o wy ws (loadCoef o s) (s.reg .xptr).toNat
      (s.reg .yptr).toNat (s.reg .sptr).toNat) 0 (s.reg .nch).toNat s := by
  simp [rstmBody, coefCheck_valid hv, hn, h]

end

/-! ### The channel at which the loop stops (`60_exceptions.md` R346) -/

/-- The wanted results of a channel are finite (R277). -/
def wantedFinite (o : Order) (wy ws : Bool) (r : Word × Cell Word) : Prop :=
  (wy = true → F32.isFinite r.1 = true) ∧ (ws = true → cellFinite o r.2 = true)

theorem wantedFinite_iff {o : Order} {wy ws : Bool} {r : Word × Cell Word} :
    wantedFinite o wy ws r ↔
      (!wy || F32.isFinite r.1) = true ∧ (!ws || cellFinite o r.2) = true := by
  cases wy <;> cases ws <;> simp [wantedFinite]

section
variable {N : Num} {o : Order} {wy ws : Bool} {c : Coefs Word} {xa ch : Nat} {s : State} {x : Word}

theorem rstmValues_unwritten (h : s.memRead (wordAddr xa ch) = none) :
    rstmValues N o wy ws c xa ch s = .error (raiseWith .unwrittenMemory (wordAddr xa ch) ch) := by
  rw [rstmValues, memReadOrRaise_error.mpr ⟨h, rfl⟩, error_bind]

theorem rstmValues_input_error (h : s.memRead (wordAddr xa ch) = some x)
    (hx : F32.isFinite x = false) :
    rstmValues N o wy ws c xa ch s = .error (raiseWith .valueNonfinite 0 ch) := by
  rw [rstmValues, memReadOrRaise_ok.mpr h, ok_bind, resetChecked, hx]
  rfl

theorem rstmValues_output_error (h : s.memRead (wordAddr xa ch) = some x)
    (hx : F32.isFinite x = true) (hr : ¬wantedFinite o wy ws (resetValues N c x)) :
    rstmValues N o wy ws c xa ch s = .error (raiseWith .outputNonfinite 0 ch) := by
  rw [rstmValues, memReadOrRaise_ok.mpr h, ok_bind, resetChecked_ok.mpr ⟨hx, rfl⟩, ok_bind]
  rw [wantedFinite_iff] at hr
  cases hy : !wy || F32.isFinite (resetValues N c x).1 with
  | false => rfl
  | true =>
    have hs : (!ws || cellFinite o (resetValues N c x).2) = false :=
      Bool.eq_false_iff.mpr fun hs => hr ⟨hy, hs⟩
    rw [hs]
    rfl

end

/-- The input of channel `k` still has its first contents when the channels before it are done: their
writes lie in their part of the output run, which is the input run or apart from it, and in the state
array, which is apart from it (`20_memory.md` R85). -/
theorem readWord_rstm_input {bo : ByteOrder} {o : Order} {wy ws : Bool} {m m' : Memory}
    {xa ya sp n k : Nat} (hk : k < n) (hy : wy = true → sameOrApart xa ya n)
    (hs : ws = true → apart sp (orderWords o * n) xa n)
    (hframe : ∀ a, (wy = true → ¬inRun ya k a) → (ws = true → ¬inRun sp (orderWords o * k) a) →
      readByte m' a = readByte m a) :
    readWord bo m' (wordAddr xa k) = readWord bo m (wordAddr xa k) := by
  refine readWord_congr fun a ha ha' => hframe a (fun hwy => ?output) fun hws => ?state
  case output =>
    have := hy hwy
    unfold wordAddr at ha ha'
    unfold sameOrApart at this
    unfold inRun
    omega
  case state =>
    have := hs hws
    have hle : orderWords o * k ≤ orderWords o * n := Nat.mul_le_mul_left _ hk.le
    unfold wordAddr at ha ha'
    unfold apart at this
    unfold inRun
    omega

/-! ### The statements -/

/-- Settles O52: no channel, no access; otherwise the checks pass and the loop runs over all the
channels. -/
theorem rstmCompletes : Obligations.RstmCompletes := by
  intro i o wy ws hi s n xa ya sp xs hw hv hn hxa hya hsp hruns hlen hxs hfinite
  subst hxa hya hsp hlen
  have hbody : bodyOf i = rstmBody o wy ws := bodyOf_rstmCommands _ hi
  by_cases hzero : xs.length = 0
  case pos =>
    obtain rfl := List.length_eq_zero_iff.mp hzero
    exact ⟨s.mem, exec_of_done hw (hbody ▸ rstmBody_no_channel hv hn.symm),
      fun _ _ h => absurd h (Nat.not_lt_zero _), fun _ _ h => absurd h (Nat.not_lt_zero _),
      fun _ _ _ => rfl⟩
  case neg =>
    obtain ⟨hx, hy, hs, hys⟩ := hruns hzero
    have hcheck : rstmCheck o wy ws s = .ok () := by
      rw [hn] at hx hy hs hys hzero
      rw [rstmCheck_of_ranges hx (fun h => (hy h).1) fun h => (hs h).1, require_eq_ok,
        rstmAliasOk_iff hzero]
      exact ⟨fun h => (hy h).2, fun h => (hs h).2, hys⟩
    obtain ⟨m, hloop, hout, hcells, hframe⟩ := rstmLoop le_rfl (fun h => (hy h).2)
      (fun h => (hs h).2) hys hxs hfinite
    refine ⟨m, exec_of_done hw ?_, hout, hcells, hframe⟩
    rw [hbody, rstmBody_of_rstmCheck hv (hn ▸ hzero) hcheck, ← hn, hloop]

/-- Settles O53: the checks raise in the order of the procedure; where they pass, the channels before
`k` are done and their writes leave its input alone, so its values raise in the loop. -/
theorem rstmFaults : Obligations.RstmFaults := by
  intro i o wy ws hi s n xa ya sp hw hv hn hzero hxa hya hsp
  subst hxa hya hsp hn
  have hbody : bodyOf i = rstmBody o wy ws := bodyOf_rstmCommands _ hi
  have hfault {r : Raise} (h : rstmCheck o wy ws s = .error r) :
      exec i s = .next (faultEntry r (encode i) s) :=
    exec_of_raised hw (hbody ▸ rstmBody_rstmCheck_error hv hzero h)
  refine ⟨fun hx => hfault (rstmCheck_input_error hzero hx), fun hx =>
    ⟨fun hwy hy => hfault (rstmCheck_output_error hzero hx hwy hy), fun hy =>
    ⟨fun hws hs => hfault (rstmCheck_state_error hzero hx hy hws hs), fun hs =>
    ⟨fun halias => hfault ?overlap, fun hxy hsx hsy xs f hk hxs hfinite hf => ?channel⟩⟩⟩⟩
  case overlap =>
    rw [rstmCheck_of_ranges hx hy hs, require_eq_error, ← Bool.not_eq_true, rstmAliasOk_iff hzero]
    exact ⟨halias, rfl⟩
  case channel =>
    have hcheck : rstmCheck o wy ws s = .ok () := by
      rw [rstmCheck_of_ranges hx hy hs, require_eq_ok, rstmAliasOk_iff hzero]
      exact ⟨hxy, hsx, hsy⟩
    obtain ⟨m, hloop, hout, hcells, hframe⟩ := rstmLoop hk.le hxy hsx hsy hxs hfinite
    have hread : State.memRead { s with mem := m } (wordAddr (s.reg .xptr).toNat xs.length)
        = s.memRead (wordAddr (s.reg .xptr).toNat xs.length) :=
      readWord_rstm_input hk hxy hsx hframe
    have hraise : rstmValues s.num o wy ws (loadCoef o s) (s.reg .xptr).toNat xs.length
        { s with mem := m } = .error f := by
      rw [← hread] at hf
      obtain ⟨h, rfl⟩ | ⟨x, h, hx, rfl⟩ | ⟨x, h, hx, hr, rfl⟩ := hf
      · exact rstmValues_unwritten h
      · exact rstmValues_input_error h hx
      · exact rstmValues_output_error h hx hr
    refine ⟨m, exec_of_raised hw ?_, hout, hcells, hframe⟩
    rw [hbody, rstmBody_of_rstmCheck hv hzero hcheck]
    exact repeatFrom_stops hk hloop (congrArg (atOnce · _ _) hraise)

end Sys2Proof.Machine
end

section
/-! Single samples (`44_engine_process.md` R300 to R303; O46, O47) and what no engine command stores
(O59): a step's checks fail alike at every sample of every channel, and `PROC` ends as its step
says. -/

namespace Sys2Proof.Machine

/-! ### The checks of a step (R300, R301) -/

section
variable {N : Num} {c : Coefs Word} {x : Word} {st : Cell Word}

theorem stepChecked_value_error
    (h : ¬(F32.isFinite x = true ∧ cellFinite (orderOf c) st = true)) (i ch : Nat) :
    stepChecked N c x st i ch = .error (raiseWith .valueNonfinite i ch) := by
  rw [← Bool.and_eq_true, Bool.not_eq_true] at h
  rw [stepChecked, h, require_false, error_bind]

theorem stepChecked_output_error {r : Word × Cell Word}
    (h : F32.isFinite x = true ∧ cellFinite (orderOf c) st = true)
    (hr : stepValues N c x st = r)
    (hout : ¬(F32.isFinite r.1 = true ∧ cellFinite (orderOf c) r.2 = true)) (i ch : Nat) :
    stepChecked N c x st i ch = .error (raiseWith .outputNonfinite i ch) := by
  rw [← Bool.and_eq_true] at h
  rw [← Bool.and_eq_true, Bool.not_eq_true] at hout
  subst hr
  simp [stepChecked, h, hout]

/-- A step that passes its checks at one sample of one channel passes them at every one, and so does
one that fails them: only the record of the fault names the sample and the channel. -/
theorem stepChecked_cases (N : Num) (c : Coefs Word) (x : Word) (st : Cell Word) :
    (∃ r, ∀ i ch, stepChecked N c x st i ch = .ok r) ∨
    ∃ cause, ∀ i ch, stepChecked N c x st i ch = .error (raiseWith cause i ch) := by
  by_cases hin : F32.isFinite x = true ∧ cellFinite (orderOf c) st = true
  case neg => exact .inr ⟨_, stepChecked_value_error hin⟩
  case pos =>
    by_cases hout : F32.isFinite (stepValues N c x st).1 = true ∧
        cellFinite (orderOf c) (stepValues N c x st).2 = true
    case neg => exact .inr ⟨_, stepChecked_output_error hin rfl hout⟩
    case pos => exact .inl ⟨_, fun _ _ => stepChecked_ok.mpr ⟨hin.1, hin.2, rfl, hout⟩⟩

end

/-! ### The commands (R302, R303) -/

theorem bodyOf_procCommand (o : Order) : bodyOf (procCommand o) = procBody o := by
  cases o <;> rfl

/-- With valid coefficients `PROC` is the step at sample 0 of channel 0. -/
theorem procPlan_of_valid {o : Order} {s : State} (hv : coefsValid s.num (loadCoef o s) = true) :
    procPlan o s = stepChecked s.num (loadCoef o s) (s.reg .x) (regCell o s) 0 0 := by
  rw [procPlan, coefCheck_valid hv, ok_bind]

/-- The three ends of `PROC` with valid coefficients: the step's values in the output and the state
registers, a fault of the input or the state, or a fault of a result. -/
theorem exec_proc_result {o : Order} {s : State} {r : Word × Cell Word}
    (hw : allWritten s (readSet (procCommand o))) (hv : coefsValid s.num (loadCoef o s) = true)
    (hr : stepValues s.num (loadCoef o s) (s.reg .x) (regCell o s) = r) :
    (F32.isFinite (s.reg .x) = true → cellFinite o (regCell o s) = true →
      F32.isFinite r.1 = true → cellFinite o r.2 = true →
      exec (procCommand o) s = .next (writeOutput o r s)) ∧
    (¬(F32.isFinite (s.reg .x) = true ∧ cellFinite o (regCell o s) = true) →
      exec (procCommand o) s
        = .next (faultEntry ⟨.valueNonfinite, 0, 0⟩ (encode (procCommand o)) s)) ∧
    (F32.isFinite (s.reg .x) = true → cellFinite o (regCell o s) = true →
      ¬(F32.isFinite r.1 = true ∧ cellFinite o r.2 = true) →
      exec (procCommand o) s
        = .next (faultEntry ⟨.outputNonfinite, 0, 0⟩ (encode (procCommand o)) s)) := by
  have ho : orderOf (loadCoef o s) = o := orderOf_loadCoef o s
  refine ⟨fun hx hst hy hst' => exec_of_done hw ?results, fun hin => exec_of_raised hw ?input,
    fun hx hst hout => exec_of_raised hw ?output⟩ <;>
    rw [bodyOf_procCommand, procBody, procPlan_of_valid hv]
  case results =>
    rw [stepChecked_ok.mpr ⟨hx, ho.symm ▸ hst, hr.symm, hy, ho.symm ▸ hst'⟩, atOnce_ok]
  case input => rw [stepChecked_value_error (ho.symm ▸ hin)]; rfl
  case output =>
    rw [stepChecked_output_error ⟨hx, ho.symm ▸ hst⟩ hr (ho.symm ▸ hout)]; rfl

/-! ### The statements -/

/-- Settles O46: the values of the first-order step are the given ones. -/
theorem proc1Result : Obligations.Proc1Result := by
  intro s x st y st' hw hv hx hst hy hst'
  subst hx hst hy hst'
  obtain ⟨hdone, hinput, houtput⟩ := exec_proc_result (o := .first) hw hv rfl
  exact ⟨hdone, hinput, houtput⟩

/-- Settles O47: the values of the second-order step are the given ones. -/
theorem proc2Result : Obligations.Proc2Result := by
  intro s x s1 s2 y s1' s2' hw hv hx hs1 hs2 hy hs1' hs2'
  subst hx hs1 hs2 hy hs1' hs2'
  have hcell (v w : Word) :
      cellFinite .second ⟨v, w⟩ = true ↔ F32.isFinite v = true ∧ F32.isFinite w = true :=
    Bool.and_eq_true_iff
  obtain ⟨hdone, hinput, houtput⟩ := exec_proc_result (o := .second) hw hv rfl
  simp only [regCell, hcell, loadCoef, stepValues, stepValues2] at hdone hinput houtput
  exact ⟨fun hx h1 h2 hy h1' h2' => hdone hx ⟨h1, h2⟩ hy ⟨h1', h2'⟩, hinput,
    fun hx h1 h2 => houtput hx ⟨h1, h2⟩⟩

/-- Settles O59: the procedures write finite values only, in registers and in aligned words. -/
theorem engineStoresOnlyFiniteValues : Obligations.EngineStoresOnlyFiniteValues := by
  intro i o s t ho h
  refine ⟨exec_property (P := regsFinite s) h (fun _ => .inl rfl) (bodyOf_regsFinite ho s)
    fun _ _ hu => hu, fun a ha => ?_⟩
  have hword := (exec_wrote h (bodyOf_wrote i s)).word (fun _ _ hp => hp.1) ha
  obtain ⟨-, -, -, hparams, -⟩ := exec_registerFrame h
  rw [← hparams] at hword
  rw [State.memRead, State.memRead, ← hparams]
  exact hword.imp id fun ⟨v, hv, hp⟩ => ⟨v, hv, hp.2.2.1⟩

end Sys2Proof.Machine
end

section
/-! The single-channel batch (`44_engine_process.md` R304 to R306, R310; O48 to O51): its checks in
their order, the loop over the samples where they pass, the sample at which it stops, and the host's
loop of single-sample commands over the same inputs. -/

namespace Sys2Proof.Machine

/-! ### The registers that `PROC` and `PROCN` read (R106) -/

theorem readSet_procCommand (o : Order) :
    readSet (procCommand o) = coefRegsOf o ++ .x :: stateRegs o := by
  cases o <;> rfl

theorem readSet_procnCommand (o : Order) :
    readSet (procnCommand o) = coefRegsOf o ++ stateRegs o ++ [.xptr, .yptr, .ns] := by
  cases o <;> rfl

/-- A write clears no written-bit (`10_state.md` R35). -/
theorem allWritten_setReg {s : State} {rs : List Reg} (h : allWritten s rs) (r : Reg) (v : Word) :
    allWritten (s.setReg r v) rs := fun r' hr' => by
  rw [written_setReg, h r' hr', ite_self]

theorem allWritten_setRegCell {s : State} {rs : List Reg} (h : allWritten s rs) (o : Order)
    (st : Cell Word) : allWritten (setRegCell o st s) rs := by
  cases o with
  | first => exact allWritten_setReg h _ _
  | second => exact allWritten_setReg (allWritten_setReg h _ _) _ _

/-- A command that writes no coefficient register leaves the set as it was. -/
theorem Keeps.loadCoef {o : Order} {rs : List Reg} {s t : State} (h : Keeps rs s t)
    (hd : ∀ r ∈ coefRegsOf o, r ∉ rs) : loadCoef o t = loadCoef o s := by
  cases o <;> simp only [coefRegsOf, coefRegs1, coefRegs2, List.forall_mem_cons] at hd <;>
    simp [Machine.loadCoef, h.reg, hd]

@[simp] theorem regCell_faultEntry (o : Order) (f : Raise) (w : Word) (s : State) :
    regCell o (faultEntry f w s) = regCell o s := by
  cases o <;> rfl

theorem regCell_with_mem (o : Order) (s : State) (m : Memory) :
    regCell o { s with mem := m } = regCell o s := by
  cases o <;> rfl

/-! ### The checks before the first access (R304, `20_memory.md` R74, R83) -/

section
variable {o : Order} {s : State} (hv : coefsValid s.num (loadCoef o s) = true)
include hv

theorem procnCheck_state_error (hc : cellFinite o (regCell o s) = false) :
    procnCheck o s = .error ⟨.valueNonfinite, 0, 0⟩ := by
  simp only [procnCheck, coefCheck_valid hv, hc, ok_bind, require_false, error_bind]
  rfl

variable (hc : cellFinite o (regCell o s) = true) (hn : (s.reg .ns).toNat ≠ 0)
include hc

include hn in
theorem procnCheck_input_error (hx : ¬runInMemory s (s.reg .xptr).toNat (s.reg .ns).toNat) :
    procnCheck o s = .error ⟨.accessFault, s.reg .xptr, 0⟩ := by
  simp only [procnCheck, coefCheck_valid hv, hc, ok_bind, require_true, rangeCheck_outside hn hx,
    error_bind]

variable (hx : runInMemory s (s.reg .xptr).toNat (s.reg .ns).toNat)
include hx

include hn in
theorem procnCheck_output_error (hy : ¬runInMemory s (s.reg .yptr).toNat (s.reg .ns).toNat) :
    procnCheck o s = .error ⟨.accessFault, s.reg .yptr, 0⟩ := by
  simp only [procnCheck, coefCheck_valid hv, hc, ok_bind, require_true, rangeCheck_inside hx,
    rangeCheck_outside hn hy, error_bind]

theorem procnCheck_alias_error (hy : runInMemory s (s.reg .yptr).toNat (s.reg .ns).toNat)
    (ha : ¬sameOrApart (s.reg .xptr).toNat (s.reg .yptr).toNat (s.reg .ns).toNat) :
    procnCheck o s = .error ⟨.aliasViolation, 0, 0⟩ := by
  simp only [procnCheck, coefCheck_valid hv, hc, ok_bind, require_true, rangeCheck_inside hx,
    rangeCheck_inside hy]
  rw [← same_or_disjoint_iff, Bool.not_eq_true] at ha
  exact require_eq_error.mpr ⟨ha, rfl⟩

end

/-! ### The procedure (R304) -/

theorem procnBody_procnCheck_error {o : Order} {s : State} {r : Raise}
    (h : procnCheck o s = .error r) : procnBody o s = .raised r s := by
  simp [procnBody, h]

theorem procnBody_of_procnCheck {o : Order} {s : State} (h : procnCheck o s = .ok ()) :
    procnBody o s = repeatFrom (procnSample o (loadCoef o s) (s.reg .xptr).toNat
      (s.reg .yptr).toNat) 0 (s.reg .ns).toNat s := by
  simp [procnBody, h]

/-- The reads and the step of sample `i` of `PROCN`, from the state cell `st` (R304). -/
def procnValues (c : Coefs Word) (xa i : Nat) (st : Cell Word) (s : State) :
    Except Raise (Word × Cell Word) := do
  let x ← memReadOrRaise s (wordAddr xa i) 0
  stepChecked s.num c x st i 0

theorem procnSample_raises {o : Order} {c : Coefs Word} {xa ya i : Nat} {s : State} {f : Raise}
    (h : procnValues c xa i (regCell o s) s = .error f) :
    procnSample o c xa ya i s = .raised f s :=
  congrArg (atOnce · _ s) h

/-- The input of sample `k` still has its first contents when the samples before it are done: their
outputs lie in the output run, which is the input run or apart from it (`20_memory.md` R83). -/
theorem readWord_procn_input {bo : ByteOrder} {m m' : Memory} {xa ya n k : Nat} (hk : k < n)
    (ha : sameOrApart xa ya n) (hframe : ∀ a, ¬inRun ya k a → readByte m' a = readByte m a) :
    readWord bo m' (wordAddr xa k) = readWord bo m (wordAddr xa k) := by
  refine readWord_congr fun a h h' => hframe a ?_
  unfold wordAddr at h h'
  unfold sameOrApart at ha
  unfold inRun
  omega

/-- A `PROCN` whose sample `k` raises stops there, with the outputs of the samples before it in the
output run and the state after them in the state registers (R304, `60_exceptions.md` R346). -/
theorem procnBody_raises_at {o : Order} {s : State} {xs ys : List Word} {st : Cell Word} {f : Raise}
    (hw : ∀ r ∈ stateRegs o, s.written r = true) (hcheck : procnCheck o s = .ok ())
    (ha : sameOrApart (s.reg .xptr).toNat (s.reg .yptr).toNat (s.reg .ns).toNat)
    (hk : xs.length < (s.reg .ns).toNat)
    (hx : runHolds s.params.byteOrder s.mem (s.reg .xptr).toNat xs)
    (hr : channelRun s.num (loadCoef o s) (regCell o s) xs = some (ys, st))
    (hf : procnValues (loadCoef o s) (s.reg .xptr).toNat xs.length st s = .error f) :
    ∃ m, procnBody o s = .raised f { setRegCell o st s with mem := m } ∧
      runHolds s.params.byteOrder m (s.reg .yptr).toNat ys ∧
      ∀ a, ¬inRun (s.reg .yptr).toNat xs.length a → readByte m a = readByte s.mem a := by
  obtain ⟨m, hloop, hout, hframe⟩ := procnLoop (orderOf_loadCoef o s) hw hk.le ha hx hr
  refine ⟨m, ?_, hout, hframe⟩
  rw [procnBody_of_procnCheck hcheck]
  refine repeatFrom_stops hk hloop (procnSample_raises ?_)
  have hform : cellForm o st := by
    have := channelRun_form (c := loadCoef o s) (by simpa using cellForm_regCell o s) hr
    simpa using this
  have hread : State.memRead { setRegCell o st s with mem := m }
      (wordAddr (s.reg .xptr).toNat xs.length)
        = s.memRead (wordAddr (s.reg .xptr).toNat xs.length) := by
    rw [State.memRead, State.memRead, setRegCell_params]
    exact readWord_procn_input hk ha hframe
  rw [regCell_with_mem, regCell_setRegCell hform, ← hf]
  have hnum : State.num { setRegCell o st s with mem := m } = s.num := setRegCell_num o st s
  simp only [procnValues, memReadOrRaise, hread, hnum]

/-! ### The host's loop of single-sample commands (R310) -/

section
variable {i : Instr} {x : Word} {s t : State} (h : exec i (s.setReg .x x) = .next t)
  (xs : List Word)
include h

theorem scalarLoop_cons_of_halted (ht : t.halted = true) : scalarLoop i (x :: xs) s = ([], t) := by
  simp [scalarLoop, h, ht]

theorem scalarLoop_cons_of_running (ht : t.halted = false) :
    scalarLoop i (x :: xs) s = (t.reg .y :: (scalarLoop i xs t).1, (scalarLoop i xs t).2) := by
  simp [scalarLoop, h, ht]

end

/-- A channel run goes on from a step that passes its checks. -/
theorem channelRun_cons_of_step {N : Num} {c : Coefs Word} {x : Word} {xs ys : List Word}
    {st st' : Cell Word} {r : Word × Cell Word} {i ch : Nat}
    (h : stepChecked N c x st i ch = .ok r) (hr : channelRun N c r.2 xs = some (ys, st')) :
    channelRun N c st (x :: xs) = some (r.1 :: ys, st') := by
  obtain ⟨hx, hst, rfl, hy, hst'⟩ := stepChecked_ok.mp h
  simp [channelRun, hx, hst, hy, hst', hr]

/-- With an input in `X`, `PROC` reads no register that `PROCN` does not (R106). -/
theorem allWritten_proc_setReg_x {o : Order} {s : State}
    (hw : allWritten s (coefRegsOf o ++ stateRegs o)) (x : Word) :
    allWritten (s.setReg .x x) (readSet (procCommand o)) := by
  intro r hr
  rw [readSet_procCommand, List.mem_append, List.mem_cons] at hr
  obtain hr | rfl | hr := hr
  · exact allWritten_setReg hw .x x r (List.mem_append_left _ hr)
  · exact written_setReg_same s .x x
  · exact allWritten_setReg hw .x x r (List.mem_append_right _ hr)

theorem loadCoef_setReg_x (o : Order) (s : State) (x : Word) :
    loadCoef o (s.setReg .x x) = loadCoef o s :=
  loadCoef_setReg x s (by cases o <;> decide)

theorem regCell_setReg_x (o : Order) (s : State) (x : Word) :
    regCell o (s.setReg .x x) = regCell o s :=
  regCell_setReg x s (by cases o <;> decide)

/-- `PROC` on an input is the step of the state registers. -/
theorem exec_proc_setReg_x {o : Order} {s : State} (x : Word)
    (hw : allWritten s (coefRegsOf o ++ stateRegs o))
    (hv : coefsValid s.num (loadCoef o s) = true) :
    exec (procCommand o) (s.setReg .x x) = .next (concludeRan (encode (procCommand o))
      (atOnce (stepChecked s.num (loadCoef o s) x (regCell o s) 0 0) (writeOutput o)
        (s.setReg .x x))) := by
  rw [exec_of_written (allWritten_proc_setReg_x hw x), bodyOf_procCommand, procBody,
    procPlan_of_valid (by rw [loadCoef_setReg_x, num_setReg]; exact hv), loadCoef_setReg_x,
    regCell_setReg_x, num_setReg, reg_setReg_same]

theorem allWritten_writeOutput {s : State} {rs : List Reg} (h : allWritten s rs) (o : Order)
    (r : Word × Cell Word) : allWritten (writeOutput o r s) rs :=
  allWritten_setRegCell (allWritten_setReg h _ _) _ _

/-- After the outputs of a step are written, `Y` holds the output. -/
theorem reg_y_writeOutput (o : Order) (r : Word × Cell Word) (s : State) :
    (writeOutput o r s).reg .y = r.1 :=
  ((keeps_setRegCell o r.2 (s.setReg .y r.1)).reg .y (by cases o <;> decide)).trans
    (reg_setReg_same s .y r.1)

/-- After the outputs of a step are written, the state registers hold its cell. -/
theorem regCell_writeOutput {o : Order} {N : Num} {c : Coefs Word} {x : Word} {s t : State}
    {i ch : Nat} {r : Word × Cell Word} (ho : orderOf c = o)
    (h : stepChecked N c x (regCell o s) i ch = .ok r) : regCell o (writeOutput o r t) = r.2 := by
  subst ho
  obtain ⟨-, -, rfl, -⟩ := stepChecked_ok.mp h
  exact regCell_setRegCell (cellForm_stepValues (cellForm_regCell _ s)) _

/-- The host's loop that ends without a fault: its outputs and the state registers are those of the
channel run, and the fault registers are as before. -/
structure LoopDone (o : Order) (s : State) (xs ys : List Word) (u : State) : Prop where
  run : channelRun s.num (loadCoef o s) (regCell o s) xs = some (ys, regCell o u)
  halted : u.halted = false
  status : u.status = s.status

/-- The host's loop that faults at the input `x` after the inputs `before`. -/
structure LoopFaulted (o : Order) (s : State) (before : List Word) (x : Word) (cause : Cause)
    (ys : List Word) (u : State) : Prop where
  run : channelRun s.num (loadCoef o s) (regCell o s) before = some (ys, regCell o u)
  step : ∀ i ch, stepChecked s.num (loadCoef o s) x (regCell o u) i ch
    = .error (raiseWith cause i ch)
  halted : u.halted = true
  status : u.status = statusOfCause cause
  finfo : u.finfo = 0

/-- What the host's loop can do with valid coefficients. -/
theorem scalarLoop_cases {o : Order} {s : State} {xs : List Word}
    (hw : allWritten s (coefRegsOf o ++ stateRegs o))
    (hv : coefsValid s.num (loadCoef o s) = true) (hh : s.halted = false) :
    LoopDone o s xs (scalarLoop (procCommand o) xs s).1 (scalarLoop (procCommand o) xs s).2 ∨
    ∃ before x rest cause, xs = before ++ x :: rest ∧ LoopFaulted o s before x cause
      (scalarLoop (procCommand o) xs s).1 (scalarLoop (procCommand o) xs s).2 := by
  induction xs generalizing s with
  | nil => exact .inl ⟨rfl, hh, rfl⟩
  | cons x xs ih =>
    have hexec := exec_proc_setReg_x x hw hv
    obtain ⟨r, hr⟩ | ⟨cause, hf⟩ := stepChecked_cases s.num (loadCoef o s) x (regCell o s)
    case inr =>
      rw [hf 0 0, atOnce_error, concludeRan] at hexec
      rw [scalarLoop_cons_of_halted hexec xs rfl]
      refine .inr ⟨[], x, xs, cause, rfl, ?_, ?_, rfl, rfl, rfl⟩
      · rw [regCell_faultEntry, regCell_setReg_x]; rfl
      · rwa [regCell_faultEntry, regCell_setReg_x]
    case inl =>
      rw [hr 0 0, atOnce_ok, concludeRan] at hexec
      have hkeeps : Keeps (.x :: .y :: stateRegs o) s (writeOutput o r (s.setReg .x x)) :=
        (Keeps.setReg (by simp) s x).trans
          ((keeps_writeOutput o r _).mono fun _ => List.mem_cons_of_mem _)
      have hload := hkeeps.loadCoef (o := o) (by cases o <;> decide)
      have hcell : regCell o (writeOutput o r (s.setReg .x x)) = r.2 :=
        regCell_writeOutput (orderOf_loadCoef o s) (hr 0 0)
      rw [scalarLoop_cons_of_running hexec xs (hkeeps.halted.trans hh), reg_y_writeOutput]
      have hnext := ih (allWritten_writeOutput (allWritten_setReg hw .x x) o r)
        (by rw [hload, hkeeps.num]; exact hv) (hkeeps.halted.trans hh)
      obtain h | ⟨before, x', rest, cause, rfl, h⟩ := hnext
      · have hrun := h.run
        rw [hload, hkeeps.num, hcell] at hrun
        exact .inl ⟨channelRun_cons_of_step (hr 0 0) hrun, h.halted, h.status.trans hkeeps.status⟩
      · have hrun := h.run
        have hstep := h.step
        rw [hload, hkeeps.num] at hrun hstep
        rw [hcell] at hrun
        exact .inr ⟨x :: before, x', rest, cause, rfl, channelRun_cons_of_step (hr 0 0) hrun, hstep,
          h.halted, h.status, h.finfo⟩

/-! ### The statements -/

theorem allWritten_coef_state {o : Order} {s : State}
    (hw : allWritten s (readSet (procnCommand o))) :
    allWritten s (coefRegsOf o ++ stateRegs o) := fun r hr =>
  hw r (readSet_procnCommand o ▸ List.mem_append_left _ hr)

theorem written_stateRegs_of_procn {o : Order} {s : State}
    (hw : allWritten s (readSet (procnCommand o))) : ∀ r ∈ stateRegs o, s.written r = true :=
  fun r hr => allWritten_coef_state hw r (List.mem_append_right _ hr)

/-- Settles O48: the checks pass, and the loop runs over all the samples. -/
theorem procnCompletes : Obligations.ProcnCompletes := by
  intro o s n xa ya xs ys st hw hv hc hn hxa hya hruns hlen hx hr
  subst hxa hya hlen
  have hcheck : procnCheck o s = .ok () := by
    refine procnCheck_of hv hc fun hz => ?_
    rw [← hn] at hz ⊢
    exact ⟨(hruns hz).1, (hruns hz).2.1, (hruns hz).2.2⟩
  have ha : sameOrApart (s.reg .xptr).toNat (s.reg .yptr).toNat xs.length := by
    by_cases hz : xs.length = 0
    case pos => unfold sameOrApart; omega
    case neg => exact (hruns hz).2.2
  obtain ⟨m, hloop, hout, hframe⟩ := procnLoop (orderOf_loadCoef o s)
    (written_stateRegs_of_procn hw) le_rfl ha hx hr
  refine ⟨m, exec_of_done hw ?_, (channelRun_trace.mp hr).1, hout, hframe⟩
  rw [bodyOf_procnCommand, procnBody_of_procnCheck hcheck, ← hn, hloop]

/-- Settles O49: the checks raise in the order of the procedure. -/
theorem procnChecks : Obligations.ProcnChecks := by
  intro o s n xa ya hw hv hn hxa hya
  subst hn hxa hya
  have hfault {r : Raise} (h : procnCheck o s = .error r) :
      exec (procnCommand o) s = .next (faultEntry r (encode (procnCommand o)) s) :=
    exec_of_raised hw (bodyOf_procnCommand o ▸ procnBody_procnCheck_error h)
  exact ⟨fun hc => hfault (procnCheck_state_error hv hc), fun hc hz =>
    ⟨fun hx => hfault (procnCheck_input_error hv hc hz hx),
     fun hx hy => hfault (procnCheck_output_error hv hc hz hx hy),
     fun hx hy ha => hfault (procnCheck_alias_error hv hc hx hy ha)⟩⟩

/-- Settles O50: the state after the samples before `k` is finite, so sample `k` raises as its input
and its step say. -/
theorem procnFaultKeepsCompletedSamples : Obligations.ProcnFaultKeepsCompletedSamples := by
  intro o s n xa ya xs ys st f hw hv hc hn hxa hya hrx hry ha hk hx hr hf
  subst hn hxa hya
  have hfinite : cellFinite (orderOf (loadCoef o s)) st = true :=
    channelRun_finite (by rwa [orderOf_loadCoef]) hr
  have hraise : procnValues (loadCoef o s) (s.reg .xptr).toNat xs.length st s = .error f := by
    rw [procnValues]
    obtain ⟨hread, rfl⟩ | ⟨x, hread, hfx, rfl⟩ | ⟨x, hread, hfx, hnone, rfl⟩ := hf
    · rw [memReadOrRaise_error.mpr ⟨hread, rfl⟩]; rfl
    · rw [memReadOrRaise_ok.mpr hread, ok_bind, stepChecked_value_error (by simp [hfx])]; rfl
    · rw [memReadOrRaise_ok.mpr hread, ok_bind, stepChecked_of_run_none hfx hfinite hnone]; rfl
  obtain ⟨m, hbody, hout, hframe⟩ := procnBody_raises_at (written_stateRegs_of_procn hw)
    (procnCheck_of hv hc fun _ => ⟨hrx, hry, ha⟩) ha hk hx hr hraise
  exact ⟨m, exec_of_raised hw (bodyOf_procnCommand o ▸ hbody), hout, hframe⟩

/-- What R310 says of a `PROCN` that ends in `t` and the host's loop that ends in `u` with the
outputs `ys`. -/
def agreesWithLoop (o : Order) (s : State) (n ya : Nat) (ys : List Word) (t u : State) : Prop :=
  t.halted = u.halted ∧ t.status = u.status ∧ regCell o t = regCell o u ∧
  runHolds s.params.byteOrder t.mem ya ys ∧
  (u.halted = true → ys.length < n ∧ t.finfo = BitVec.ofNat 32 ys.length ∧ u.finfo = 0) ∧
  (u.halted = false → ys.length = n)

/-- Where `PROCN` and the first command of the loop raise alike, both leave no output and the state
as it was. -/
theorem agreesWithLoop_at_start {o : Order} {s : State} {n ya : Nat} {x : Word} {xs : List Word}
    {cause : Cause} (hn : n ≠ 0)
    (hproc : exec (procCommand o) (s.setReg .x x) = .next
      (faultEntry ⟨cause, 0, 0⟩ (encode (procCommand o)) (s.setReg .x x))) :
    agreesWithLoop o s n ya (scalarLoop (procCommand o) (x :: xs) s).1
      (faultEntry ⟨cause, 0, 0⟩ (encode (procnCommand o)) s)
      (scalarLoop (procCommand o) (x :: xs) s).2 := by
  rw [scalarLoop_cons_of_halted hproc xs rfl]
  refine ⟨rfl, rfl, ?_, fun j hj => absurd hj (Nat.not_lt_zero j),
    fun _ => ⟨Nat.pos_of_ne_zero hn, rfl, rfl⟩, fun h => nomatch h⟩
  rw [regCell_faultEntry, regCell_faultEntry, regCell_setReg_x]

section
variable {o : Order} {s t u : State} {xs ys : List Word}
  (hw : allWritten s (readSet (procnCommand o))) (hv : coefsValid s.num (loadCoef o s) = true)
  (hc : cellFinite o (regCell o s) = true)
  (hrx : runInMemory s (s.reg .xptr).toNat (s.reg .ns).toNat)
  (hry : runInMemory s (s.reg .yptr).toNat (s.reg .ns).toNat)
  (ha : sameOrApart (s.reg .xptr).toNat (s.reg .yptr).toNat (s.reg .ns).toNat)
  (hlen : xs.length = (s.reg .ns).toNat)
  (hx : runHolds s.params.byteOrder s.mem (s.reg .xptr).toNat xs)
  (ht : exec (procnCommand o) s = .next t)
include hw hv hc hrx hry ha hlen hx ht

/-- Where the loop completes, `PROCN` is the same channel run. -/
theorem agreesWithLoop_of_done (hh : s.halted = false) (h : LoopDone o s xs ys u) :
    agreesWithLoop o s (s.reg .ns).toNat (s.reg .yptr).toNat ys t u := by
  obtain ⟨m, hprocn, hys, hout, -⟩ := procnCompletes o s _ _ _ xs ys _ hw hv hc rfl rfl rfl
    (fun _ => ⟨hrx, hry, ha⟩) hlen hx h.run
  obtain rfl := Host.Outcome.next.inj (hprocn.symm.trans ht)
  have hkeeps := keeps_setRegCell o (regCell o u) s
  refine ⟨(hkeeps.halted.trans hh).trans h.halted.symm, hkeeps.status.trans h.status.symm, ?_, hout,
    fun hu => ?_, fun _ => hys⟩
  · rw [regCell_with_mem, regCell_setRegCell (cellForm_regCell o u)]
  · rw [h.halted] at hu; cases hu

/-- Where the loop faults at an input, `PROCN` is the same channel run up to it and the same step
there. -/
theorem agreesWithLoop_of_faulted {before rest : List Word} {x : Word} {cause : Cause}
    (hxs : xs = before ++ x :: rest) (h : LoopFaulted o s before x cause ys u) :
    agreesWithLoop o s (s.reg .ns).toNat (s.reg .yptr).toNat ys t u := by
  subst hxs
  have hk : before.length < (s.reg .ns).toNat := by
    rw [← hlen, List.length_append, List.length_cons]; omega
  have hbefore : runHolds s.params.byteOrder s.mem (s.reg .xptr).toNat before := fun j hj => by
    rw [hx j (by omega), List.getElem_append_left hj]
  have hread : s.memRead (wordAddr (s.reg .xptr).toNat before.length) = some x := by
    rw [State.memRead, hx before.length (by omega), List.getElem_append_right le_rfl]; simp
  obtain ⟨m, hbody, hout, -⟩ := procnBody_raises_at (written_stateRegs_of_procn hw)
    (procnCheck_of hv hc fun _ => ⟨hrx, hry, ha⟩) ha hk hbefore h.run
    (by rw [procnValues, memReadOrRaise_ok.mpr hread, ok_bind, h.step])
  have hprocn := exec_of_raised hw (bodyOf_procnCommand o ▸ hbody)
  obtain rfl := Host.Outcome.next.inj (hprocn.symm.trans ht)
  have hys := (channelRun_trace.mp h.run).1
  refine ⟨h.halted.symm, h.status.symm, ?_, hout, fun _ => ⟨hys ▸ hk, ?_, h.finfo⟩, fun hu => ?_⟩
  · rw [regCell_faultEntry, regCell_with_mem, regCell_setRegCell (cellForm_regCell o u)]
  · rw [hys]; rfl
  · rw [h.halted] at hu; cases hu

end

/-- Settles O51: both fault at the start where the set is invalid or the state not finite; otherwise
the loop is a channel run, completed or up to a step that raises, and `PROCN` is the same run. -/
theorem batchEqualsScalarLoop : Obligations.BatchEqualsScalarLoop := by
  intro o s t u n xa ya xs ys hw hh hn hz hxa hya hrx hry ha hlen hx hloop ht
  obtain ⟨rfl, rfl⟩ : (scalarLoop (procCommand o) xs s).1 = ys ∧
    (scalarLoop (procCommand o) xs s).2 = u := by rw [hloop]; exact ⟨rfl, rfl⟩
  subst hn hxa hya
  show agreesWithLoop o s _ _ _ t _
  have hwp := allWritten_coef_state hw
  obtain ⟨x, tail, hxs⟩ := List.exists_cons_of_length_pos (hlen ▸ Nat.pos_of_ne_zero hz)
  by_cases hv : coefsValid s.num (loadCoef o s) = true
  case neg =>
    have hcheck := coefCheck_invalid (Bool.eq_false_iff.mpr hv)
    have hprocn := exec_of_raised hw (bodyOf_procnCommand o ▸ procnBody_coefCheck_error hcheck)
    obtain rfl := Host.Outcome.next.inj (hprocn.symm.trans ht)
    rw [hxs]
    refine agreesWithLoop_at_start hz (exec_of_raised (allWritten_proc_setReg_x hwp x) ?_)
    rw [bodyOf_procCommand]
    exact procBody_coefCheck_error (by rw [num_setReg, loadCoef_setReg_x]; exact hcheck)
  case pos =>
  by_cases hc : cellFinite o (regCell o s) = true
  case neg =>
    have hprocn := (procnChecks o s _ _ _ hw hv rfl rfl rfl).1 (Bool.eq_false_iff.mpr hc)
    obtain rfl := Host.Outcome.next.inj (hprocn.symm.trans ht)
    rw [hxs]
    refine agreesWithLoop_at_start hz ?_
    rw [exec_proc_setReg_x x hwp hv, stepChecked_value_error (by simp [hc])]
    rfl
  case pos =>
    obtain h | ⟨before, x, rest, cause, hsplit, h⟩ := scalarLoop_cases (xs := xs) hwp hv hh
    · exact agreesWithLoop_of_done hw hv hc hrx hry ha hlen hx ht hh h
    · exact agreesWithLoop_of_faulted hw hv hc hrx hry ha hlen hx ht hsplit h

end Sys2Proof.Machine
end

section
/-! The checks of the multi-channel batch (`44_engine_process.md` R307; O55): in their order, and
what they establish where they pass. -/

namespace Sys2Proof.Machine

/-! ### The channels' runs and the aliasing contract (`20_memory.md` R79, R84) -/

/-- The bases of the channels' runs in the order of the channels. -/
def channelRuns (n : Nat) (xb yb : Nat → Word) : List (Nat × Nat) :=
  (List.range n).map fun c => ((xb c).toNat, (yb c).toNat)

@[simp] theorem length_channelRuns (n : Nat) (xb yb : Nat → Word) :
    (channelRuns n xb yb).length = n := by
  simp [channelRuns]

@[simp] theorem getElem_channelRuns {n c : Nat} {xb yb : Nat → Word}
    (h : c < (channelRuns n xb yb).length) :
    (channelRuns n xb yb)[c] = ((xb c).toNat, (yb c).toNat) := by
  simp [channelRuns]

theorem getD_channelRuns {n c : Nat} {xb yb : Nat → Word} (hc : c < n) :
    (channelRuns n xb yb).getD c (0, 0) = ((xb c).toNat, (yb c).toNat) := by
  rw [List.getD_eq_getElem _ _ (by simpa using hc), getElem_channelRuns]

theorem forall_mem_channelRuns {n : Nat} {xb yb : Nat → Word} {P : Nat × Nat → Prop} :
    (∀ p ∈ channelRuns n xb yb, P p) ↔ ∀ c < n, P ((xb c).toNat, (yb c).toNat) := by
  simp [channelRuns]

/-- The aliasing contract of `PROCM` (R84) on the channels' bases. -/
def aliasContract (o : Order) (m n px py sp : Nat) (xb yb : Nat → Word) : Prop :=
  (∀ c < n, ∀ c' < n, c ≠ c' →
    apart (yb c).toNat m (yb c').toNat m ∧ apart (yb c).toNat m (xb c').toNat m) ∧
  (∀ c < n, sameOrApart (yb c).toNat (xb c).toNat m ∧
    apart sp (orderWords o * n) (xb c).toNat m ∧ apart sp (orderWords o * n) (yb c).toNat m ∧
    apart px n (yb c).toNat m ∧ apart py n (yb c).toNat m) ∧
  apart px n sp (orderWords o * n) ∧ apart py n sp (orderWords o * n)

theorem procmAliasOk_channelRuns {o : Order} {m n px py sp : Nat} {xb yb : Nat → Word}
    (hm : m ≠ 0) (hn : n ≠ 0) : procmAliasOk o m n px py sp (channelRuns n xb yb) = true ↔
      aliasContract o m n px py sp xb yb := by
  rw [procmAliasOk_iff hm hn, forall_mem_channelRuns]
  simp only [length_channelRuns, getElem_channelRuns]
  exact and_congr_left' ⟨fun h c hc c' hc' => h c c' hc hc', fun h c c' hc hc' => h c hc c' hc'⟩

theorem aliasContract.procmApart {o : Order} {m n px py sp : Nat} {xb yb : Nat → Word}
    (h : aliasContract o m n px py sp xb yb) :
    ProcmApart o sp m n (fun c => (xb c).toNat) (fun c => (yb c).toNat) where
  channels := h.1
  own c hc := (h.2.1 c hc).1
  cells c hc := ⟨(h.2.1 c hc).2.1, (h.2.1 c hc).2.2.1⟩

/-! ### The checks before the first sample (R307, `20_memory.md` R74) -/

section
variable {o : Order} {s : State} (hn : (s.reg .nch).toNat ≠ 0)

include hn in
theorem procmPlan_input_error (hx : ¬runInMemory s (s.reg .xptr).toNat (s.reg .nch).toNat) :
    procmPlan o s = .error ⟨.accessFault, s.reg .xptr, 0⟩ := by
  simp only [procmPlan, rangeCheck_outside hn hx, error_bind]

variable (hx : runInMemory s (s.reg .xptr).toNat (s.reg .nch).toNat)
include hx

include hn in
theorem procmPlan_output_error (hy : ¬runInMemory s (s.reg .yptr).toNat (s.reg .nch).toNat) :
    procmPlan o s = .error ⟨.accessFault, s.reg .yptr, 0⟩ := by
  simp only [procmPlan, rangeCheck_inside hx, rangeCheck_outside hn hy, ok_bind, error_bind]

variable (hy : runInMemory s (s.reg .yptr).toNat (s.reg .nch).toNat)
include hy

include hn in
theorem procmPlan_state_error
    (hs : ¬runInMemory s (s.reg .sptr).toNat (orderWords o * (s.reg .nch).toNat)) :
    procmPlan o s = .error ⟨.accessFault, s.reg .sptr, 0⟩ := by
  simp only [procmPlan, rangeCheck_inside hx, rangeCheck_inside hy,
    rangeCheck_outside (orderWords_mul_ne_zero hn) hs, ok_bind, error_bind]

variable (hs : runInMemory s (s.reg .sptr).toNat (orderWords o * (s.reg .nch).toNat))
include hs

theorem procmPlan_input_unwritten {c : Nat} (hc : c < (s.reg .nch).toNat)
    (h : s.memRead (wordAddr (s.reg .xptr).toNat c) = none)
    (hlow : ∀ c' < c, s.memRead (wordAddr (s.reg .xptr).toNat c') ≠ none) :
    procmPlan o s = .error (raiseWith .unwrittenMemory (wordAddr (s.reg .xptr).toNat c) c) := by
  have hread := readPointers_unwritten (ch := 0) hc (by simpa using h) (by simpa using hlow)
  rw [Nat.zero_add] at hread
  simp only [procmPlan, rangeCheck_inside hx, rangeCheck_inside hy, rangeCheck_inside hs, hread,
    ok_bind, error_bind]

variable {xb : Nat → Word}
  (hxb : ∀ c < (s.reg .nch).toNat, s.memRead (wordAddr (s.reg .xptr).toNat c) = some (xb c))
include hxb

theorem procmPlan_output_unwritten {c : Nat} (hc : c < (s.reg .nch).toNat)
    (h : s.memRead (wordAddr (s.reg .yptr).toNat c) = none)
    (hlow : ∀ c' < c, s.memRead (wordAddr (s.reg .yptr).toNat c') ≠ none) :
    procmPlan o s = .error (raiseWith .unwrittenMemory (wordAddr (s.reg .yptr).toNat c) c) := by
  have hread := readPointers_unwritten (ch := 0) hc (by simpa using h) (by simpa using hlow)
  rw [Nat.zero_add] at hread
  simp only [procmPlan, rangeCheck_inside hx, rangeCheck_inside hy, rangeCheck_inside hs,
    readPointers_of (ch := 0) (v := xb) (by simpa using hxb), hread, ok_bind, error_bind]

variable {yb : Nat → Word}
  (hyb : ∀ c < (s.reg .nch).toNat, s.memRead (wordAddr (s.reg .yptr).toNat c) = some (yb c))
include hyb

/-- Where the arrays are in memory and the pointers written, the channels' runs and then the
aliasing contract decide. -/
theorem procmPlan_of_pointers : procmPlan o s = do
    checkChannelRuns s (s.reg .ns).toNat 0 (channelRuns (s.reg .nch).toNat xb yb)
    require (procmAliasOk o (s.reg .ns).toNat (s.reg .nch).toNat (s.reg .xptr).toNat
      (s.reg .yptr).toNat (s.reg .sptr).toNat (channelRuns (s.reg .nch).toNat xb yb))
      ⟨.aliasViolation, 0, 0⟩
    return channelRuns (s.reg .nch).toNat xb yb := by
  simp only [procmPlan, rangeCheck_inside hx, rangeCheck_inside hy, rangeCheck_inside hs,
    readPointers_of (ch := 0) (v := xb) (by simpa using hxb),
    readPointers_of (ch := 0) (v := yb) (by simpa using hyb), ok_bind, List.zip_map', Nat.zero_add]
  rfl

theorem procmPlan_channel_error {c : Nat} (hc : c < (s.reg .nch).toNat) {r : Raise}
    (hlow : ∀ c' < c, runInMemory s (xb c').toNat (s.reg .ns).toNat ∧
      runInMemory s (yb c').toNat (s.reg .ns).toNat)
    (h : (rangeCheck s (xb c).toNat (s.reg .ns).toNat c >>= fun _ =>
      rangeCheck s (yb c).toNat (s.reg .ns).toNat c) = .error r) : procmPlan o s = .error r := by
  rw [procmPlan_of_pointers hx hy hs hxb hyb, checkChannelRuns_stops (c := c) (r := r)
    (by simpa using hc) (fun c' hc' => by simpa using hlow c' hc') (by simpa using h), error_bind]

variable (hm : (s.reg .ns).toNat ≠ 0)
  (hruns : ∀ c < (s.reg .nch).toNat, runInMemory s (xb c).toNat (s.reg .ns).toNat ∧
    runInMemory s (yb c).toNat (s.reg .ns).toNat)
include hm hruns

/-- Where the channels' runs are in memory too, the aliasing contract decides. -/
theorem procmPlan_of_channels : procmPlan o s = do
    require (procmAliasOk o (s.reg .ns).toNat (s.reg .nch).toNat (s.reg .xptr).toNat
      (s.reg .yptr).toNat (s.reg .sptr).toNat (channelRuns (s.reg .nch).toNat xb yb))
      ⟨.aliasViolation, 0, 0⟩
    return channelRuns (s.reg .nch).toNat xb yb := by
  rw [procmPlan_of_pointers hx hy hs hxb hyb,
    (checkChannelRuns_ok (u := ()) hm).mpr (forall_mem_channelRuns.mpr hruns), ok_bind]

include hn in
theorem procmPlan_alias_error
    (ha : ¬aliasContract o (s.reg .ns).toNat (s.reg .nch).toNat (s.reg .xptr).toNat
      (s.reg .yptr).toNat (s.reg .sptr).toNat xb yb) :
    procmPlan o s = .error ⟨.aliasViolation, 0, 0⟩ := by
  rw [← procmAliasOk_channelRuns hm hn, Bool.not_eq_true] at ha
  rw [procmPlan_of_channels hx hy hs hxb hyb hm hruns, ha, require_false, error_bind]

end

/-- The checks of `PROCM` before its first sample hold for the bases `xb` and `yb` of its channels
(R307, R84). -/
structure ProcmReady (o : Order) (s : State) (xb yb : Nat → Word) : Prop where
  inputs : runInMemory s (s.reg .xptr).toNat (s.reg .nch).toNat
  outputs : runInMemory s (s.reg .yptr).toNat (s.reg .nch).toNat
  cells : runInMemory s (s.reg .sptr).toNat (orderWords o * (s.reg .nch).toNat)
  channels : ∀ c < (s.reg .nch).toNat,
    s.memRead (wordAddr (s.reg .xptr).toNat c) = some (xb c) ∧
    s.memRead (wordAddr (s.reg .yptr).toNat c) = some (yb c) ∧
    runInMemory s (xb c).toNat (s.reg .ns).toNat ∧ runInMemory s (yb c).toNat (s.reg .ns).toNat
  contract : aliasContract o (s.reg .ns).toNat (s.reg .nch).toNat (s.reg .xptr).toNat
    (s.reg .yptr).toNat (s.reg .sptr).toNat xb yb

/-- The plan passes exactly where its checks hold, with the bases read. -/
theorem procmPlan_ok_iff {o : Order} {s : State} {runs : List (Nat × Nat)}
    (hn : (s.reg .nch).toNat ≠ 0) (hm : (s.reg .ns).toNat ≠ 0) :
    procmPlan o s = .ok runs ↔
      ∃ xb yb, ProcmReady o s xb yb ∧ runs = channelRuns (s.reg .nch).toNat xb yb := by
  constructor
  case mp =>
    intro h
    obtain ⟨hx, hy, hs, hlen, hptr, hruns, ha⟩ := procmPlan_ok hn hm h
    choose! xb yb hb using hptr
    have heq : runs = channelRuns (s.reg .nch).toNat xb yb := by
      refine List.ext_getElem (by simpa using hlen) fun c hc _ => ?_
      rw [getElem_channelRuns]
      exact Option.some.inj ((List.getElem?_eq_getElem hc).symm.trans (hb c (hlen ▸ hc)).2.2)
    subst heq
    rw [procmAliasOk_channelRuns hm hn] at ha
    rw [forall_mem_channelRuns] at hruns
    exact ⟨xb, yb, ⟨hx, hy, hs, fun c hc => ⟨(hb c hc).1, (hb c hc).2.1, hruns c hc⟩, ha⟩, rfl⟩
  case mpr =>
    rintro ⟨xb, yb, ⟨hx, hy, hs, hch, ha⟩, rfl⟩
    rw [procmPlan_of_channels hx hy hs (fun c hc => (hch c hc).1) (fun c hc => (hch c hc).2.1) hm
      (fun c hc => (hch c hc).2.2), (procmAliasOk_channelRuns hm hn).mpr ha]
    rfl

/-! ### The procedure (R307) -/

/-- The samples of a `PROCM` up to sample `k`: sample-outer, channel-inner. -/
def procmSamples (o : Order) (c : Coefs Word) (sp n k : Nat) (runs : List (Nat × Nat)) :
    State → Ran :=
  repeatFrom (fun i t => repeatFrom (procmSample o c sp runs i) 0 n t) 0 k

section
variable {o : Order} {s : State} (hv : coefsValid s.num (loadCoef o s) = true)
include hv

theorem procmBody_empty (h : (s.reg .nch).toNat = 0 ∨ (s.reg .ns).toNat = 0) :
    procmBody o s = .done s := by
  simp [procmBody, coefCheck_valid hv, h]

variable (hn : (s.reg .nch).toNat ≠ 0) (hm : (s.reg .ns).toNat ≠ 0)
include hn hm

theorem procmBody_procmPlan_error {r : Raise} (h : procmPlan o s = .error r) :
    procmBody o s = .raised r s := by
  simp [procmBody, coefCheck_valid hv, hn, hm, h]

theorem procmBody_of_procmPlan {runs : List (Nat × Nat)} (h : procmPlan o s = .ok runs) :
    procmBody o s = procmSamples o (loadCoef o s) (s.reg .sptr).toNat (s.reg .nch).toNat
      (s.reg .ns).toNat runs s := by
  simp [procmBody, procmSamples, coefCheck_valid hv, hn, hm, h]

theorem procmBody_of_ready {xb yb : Nat → Word} (h : ProcmReady o s xb yb) :
    procmBody o s = procmSamples o (loadCoef o s) (s.reg .sptr).toNat (s.reg .nch).toNat
      (s.reg .ns).toNat (channelRuns (s.reg .nch).toNat xb yb) s :=
  procmBody_of_procmPlan hv hn hm ((procmPlan_ok_iff hn hm).mpr ⟨xb, yb, h, rfl⟩)

end

/-! ### The statement -/

/-- Settles O55: the checks raise in the order of the procedure. -/
theorem procmChecks : Obligations.ProcmChecks := by
  intro o s m n px py sp hw hv hm hn hm0 hn0 hpx hpy hsp
  subst hm hn hpx hpy hsp
  have hfault {r : Raise} (h : procmPlan o s = .error r) :
      exec (procmCommand o) s = .next (faultEntry r (encode (procmCommand o)) s) :=
    exec_of_raised hw (bodyOf_procmCommand o ▸ procmBody_procmPlan_error hv hn0 hm0 h)
  refine ⟨fun hx => hfault (procmPlan_input_error hn0 hx),
    fun hx hy => hfault (procmPlan_output_error hn0 hx hy),
    fun hx hy hs => hfault (procmPlan_state_error hn0 hx hy hs), fun hx hy hs =>
    ⟨fun c hc h hlow => hfault (procmPlan_input_unwritten hx hy hs hc h hlow), fun xb hxb =>
    ⟨fun c hc h hlow => hfault (procmPlan_output_unwritten hx hy hs hxb hc h hlow), fun yb hyb =>
    ⟨fun c hc hlow => ⟨fun hxc => hfault ?input, fun hxc hyc => hfault ?output⟩, fun hruns ha =>
      hfault (procmPlan_alias_error hn0 hx hy hs hxb hyb hm0 hruns ha)⟩⟩⟩⟩
  case input =>
    refine procmPlan_channel_error hx hy hs hxb hyb hc hlow ?_
    rw [rangeCheck_error.mpr ⟨⟨hm0, hxc⟩, rfl⟩, error_bind]
    simp [raiseWith]
  case output =>
    refine procmPlan_channel_error hx hy hs hxb hyb hc hlow ?_
    rw [rangeCheck_inside hxc, ok_bind, rangeCheck_error.mpr ⟨⟨hm0, hyc⟩, rfl⟩]
    simp [raiseWith]

end Sys2Proof.Machine
end

section
/-! The loops of the multi-channel batch (`44_engine_process.md` R307 to R309, R311; O54, O56, O57):
they run over all the samples of all the channels, or stop at a step, and each channel of a
completed one is a `PROCN` of its own. -/

namespace Sys2Proof.Machine

/-! ### The step at which the loops stop (`60_exceptions.md` R346) -/

theorem samplesDone_ne_zero_iff {k ch c : Nat} : samplesDone k ch c ≠ 0 ↔ k ≠ 0 ∨ c < ch := by
  unfold samplesDone
  split <;> omega

theorem samplesDone_self (i ch : Nat) : samplesDone i ch ch = i := if_neg (Nat.lt_irrefl ch)

/-- A cell lies in the array of the cells (`20_memory.md` R80). -/
theorem inRun_of_cell {o : Order} {sp n c a : Nat} (hc : c < n)
    (h : inRun (cellAddr (orderWords o) sp c) (orderWords o) a) :
    inRun sp (orderWords o * n) a := by
  unfold inRun cellAddr at *
  cases o <;> simp only [orderWords] at * <;> omega

/-- The samples before sample `k` of channel `ch` are done, and this one raises. -/
theorem procmSamples_stops {o : Order} {c : Coefs Word} {sp m n k ch : Nat}
    {runs : List (Nat × Nat)} {s t u v : State} {f : Raise} (hk : k < m) (hch : ch < n)
    (hrows : procmSamples o c sp n k runs s = .done t)
    (hrow : repeatFrom (procmSample o c sp runs k) 0 ch t = .done u)
    (h : procmSample o c sp runs k ch u = .raised f v) :
    procmSamples o c sp n m runs s = .raised f v :=
  repeatFrom_stops hk hrows (repeatFrom_stops hch hrow h)

theorem procmSample_raises {o : Order} {c : Coefs Word} {sp n i ch : Nat} {xb yb : Nat → Word}
    {s : State} {f : Raise} (hch : ch < n)
    (h : procmValues o c sp (xb ch).toNat i ch s = .error f) :
    procmSample o c sp (channelRuns n xb yb) i ch s = .raised f s := by
  simp only [procmSample, getD_channelRuns hch, h, atOnce_error]

section
variable {o : Order} {c : Coefs Word} {sp xb i ch : Nat} {s : State} {x : Word} {f : Raise}

theorem procmValues_input_unwritten (h : s.memRead (wordAddr xb i) = none) :
    procmValues o c sp xb i ch s = .error (raiseWith .unwrittenMemory (wordAddr xb i) ch) := by
  rw [procmValues, memReadOrRaise_error.mpr ⟨h, rfl⟩, error_bind]

variable (h : s.memRead (wordAddr xb i) = some x)
include h

theorem procmValues_cell_error
    (hc : memCell o s (cellAddr (orderWords o) sp ch) ch = .error f) :
    procmValues o c sp xb i ch s = .error f := by
  rw [procmValues, memReadOrRaise_ok.mpr h, ok_bind, hc, error_bind]

theorem procmValues_step_error {st : Cell Word}
    (hc : cellHolds s.params.byteOrder o s.mem (cellAddr (orderWords o) sp ch) st)
    (hf : ∀ st', st'.s1 = st.s1 → (o = .second → st' = st) →
      stepChecked s.num c x st' i ch = .error f) :
    procmValues o c sp xb i ch s = .error f := by
  obtain ⟨st', hcell, h1, h2, -⟩ := memCell_ok (ch := ch) hc
  rw [procmValues, memReadOrRaise_ok.mpr h, ok_bind, hcell, ok_bind, hf st' h1 h2]

end

theorem memCell_first_unwritten {o : Order} {s : State} {a : Nat} (h : s.memRead a = none)
    (ch : Nat) : memCell o s a ch = .error (raiseWith .unwrittenMemory a ch) := by
  cases o <;> rw [memCell, memReadOrRaise_error.mpr ⟨h, rfl⟩, error_bind]

theorem memCell_second_unwritten {s : State} {a : Nat} {s1 : Word} (h1 : s.memRead a = some s1)
    (h2 : s.memRead (a + 4) = none) (ch : Nat) :
    memCell .second s a ch = .error (raiseWith .unwrittenMemory (a + 4) ch) := by
  rw [memCell, memReadOrRaise_ok.mpr h1, ok_bind, memReadOrRaise_error.mpr ⟨h2, rfl⟩, error_bind]

/-- A cell whose bytes are as before is read as before. -/
theorem memCell_congr {o : Order} {s : State} {m : Memory} {a : Nat}
    (h : ∀ x, a ≤ x → x < a + 4 * orderWords o → readByte m x = readByte s.mem x) (ch : Nat) :
    memCell o { s with mem := m } a ch = memCell o s a ch := by
  have hread {b : Nat} (hb : a ≤ b) (hb' : b + 4 ≤ a + 4 * orderWords o) :
      State.memRead { s with mem := m } b = s.memRead b :=
    readWord_congr fun x hx hx' => h x (by omega) (by omega)
  cases o with
  | first => simp only [memCell, memReadOrRaise, hread le_rfl le_rfl]
  | second =>
    simp only [memCell, memReadOrRaise, hread le_rfl (by simp only [orderWords]; omega),
      hread (Nat.le_add_right a 4) (by simp only [orderWords]; omega)]

/-- Where a sample of a channel stops, by the first of its words that is unwritten, its values, or
its results (R307); `st` is what the cell held at the start and `st'` what it holds then. -/
def sampleStops (o : Order) (c : Coefs Word) (s : State) (sp xb k ch : Nat) (st st' : Cell Word)
    (f : Raise) : Prop :=
  (s.memRead (wordAddr xb k) = none ∧
    f = ⟨.unwrittenMemory, BitVec.ofNat 32 (wordAddr xb k), BitVec.ofNat 32 ch⟩) ∨
  (∃ x, s.memRead (wordAddr xb k) = some x ∧
    s.memRead (cellAddr (orderWords o) sp ch) = none ∧
    f = ⟨.unwrittenMemory, BitVec.ofNat 32 (cellAddr (orderWords o) sp ch), BitVec.ofNat 32 ch⟩) ∨
  (∃ x s1, s.memRead (wordAddr xb k) = some x ∧ o = .second ∧
    s.memRead (cellAddr (orderWords o) sp ch) = some s1 ∧
    s.memRead (cellAddr (orderWords o) sp ch + 4) = none ∧
    f = ⟨.unwrittenMemory, BitVec.ofNat 32 (cellAddr (orderWords o) sp ch + 4),
      BitVec.ofNat 32 ch⟩) ∨
  (∃ x, s.memRead (wordAddr xb k) = some x ∧
    cellHolds s.params.byteOrder o s.mem (cellAddr (orderWords o) sp ch) st ∧
    ¬(F32.isFinite x = true ∧ cellFinite o st' = true) ∧
    f = ⟨.valueNonfinite, BitVec.ofNat 32 k, BitVec.ofNat 32 ch⟩) ∨
  (∃ x, s.memRead (wordAddr xb k) = some x ∧
    cellHolds s.params.byteOrder o s.mem (cellAddr (orderWords o) sp ch) st ∧
    F32.isFinite x = true ∧ cellFinite o st' = true ∧
    channelRun s.num c st' [x] = none ∧
    f = ⟨.outputNonfinite, BitVec.ofNat 32 k, BitVec.ofNat 32 ch⟩)

/-- A run that stops at once stops also from a cell that agrees on the part its order has. -/
theorem channelRun_none_congr {N : Num} {c : Coefs Word} {xs : List Word} {st st1 : Cell Word}
    (h1 : st1.s1 = st.s1) (h2 : orderOf c = .second → st1 = st)
    (h : channelRun N c st xs = none) : channelRun N c st1 xs = none := by
  cases hr : channelRun N c st1 xs with
  | none => rfl
  | some p =>
    obtain ⟨_, hp, -⟩ := channelRun_congr h1.symm (fun ho => (h2 ho).symm) hr
    rw [h] at hp
    cases hp

/-- The sample raises in the memory that it meets: there its input is as at the start, its cell as
at the start if it could not be read then, and otherwise what the channel's samples left. -/
theorem procmValues_of_sampleStops {o : Order} {c : Coefs Word} {s : State} {sp xb k ch : Nat}
    {st st' : Cell Word} {f : Raise} {m : Memory} (ho : orderOf c = o)
    (hf : sampleStops o c s sp xb k ch st st' f)
    (hread : State.memRead { s with mem := m } (wordAddr xb k) = s.memRead (wordAddr xb k))
    (hunread : ∀ r, memCell o s (cellAddr (orderWords o) sp ch) ch = .error r →
      memCell o { s with mem := m } (cellAddr (orderWords o) sp ch) ch = .error r)
    (hcell : cellHolds s.params.byteOrder o s.mem (cellAddr (orderWords o) sp ch) st →
      cellHolds s.params.byteOrder o m (cellAddr (orderWords o) sp ch) st') :
    procmValues o c sp xb k ch { s with mem := m } = .error f := by
  subst ho
  obtain ⟨hx, rfl⟩ | ⟨x, hx, h1, rfl⟩ | ⟨x, s1, hx, ho, h1, h2, rfl⟩ | ⟨x, hx, hst, hin, rfl⟩ |
    ⟨x, hx, hst, hfx, hfst, hout, rfl⟩ := hf <;> rw [← hread] at hx
  case inl => exact procmValues_input_unwritten hx
  case inr.inl => exact procmValues_cell_error hx (hunread _ (memCell_first_unwritten h1 ch))
  case inr.inr.inl =>
    refine procmValues_cell_error hx (hunread _ ?_)
    rw [ho] at h1 h2 ⊢
    exact memCell_second_unwritten h1 h2 ch
  case inr.inr.inr.inl =>
    refine procmValues_step_error hx (hcell hst) fun cell e1 e2 => ?_
    exact stepChecked_value_error (by rw [cellFinite_congr e1 e2]; exact hin) k ch
  case inr.inr.inr.inr =>
    refine procmValues_step_error hx (hcell hst) fun cell e1 e2 => ?_
    exact stepChecked_of_run_none hfx (by rw [cellFinite_congr e1 e2]; exact hfst)
      (channelRun_none_congr e1 e2 hout) k ch

/-- What the samples of channel `d` up to `k` read in a state: their inputs, the channel's cell, and
values that are all finite (R300, R301, R307). -/
def channelReads (o : Order) (s : State) (sp xb k d : Nat) (xs ys : List Word)
    (st st' : Cell Word) : Prop :=
  xs.length = k ∧ runHolds s.params.byteOrder s.mem xb xs ∧
  (k ≠ 0 → cellHolds s.params.byteOrder o s.mem (cellAddr (orderWords o) sp d) st) ∧
  channelRun s.num (loadCoef o s) st xs = some (ys, st')

/-- The cell that a sample meets: where it could not be read at the start, the channel has done no
sample and it is as it was; where it held the channel's first state, it holds the state after the
samples. -/
theorem cell_met_by_sample {o : Order} {s : State} {sp m n k ch : Nat} {xb yb : Nat → Nat}
    {xs ys : List Word} {st st' : Cell Word} {mem : Memory} (ha : ProcmApart o sp m n xb yb)
    (hk : k < m) (hch : ch < n) (hreads : channelReads o s sp (xb ch) k ch xs ys st st')
    (hleft : k ≠ 0 → cellHolds s.params.byteOrder o mem (cellAddr (orderWords o) sp ch) st')
    (hframe : procmFrame o s.mem sp n yb k ch mem) :
    (∀ r, memCell o s (cellAddr (orderWords o) sp ch) ch = .error r →
      memCell o { s with mem := mem } (cellAddr (orderWords o) sp ch) ch = .error r) ∧
    (cellHolds s.params.byteOrder o s.mem (cellAddr (orderWords o) sp ch) st →
      cellHolds s.params.byteOrder o mem (cellAddr (orderWords o) sp ch) st') := by
  obtain ⟨hlen, -, hst, hrun⟩ := hreads
  by_cases hz : k = 0
  case pos =>
    have hnone : samplesDone k ch ch = 0 := (samplesDone_self k ch).trans hz
    have hbytes := fun a => procmFrame_cell (x := a) ha hk hch hnone hframe
    obtain rfl := List.length_eq_zero_iff.mp (hlen.trans hz)
    obtain ⟨-, rfl⟩ : [] = ys ∧ st = st' := by simpa [channelRun] using hrun
    exact ⟨fun r hr => (memCell_congr hbytes ch).trans hr, fun h => cellHolds_of_bytes h hbytes⟩
  case neg =>
    refine ⟨fun r hr => ?_, fun _ => hleft hz⟩
    obtain ⟨cell, hok, -⟩ := memCell_ok (ch := ch) (hst hz)
    rw [hok] at hr
    cases hr

/-! ### Each channel of a completed batch -/

/-- A channel's samples up to `k` can be read and their values are finite. -/
abbrev channelReadable (o : Order) (s : State) (sp xb k d : Nat) : Prop :=
  ∃ xs ys st st', channelReads o s sp xb k d xs ys st st'

/-- A channel that has done no sample has read nothing. -/
theorem channelReadable_zero (o : Order) (s : State) (sp xb d : Nat) :
    channelReadable o s sp xb 0 d :=
  ⟨[], [], ⟨0, 0⟩, ⟨0, 0⟩, rfl, fun j hj => absurd hj (Nat.not_lt_zero j),
    fun h => absurd rfl h, rfl⟩

theorem memCell_holds {o : Order} {s : State} {a ch : Nat} {st : Cell Word}
    (h : memCell o s a ch = .ok st) : cellHolds s.params.byteOrder o s.mem a st := by
  cases o with
  | first =>
    obtain ⟨s1, h1, h2⟩ := bind_eq_ok.mp h
    cases h2
    exact ⟨memReadOrRaise_ok.mp h1, fun ho => nomatch ho⟩
  | second =>
    obtain ⟨s1, h1, h⟩ := bind_eq_ok.mp h
    obtain ⟨s2, h2, h3⟩ := bind_eq_ok.mp h
    cases h3
    exact ⟨memReadOrRaise_ok.mp h1, fun _ => memReadOrRaise_ok.mp h2⟩

/-- Two cells held at one place agree on the part that their order has. -/
theorem cellHolds_unique {bo : ByteOrder} {o : Order} {m : Memory} {a : Nat} {st st' : Cell Word}
    (h : cellHolds bo o m a st) (h' : cellHolds bo o m a st') :
    st'.s1 = st.s1 ∧ (o = .second → st' = st) := by
  have h1 : st'.s1 = st.s1 := Option.some.inj (h'.1.symm.trans h.1)
  refine ⟨h1, fun ho => ?_⟩
  have h2 : st'.s2 = st.s2 := Option.some.inj ((h'.2 ho).symm.trans (h.2 ho))
  cases st; cases st'
  simp_all

theorem samplesDone_succ_of_ne {i ch d : Nat} (h : d ≠ ch) :
    samplesDone i (ch + 1) d = samplesDone i ch d := by
  unfold samplesDone
  split <;> split <;> omega

theorem samplesDone_next_row {i n d : Nat} (h : d < n) :
    samplesDone (i + 1) 0 d = samplesDone i n d := by
  simp [samplesDone, h]

theorem runHolds_snoc {bo : ByteOrder} {m : Memory} {a : Nat} {ws : List Word} {w : Word}
    (h : runHolds bo m a ws) (hw : readWord bo m (wordAddr a ws.length) = some w) :
    runHolds bo m a (ws ++ [w]) := by
  intro j hj
  by_cases hlast : j < ws.length
  · rw [h j hlast, List.getElem_append_left hlast]
  · obtain rfl : j = ws.length := by simp at hj; omega
    rw [hw, List.getElem_append_right le_rfl]
    simp

/-- A completed sample extends what its channel reads, from the memory that the samples before it
left. -/
theorem channelReads_snoc {o : Order} {s v : State} {sp m n i ch : Nat} {xb yb : Nat → Word}
    {xs ys : List Word} {st st' : Cell Word} {mem : Memory}
    (ha : ProcmApart o sp m n (fun c => (xb c).toNat) (fun c => (yb c).toNat)) (hi : i < m)
    (hch : ch < n) (hreads : channelReads o s sp (xb ch).toNat i ch xs ys st st')
    (hcell : i ≠ 0 → cellHolds s.params.byteOrder o mem (cellAddr (orderWords o) sp ch) st')
    (hframe : procmFrame o s.mem sp n (fun c => (yb c).toNat) i ch mem)
    (h : procmSample o (loadCoef o s) sp (channelRuns n xb yb) i ch { s with mem := mem }
      = .done v) :
    channelReadable o s sp (xb ch).toNat (i + 1) ch := by
  obtain ⟨hlen, hxs, hst, hrun⟩ := hreads
  obtain ⟨x, cell, hx, hc, hfx, hfc, hfy, hfs, -⟩ := procmSample_inv h
  rw [getD_channelRuns hch] at hx
  have hc := memCell_holds hc
  have hx : readWord s.params.byteOrder s.mem (wordAddr (xb ch).toNat i) = some x :=
    (procmFrame_input ha hi hch hframe).symm.trans hx
  obtain ⟨ys0, st0, st1, hst0, hrun0, h1, h2⟩ : ∃ ys0 st0 st1,
      cellHolds s.params.byteOrder o s.mem (cellAddr (orderWords o) sp ch) st0 ∧
      channelRun s.num (loadCoef o s) st0 xs = some (ys0, st1) ∧
      cell.s1 = st1.s1 ∧ (o = .second → cell = st1) := by
    by_cases hz : i = 0
    case pos =>
      obtain rfl := List.length_eq_zero_iff.mp (hlen.trans hz)
      exact ⟨[], cell, cell, cellHolds_of_bytes hc fun a h h' =>
        (procmFrame_cell ha hi hch ((samplesDone_self i ch).trans hz) hframe h h').symm, rfl, rfl,
        fun _ => rfl⟩
    case neg =>
      obtain ⟨h1, h2⟩ := cellHolds_unique (hcell hz) hc
      exact ⟨ys, st, st', hst hz, hrun, h1, h2⟩
  obtain ⟨v1, v2, v3, v4⟩ := stepValues_congr (N := s.num) (c := loadCoef o s) (x := x) h1
    fun he => h2 ((orderOf_loadCoef o s).symm.trans he)
  have hsnoc := channelRun_snoc hrun0 hfx (v4 ▸ hfc) (v1 ▸ hfy) (cellFinite_congr v2 v3 ▸ hfs)
  exact ⟨_, _, _, _, by rw [List.length_append, hlen]; rfl, runHolds_snoc hxs (hlen.symm ▸ hx),
    fun _ => hst0, hsnoc⟩

section
variable {o : Order} {s t : State} {sp m n : Nat} {xb yb : Nat → Word}
  (ha : ProcmApart o sp m n (fun c => (xb c).toNat) (fun c => (yb c).toNat))
  (hdone : procmSamples o (loadCoef o s) sp n m (channelRuns n xb yb) s = .done t)
include ha hdone

/-- In a batch that completes, one sample more of one channel is read where those before it are. -/
theorem channelReads_step {i ch : Nat} (hi : i < m) (hch : ch < n)
    (h : ∀ d < n, channelReadable o s sp (xb d).toNat (samplesDone i ch d) d) :
    ∀ d < n, channelReadable o s sp (xb d).toNat (samplesDone i (ch + 1) d) d := by
  have : Nonempty (Cell Word) := ⟨⟨0, 0⟩⟩
  choose! xs ys st st' hreads using h
  obtain ⟨m1, m2, hrows, hrow, hleft, hframe⟩ := procmLoop (orderOf_loadCoef o s) ha
    (fun d hd => getD_channelRuns hd) hi.le (fun _ => hi) hch.le hreads
  intro d hd
  by_cases he : d = ch
  case neg => rw [samplesDone_succ_of_ne he]; exact ⟨_, _, _, _, hreads d hd⟩
  case pos =>
    subst he
    have hself := hreads d hd
    rw [samplesDone_self] at hself
    rw [samplesDone, if_pos (Nat.lt_succ_self d)]
    cases hv : procmSample o (loadCoef o s) sp (channelRuns n xb yb) i d { s with mem := m2 } with
    | done v =>
      exact channelReads_snoc ha hi hd hself
        (fun hz => (hleft d hd).2 (by rwa [samplesDone_self])) hframe hv
    | raised f u =>
      rw [procmSamples_stops hi hd hrows hrow hv] at hdone
      cases hdone

/-- In a batch that completes, every channel reads all its samples. -/
theorem channelReads_of_done : ∀ d < n, channelReadable o s sp (xb d).toNat m d := by
  have hrows : ∀ i ≤ m, ∀ d < n, channelReadable o s sp (xb d).toNat (samplesDone i 0 d) d := by
    intro i hi
    induction i with
    | zero => exact fun d _ => channelReadable_zero o s sp (xb d).toNat d
    | succ i ih =>
      have hrow : ∀ ch ≤ n, ∀ d < n,
          channelReadable o s sp (xb d).toNat (samplesDone i ch d) d := by
        intro ch hch
        induction ch with
        | zero => exact ih (by omega)
        | succ ch ihch => exact channelReads_step ha hdone (by omega) (by omega) (ihch (by omega))
      exact fun d hd => samplesDone_next_row hd ▸ hrow n le_rfl d hd
  exact hrows m le_rfl

end

/-! ### A channel on its own (R311) -/

/-- A command that leaves a running block running completed its procedure. -/
theorem done_of_running {i : Instr} {s t : State} (h : exec i s = .next t) (ht : t.halted = false) :
    allWritten s (readSet i) ∧ bodyOf i s = .done t := by
  obtain ⟨r, -, e⟩ | ⟨hw, ⟨u, hu, e⟩ | ⟨r, u, -, e⟩⟩ := exec_cases i s <;>
    obtain rfl := Host.Outcome.next.inj (e.symm.trans h)
  · cases ht
  · exact ⟨hw, hu⟩
  · cases ht

/-- What a completed `PROCM` of samples and channels establishes: its checks held, and its loops
completed. -/
theorem procmBody_done {o : Order} {s t : State} (hn : (s.reg .nch).toNat ≠ 0)
    (hm : (s.reg .ns).toNat ≠ 0) (h : procmBody o s = .done t) :
    coefsValid s.num (loadCoef o s) = true ∧ ∃ xb yb, ProcmReady o s xb yb ∧
      procmSamples o (loadCoef o s) (s.reg .sptr).toNat (s.reg .nch).toNat (s.reg .ns).toNat
        (channelRuns (s.reg .nch).toNat xb yb) s = .done t := by
  have hv : coefsValid s.num (loadCoef o s) = true := by
    by_contra hv
    rw [procmBody_coefCheck_error (coefCheck_invalid (Bool.eq_false_iff.mpr hv))] at h
    cases h
  refine ⟨hv, ?_⟩
  cases hp : procmPlan o s with
  | error r => rw [procmBody_procmPlan_error hv hn hm hp] at h; cases h
  | ok runs =>
    obtain ⟨xb, yb, hready, rfl⟩ := (procmPlan_ok_iff hn hm).mp hp
    exact ⟨xb, yb, hready, procmBody_of_procmPlan hv hn hm hp ▸ h⟩

/-- The state in which `PROCN` runs on a channel alone: its bases in the pointer registers and its
cell in the state registers. -/
def channelState (o : Order) (xb yb : Word) (st : Cell Word) (s : State) : State :=
  setRegCell o st ((s.setReg .xptr xb).setReg .yptr yb)

section
variable (o : Order) (xb yb : Word) (st : Cell Word) (s : State)

theorem keeps_channelState :
    Keeps (.xptr :: .yptr :: stateRegs o) s (channelState o xb yb st s) :=
  ((Keeps.setReg (by simp) s xb).trans (Keeps.setReg (by simp) _ yb)).trans
    ((keeps_setRegCell o st _).mono fun _ h => by simp [h])

theorem reg_xptr_channelState : (channelState o xb yb st s).reg .xptr = xb := by
  rw [channelState, (keeps_setRegCell o st _).reg .xptr (by cases o <;> decide),
    reg_setReg_ne _ _ (by decide), reg_setReg_same]

theorem reg_yptr_channelState : (channelState o xb yb st s).reg .yptr = yb := by
  rw [channelState, (keeps_setRegCell o st _).reg .yptr (by cases o <;> decide), reg_setReg_same]

theorem channelState_mem : (channelState o xb yb st s).mem = s.mem := setRegCell_mem o st _

theorem loadCoef_channelState : loadCoef o (channelState o xb yb st s) = loadCoef o s :=
  (keeps_channelState o xb yb st s).loadCoef (by cases o <;> decide)

/-- The state registers hold the part of a written cell that their order has. -/
theorem regCell_setRegCell_agrees :
    (regCell o (setRegCell o st s)).s1 = st.s1 ∧
      (o = .second → regCell o (setRegCell o st s) = st) := by
  cases o with
  | first => simp [regCell, setRegCell]
  | second => simp [regCell_setRegCell (o := .second) (fun h => nomatch h)]

theorem written_setRegCell {r : Reg} (hr : r ∈ stateRegs o) :
    (setRegCell o st s).written r = true := by
  cases o with
  | first =>
    obtain rfl := List.mem_singleton.mp hr
    exact written_setReg_same _ _ _
  | second =>
    obtain rfl | hr := List.mem_cons.mp hr
    · rw [setRegCell, written_setReg_ne _ _ (by decide), written_setReg_same]
    · obtain rfl := List.mem_singleton.mp hr
      exact written_setReg_same _ _ _

end

theorem readSet_procmCommand (o : Order) :
    readSet (procmCommand o) = coefRegsOf o ++ [.xptr, .yptr, .sptr, .ns, .nch] := by
  cases o <;> rfl

theorem allWritten_channelState {o : Order} {s : State} (xb yb : Word) (st : Cell Word)
    (hw : allWritten s (readSet (procmCommand o))) :
    allWritten (channelState o xb yb st s) (readSet (procnCommand o)) := by
  have hptrs := allWritten_setReg (allWritten_setReg hw .xptr xb) .yptr yb
  have hkept := allWritten_setRegCell hptrs o st
  rw [readSet_procmCommand] at hkept
  rw [readSet_procnCommand]
  intro r hr
  obtain hr | hr := List.mem_append.mp hr
  · obtain hr | hr := List.mem_append.mp hr
    · exact hkept r (List.mem_append_left _ hr)
    · exact written_setRegCell o st _ hr
  · have hsub : ∀ r ∈ [Reg.xptr, .yptr, .ns], r ∈ [Reg.xptr, .yptr, .sptr, .ns, .nch] := by decide
    exact hkept r (List.mem_append_right _ (hsub r hr))

/-- A channel run over some samples starts from a finite cell (R300, R301). -/
theorem cellFinite_of_channelRun {N : Num} {c : Coefs Word} {st : Cell Word} {xs : List Word}
    {ys : List Word} {st' : Cell Word} (hxs : xs ≠ []) (h : channelRun N c st xs = some (ys, st')) :
    cellFinite (orderOf c) st = true := by
  obtain ⟨-, sts, rfl, -, hs⟩ := channelRun_trace.mp h
  exact (hs 0 (List.length_pos_iff.mpr hxs)).2.1

/-- Over the inputs of a channel and from its cell, `PROCN` completes with the channel's run. -/
theorem exec_procn_channelState {o : Order} {s : State} {sp c : Nat} {xb yb : Word}
    {xs ys : List Word} {st st0 st' : Cell Word} (hw : allWritten s (readSet (procmCommand o)))
    (hv : coefsValid s.num (loadCoef o s) = true) (hm : (s.reg .ns).toNat ≠ 0)
    (hrx : runInMemory s xb.toNat (s.reg .ns).toNat)
    (hry : runInMemory s yb.toNat (s.reg .ns).toNat)
    (ha : sameOrApart xb.toNat yb.toNat (s.reg .ns).toNat)
    (hreads : channelReads o s sp xb.toNat (s.reg .ns).toNat c xs ys st0 st')
    (hst : cellHolds s.params.byteOrder o s.mem (cellAddr (orderWords o) sp c) st) :
    ∃ u, exec (procnCommand o) (channelState o xb yb st s) = .next u ∧
      u.params = s.params ∧ u.halted = s.halted ∧ runHolds s.params.byteOrder u.mem yb.toNat ys ∧
      (regCell o u).s1 = st'.s1 ∧ (o = .second → regCell o u = st') := by
  obtain ⟨hlen, hxs, hst0, hrun⟩ := hreads
  have hkeeps := keeps_channelState o xb yb st s
  have hload := loadCoef_channelState o xb yb st s
  have hns : (channelState o xb yb st s).reg .ns = s.reg .ns :=
    hkeeps.reg .ns (by cases o <;> decide)
  obtain ⟨e1, e2⟩ := cellHolds_unique (hst0 hm) hst
  obtain ⟨f1, f2⟩ := regCell_setRegCell_agrees o st ((s.setReg .xptr xb).setReg .yptr yb)
  obtain ⟨st2, hrun2, g1, g2⟩ := channelRun_congr (f1.trans e1)
    (fun ho => (f2 ((orderOf_loadCoef o s).symm.trans ho)).trans
      (e2 ((orderOf_loadCoef o s).symm.trans ho))) hrun
  have hfinite := cellFinite_of_channelRun
    (List.ne_nil_of_length_pos (hlen ▸ Nat.pos_of_ne_zero hm)) hrun2
  rw [orderOf_loadCoef] at hfinite
  obtain ⟨m, hexec, -, hout, -⟩ := procnCompletes o (channelState o xb yb st s) (s.reg .ns).toNat
    xb.toNat yb.toNat xs ys st2 (allWritten_channelState xb yb st hw)
    (by rw [hkeeps.num, hload]; exact hv) hfinite (by rw [hns])
    (by rw [reg_xptr_channelState]) (by rw [reg_yptr_channelState])
    (fun _ => by rw [runInMemory, runInMemory, hkeeps.params]; exact ⟨hrx, hry, ha⟩) hlen
    (by rw [hkeeps.params, channelState_mem]; exact hxs) (by rw [hkeeps.num, hload]; exact hrun2)
  obtain ⟨k1, k2⟩ := regCell_setRegCell_agrees o st2 (channelState o xb yb st s)
  refine ⟨_, hexec, (setRegCell_params o st2 _).trans hkeeps.params,
    (keeps_setRegCell o st2 _).halted.trans hkeeps.halted, hkeeps.params ▸ hout, ?_⟩
  rw [regCell_with_mem]
  exact ⟨k1.trans g1, fun ho => (k2 ho).trans (g2 ((orderOf_loadCoef o s).trans ho))⟩

/-! ### The statements -/

/-- Settles O54: with no channel or no sample there is no step; otherwise the checks pass and the
loops run over all the samples of all the channels. -/
theorem procmCompletes : Obligations.ProcmCompletes := by
  intro o s m n px py sp hw hv hm hn hpx hpy hsp
  subst hm hn hpx hpy hsp
  refine ⟨fun hz => exec_of_done hw (bodyOf_procmCommand o ▸ procmBody_empty hv hz), ?_⟩
  intro xb yb xs ys st st' hn hm hx hy hs hptr hch hown hpxs hpys hreads
  have hready : ProcmReady o s xb yb := ⟨hx, hy, hs, hptr, hch, hown, hpxs, hpys⟩
  obtain ⟨m1, m2, hrows, hrow, hleft, hframe⟩ := procmLoop (i := (s.reg .ns).toNat) (ch := 0)
    (orderOf_loadCoef o s) hready.contract.procmApart (fun d hd => getD_channelRuns hd) le_rfl
    (fun h => absurd rfl h) (Nat.zero_le _)
    fun d hd =>
      let ⟨hlen, hxs, hst, hrun⟩ := hreads d hd
      ⟨hlen, hxs, fun _ => hst, hrun⟩
  cases hrow
  refine ⟨m1, exec_of_done hw ?_, fun c hc => ⟨(hleft c hc).1, (hleft c hc).2 hm⟩,
    fun a hout hcells => hframe a hout fun c hc _ h => hcells (inRun_of_cell hc h)⟩
  rw [bodyOf_procmCommand, procmBody_of_ready hv hn hm hready]
  exact hrows

/-- Settles O56: the steps before it are done, and the sample of channel `ch` meets its input as at
the start and its cell as its own samples left it. -/
theorem procmFaultKeepsCompletedSteps : Obligations.ProcmFaultKeepsCompletedSteps := by
  intro o s m n px py sp k ch xb yb xs ys st st' f hw hv hm hn hpx hpy hsp hx hy hs hptr hchans hown
    hpxs hpys hk hch hreads hf
  subst hm hn hpx hpy hsp
  have hready : ProcmReady o s xb yb := ⟨hx, hy, hs, hptr, hchans, hown, hpxs, hpys⟩
  have ha := hready.contract.procmApart
  obtain ⟨m1, m2, hrows, hrow, hleft, hframe⟩ := procmLoop (orderOf_loadCoef o s) ha
    (fun d hd => getD_channelRuns hd) hk.le (fun _ => hk) hch.le
    fun d hd =>
      let ⟨hlen, hxs, hst, hrun⟩ := hreads d hd
      ⟨hlen, hxs, fun hz => hst (samplesDone_ne_zero_iff.mp hz), hrun⟩
  have hself : channelReads o s (s.reg .sptr).toNat (xb ch).toNat k ch (xs ch) (ys ch) (st ch)
      (st' ch) := by
    obtain ⟨hlen, hxs, hst, hrun⟩ := hreads ch hch
    exact ⟨by rwa [if_neg (Nat.lt_irrefl ch)] at hlen, hxs, fun hz => hst (.inl hz), hrun⟩
  obtain ⟨hunread, hheld⟩ := cell_met_by_sample ha hk hch hself
    (fun hz => (hleft ch hch).2 (by rwa [samplesDone_self])) hframe
  have hraise := procmValues_of_sampleStops (m := m2) (orderOf_loadCoef o s) hf
    (procmFrame_input ha hk hch hframe) hunread hheld
  refine ⟨m2, exec_of_raised hw ?_, fun c hc => ⟨(hleft c hc).1, fun hz =>
    (hleft c hc).2 (samplesDone_ne_zero_iff.mpr hz)⟩, fun a hout hcells => hframe a (fun c hc => ?_)
    fun c hc hz => hcells c hc (samplesDone_ne_zero_iff.mp hz)⟩
  · rw [bodyOf_procmCommand, procmBody_of_ready hv (by omega) (by omega) hready]
    exact procmSamples_stops hk hch hrows hrow (procmSample_raises hch hraise)
  · obtain ⟨hlen, -, -, hrun⟩ := hreads c hc
    rw [samplesDone, ← hlen, ← (channelRun_trace.mp hrun).1]
    exact hout c hc

/-- Settles O57: a completed `PROCM` passed its checks, and each channel read values that are all
finite; over the same inputs and cell `PROCN` completes with the same channel run. -/
theorem channelsAreIndependent : Obligations.ChannelsAreIndependent := by
  intro o s t c xb yb st hh hexec ht hm hc hxb hyb hst
  have hn : (s.reg .nch).toNat ≠ 0 := Nat.ne_zero_of_lt hc
  obtain ⟨hw, hbody⟩ := done_of_running hexec ht
  obtain ⟨hv, xbs, ybs, hready, hloops⟩ := procmBody_done hn hm (bodyOf_procmCommand o ▸ hbody)
  have : Nonempty (Cell Word) := ⟨st⟩
  choose! xs ys st0 st' hreads using channelReads_of_done hready.contract.procmApart hloops
  obtain ⟨hx, hy, hs, hptr, hchans, hown, hpxs, hpys⟩ := hready
  have hcompletes := (procmCompletes o s _ _ _ _ _ hw hv rfl rfl rfl rfl rfl).2
  obtain ⟨mem, hprocm, hout, -⟩ := hcompletes xbs ybs xs ys st0 st' hn hm hx hy hs hptr hchans hown
    hpxs hpys fun d hd =>
      let ⟨hlen, hxs, hst, hrun⟩ := hreads d hd
      ⟨hlen, hxs, hst hm, hrun⟩
  obtain rfl := Host.Outcome.next.inj (hprocm.symm.trans hexec)
  obtain ⟨hxbc, hybc, hrx, hry⟩ := hptr c hc
  obtain rfl := Option.some.inj (hxbc.symm.trans hxb)
  obtain rfl := Option.some.inj (hybc.symm.trans hyb)
  obtain ⟨u, hprocn, hparams, hhalted, houtn, h1, h2⟩ := exec_procn_channelState hw hv hm hrx hry
    (sameOrApart_comm.mp (hown c hc).1) (hreads c hc) hst
  refine ⟨u, hprocn, hhalted.trans hh, fun j hj => ?_, (cellHolds_congr h1 h2).mpr (hout c hc).2⟩
  obtain ⟨hlen, -, -, hrun⟩ := hreads c hc
  have hys : j < (ys c).length := by rw [(channelRun_trace.mp hrun).1, hlen]; exact hj
  exact ((hout c hc).1 j hys).trans (hparams ▸ houtn j hys).symm

end Sys2Proof.Machine
end

section
/-! The halted block and the faults that enter it (`60_exceptions.md`; O13, O22): while halted a host
action reaches at most the value registers, memory and the host's own queue and record; and a command
that faults other than at a step of a batch has written nothing. -/

namespace Sys2Proof.Machine

/-! ### Register numbers that a running block rejects (R36 to R40) -/

theorem writable_eq_false_iff {n : Fin 32} :
    HostOp.writable n = false ↔ 24 ≤ n.val ∧ n.val ≤ 30 := by
  revert n; decide

theorem readable_eq_false_iff {n : Fin 32} :
    HostOp.readable n = false ↔ 24 ≤ n.val ∧ n.val ≤ 26 := by
  revert n; decide

/-! ### One step of the halted block (R345) -/

section
variable {s : State} {op : HostOp} {rest : List HostOp}

/-- A halted block ignores an operation that would fault, but for what a read records. -/
theorem step_halted_of_not_wellFormed (hq : s.hostQueue = op :: rest) (hh : s.halted = true)
    (hop : op.wellFormed s.params = false) :
    ∃ obs, step s = .next { s with hostQueue := rest, observed := obs } := by
  cases op with
  | wr n v =>
    obtain ⟨hn, hn'⟩ := writable_eq_false_iff.mp hop
    exact ⟨s.observed, step_wr_other_halted hq hn hn' hh⟩
  | rd n =>
    obtain ⟨hn, hn'⟩ := readable_eq_false_iff.mp hop
    exact ⟨.reg n none :: s.observed,
      (step_rd_reserved hq hn hn').trans (congrArg _ (hostFault_halted _ _ hh))⟩
  | wrm a v =>
    have ha : ¬hostAddrOk a s = true := Bool.eq_false_iff.mp hop
    exact ⟨s.observed, (step_wrm_bad hq ha).trans (congrArg _ (hostFault_halted _ _ hh))⟩
  | rdm a =>
    have ha : ¬hostAddrOk a s = true := Bool.eq_false_iff.mp hop
    exact ⟨.mem a none :: s.observed,
      (step_rdm_bad hq ha).trans (congrArg _ (hostFault_halted _ _ hh))⟩
  | por => cases hop

/-- No action but POR changes the fault registers, `CMD`, `halted` or the configuration of a halted
block: it reaches the value registers, memory, and the host's queue and record alone (R42, R345). -/
theorem step_halted (hq : s.hostQueue = op :: rest) (hh : s.halted = true) (hpor : op ≠ .por) :
    ∃ regs wr mem obs, step s = .next { s with
      hostQueue := rest, regs := regs, wr := wr, mem := mem, observed := obs } := by
  cases hop : op.wellFormed s.params with
  | false =>
    obtain ⟨obs, hstep⟩ := step_halted_of_not_wellFormed hq hh hop
    exact ⟨s.regs, s.wr, s.mem, obs, hstep⟩
  | true =>
    cases op with
    | wr n v =>
      obtain hn | rfl : n.val < 24 ∨ n = 31 := by
        have := writable_eq_false_iff.not.mp (Bool.ne_false_iff.mpr hop)
        omega
      · exact ⟨_, _, s.mem, s.observed, (step_wr hq).trans (hostWriteReg_below hn v _)⟩
      · exact ⟨s.regs, s.wr, s.mem, s.observed, (step_wr_cmd hq).trans (issueCommand_halted v hh)⟩
    | rd n =>
      have hn : n.val < 24 ∨ 27 ≤ n.val := by
        have := readable_eq_false_iff.not.mp (Bool.ne_false_iff.mpr hop)
        omega
      exact ⟨s.regs, s.wr, s.mem, _, step_rd_readable hq hn⟩
    | wrm a v => exact ⟨s.regs, s.wr, _, s.observed, step_wrm_ok hq hop⟩
    | rdm a => exact ⟨s.regs, s.wr, s.mem, _, step_rdm_ok hq hop⟩
    | por => exact absurd rfl hpor

end

/-! ### The state in which a command faults (R346) -/

/-- A procedure that raises has written nothing, or it is at a step of a batch. -/
theorem bodyOf_raised_cases {i : Instr} {s t : State} {r : Raise} (h : bodyOf i s = .raised r t) :
    t = s ∨ (isBatch i = true ∧ stepRaise r) := by
  cases hb : isBatch i with
  | false => exact .inl (bodyOf_raised hb h)
  | true => exact (bodyOf_raised_at_step hb h).imp_right fun hr => ⟨rfl, hr⟩

/-- `STATUS` words of causes that no step raises: they are checked before a command's first write. -/
theorem statusOfCause_not_mem_of_stepRaise {r : Raise} (h : stepRaise r) :
    statusOfCause r.cause ∉ [0x102#32, 0x103#32, 0x104#32, 0x105#32, 0x108#32, 0x109#32] := by
  obtain hc | hc | hc := h <;> rw [hc] <;> decide

/-- A command that halts a running block enters a fault in the state it began in, or at a step of a
batch. -/
theorem exec_halts_cases {i : Instr} {s t : State} (hs : s.halted = false)
    (h : exec i s = .next t) (ht : t.halted = true) :
    (∃ r, t = faultEntry r (encode i) s) ∨
    (isBatch i = true ∧ ∃ r u, stepRaise r ∧ t = faultEntry r (encode i) u) := by
  rcases exec_cases i s with ⟨_, _, e⟩ | ⟨_, ⟨u, hu, e⟩ | ⟨r, u, hu, e⟩⟩ <;>
    obtain rfl := Host.Outcome.next.inj (e.symm.trans h)
  · exact .inl ⟨_, rfl⟩
  · have hk := bodyOf_keeps i s
    rw [hu] at hk
    exact absurd (ht.symm.trans (hk.halted.trans hs)) (by decide)
  · obtain rfl | ⟨hb, hr⟩ := bodyOf_raised_cases hu
    · exact .inl ⟨r, rfl⟩
    · exact .inr ⟨hb, r, u, hr, rfl⟩

/-! ### The statements -/

/-- Settles O13: an action other than POR leaves `halted`, the fault registers and `CMD`; an ignored
one leaves the value registers and memory too. -/
theorem haltedUntilPowerOnReset : Obligations.HaltedUntilPowerOnReset := by
  intro s op rest hq hh
  refine ⟨fun hpor => ?others, ?command, step_halted_of_not_wellFormed hq hh, ?reset⟩
  case others =>
    obtain ⟨regs, wr, mem, obs, hstep⟩ := step_halted hq hh hpor
    exact ⟨_, hstep, hh, rfl, rfl, rfl, rfl, rfl, rfl⟩
  case command =>
    rintro ⟨w, rfl⟩
    exact (step_wr_cmd hq).trans (issueCommand_halted w hh)
  case reset =>
    rintro rfl
    exact ⟨_, step_por hq, powerOnReset_halted _⟩

/-- Settles O22: a fault is entered in the state the command began in, unless it is at a step of a
batch, whose causes are none of those listed. -/
theorem faultsBeforeTheFirstWriteArePrecise : Obligations.FaultsBeforeTheFirstWriteArePrecise := by
  intro i s t hs h ht hpre
  obtain ⟨r, rfl⟩ | ⟨hb, r, u, hr, rfl⟩ := exec_halts_cases hs h ht
  · rfl
  · obtain hb' | hmem := hpre
    · exact absurd (hb.symm.trans hb') (by decide)
    · exact absurd hmem (statusOfCause_not_mem_of_stepRaise hr)

end Sys2Proof.Machine
end

section
/-! The step as a total function and the host's round trip (`70_reset_and_hazards.md`; O16, O60):
every host action answers a next state and reaches neither the configuration nor the actions still
pending, and a word written through the port is what the next read records. -/

namespace Sys2Proof.Machine

/-! ### What no operation of the host port reaches -/

/-- The configuration (R380) and the host's pending actions (log 9) are as before. -/
structure KeepsConfigAndQueue (s t : State) : Prop where
  params : t.params = s.params
  hostQueue : t.hostQueue = s.hostQueue

theorem KeepsConfigAndQueue.refl (s : State) : KeepsConfigAndQueue s s := ⟨rfl, rfl⟩

theorem KeepsConfigAndQueue.trans {s t u : State} (h : KeepsConfigAndQueue s t)
    (h' : KeepsConfigAndQueue t u) : KeepsConfigAndQueue s u :=
  ⟨h'.params.trans h.params, h'.hostQueue.trans h.hostQueue⟩

theorem faultEntry_keepsConfigAndQueue (r : Raise) (w : Word) (s : State) :
    KeepsConfigAndQueue s (faultEntry r w s) :=
  ⟨faultEntry_params r w s, faultEntry_hostQueue r w s⟩

theorem storeCommand_keepsConfigAndQueue (w : Word) (s : State) :
    KeepsConfigAndQueue s (storeCommand w s) :=
  ⟨storeCommand_params w s, storeCommand_hostQueue w s⟩

theorem recordRead_keepsConfigAndQueue (r : HostRead) (s : State) :
    KeepsConfigAndQueue s (recordRead r s) :=
  ⟨recordRead_params r s, recordRead_hostQueue r s⟩

theorem hostFault_keepsConfigAndQueue (c : Cause) (n : Nat) (s : State) :
    KeepsConfigAndQueue s (hostFault c n s) := by
  cases hh : s.halted with
  | true =>
    rw [hostFault_halted c n hh]
    exact .refl s
  | false =>
    rw [hostFault_running c n hh]
    exact faultEntry_keepsConfigAndQueue ..

theorem exec_keepsConfigAndQueue {i : Instr} {s t : State} (h : exec i s = .next t) :
    KeepsConfigAndQueue s t := by
  obtain ⟨-, -, -, hparams, hqueue, -⟩ := exec_registerFrame h
  exact ⟨hparams, hqueue⟩

theorem issueCommand_keepsConfigAndQueue {w : Word} {s t : State}
    (h : issueCommand w s = .next t) : KeepsConfigAndQueue s t := by
  cases hh : s.halted with
  | true =>
    obtain rfl := Host.Outcome.next.inj ((issueCommand_halted w hh).symm.trans h)
    exact .refl s
  | false =>
    cases hw : isCommand w with
    | true =>
      obtain ⟨i, hi⟩ := isCommand_iff.mp hw
      exact (storeCommand_keepsConfigAndQueue w s).trans
        (exec_keepsConfigAndQueue ((issueCommand_legal hh hi).symm.trans h))
    | false =>
      obtain rfl := Host.Outcome.next.inj ((issueCommand_illegal hh hw).symm.trans h)
      exact (storeCommand_keepsConfigAndQueue w s).trans (faultEntry_keepsConfigAndQueue ..)

theorem hostWriteReg_keepsConfigAndQueue {n : Fin 32} {v : Word} {s t : State}
    (h : hostWriteReg n v s = .next t) : KeepsConfigAndQueue s t := by
  obtain hn | ⟨hn, hn'⟩ | rfl : n.val < 24 ∨ (24 ≤ n.val ∧ n.val ≤ 30) ∨ n = 31 := by omega
  · obtain rfl := Host.Outcome.next.inj ((hostWriteReg_below hn v s).symm.trans h)
    exact ⟨rfl, rfl⟩
  · obtain rfl := Host.Outcome.next.inj ((hostWriteReg_other hn hn' v s).symm.trans h)
    exact hostFault_keepsConfigAndQueue ..
  · exact issueCommand_keepsConfigAndQueue ((hostWriteReg_cmd v s).symm.trans h)

theorem hostReadReg_keepsConfigAndQueue (n : Fin 32) (s : State) :
    KeepsConfigAndQueue s (hostReadReg n s) := by
  obtain hn | ⟨hn, hn'⟩ : (n.val < 24 ∨ 27 ≤ n.val) ∨ (24 ≤ n.val ∧ n.val ≤ 26) := by omega
  · rw [hostReadReg_readable hn]
    exact recordRead_keepsConfigAndQueue ..
  · rw [hostReadReg_reserved hn hn']
    exact (recordRead_keepsConfigAndQueue _ s).trans (hostFault_keepsConfigAndQueue ..)

theorem hostWriteMem_keepsConfigAndQueue (a v : Word) (s : State) :
    KeepsConfigAndQueue s (hostWriteMem a v s) := by
  by_cases ha : hostAddrOk a s = true
  · rw [hostWriteMem_ok ha]
    exact ⟨memWrite_params .., memWrite_hostQueue ..⟩
  · rw [hostWriteMem_bad ha]
    exact hostFault_keepsConfigAndQueue ..

theorem hostReadMem_keepsConfigAndQueue (a : Word) (s : State) :
    KeepsConfigAndQueue s (hostReadMem a s) := by
  by_cases ha : hostAddrOk a s = true
  · rw [hostReadMem_ok ha]
    exact recordRead_keepsConfigAndQueue ..
  · rw [hostReadMem_bad ha]
    exact (recordRead_keepsConfigAndQueue _ s).trans (hostFault_keepsConfigAndQueue ..)

/-- Every operation of the host port, a command and POR included, keeps the configuration and the
actions still pending (R380). -/
theorem hostOperation_keepsConfigAndQueue {op : HostOp} {s t : State}
    (h : hostOperation op s = .next t) : KeepsConfigAndQueue s t := by
  cases op with
  | wr n v => exact hostWriteReg_keepsConfigAndQueue h
  | rd n => cases h; exact hostReadReg_keepsConfigAndQueue n s
  | wrm a v => cases h; exact hostWriteMem_keepsConfigAndQueue a v s
  | rdm a => cases h; exact hostReadMem_keepsConfigAndQueue a s
  | por => cases h; exact ⟨powerOnReset_params s, powerOnReset_hostQueue s⟩

/-! ### Two steps, and a read of what was written -/

/-- Two steps of the machine that each answer a next state. -/
theorem run_two {s t u : State} (hst : step s = .next t) (htu : step t = .next u) :
    Host.Core.run Sys2Proof.core 2 s = .next u := by
  simp only [Host.Core.run, Sys2Proof.core, hst, htu]

/-- A write of a value register, as a step (`10_state.md` R43). -/
theorem step_wr_value {s : State} {r : Reg} {v : Word} {rest : List HostOp}
    (h : s.hostQueue = .wr ((regNum r).castLE (by decide)) v :: rest) :
    step s = .next ({ s with hostQueue := rest }.setReg r v) :=
  (step_wr h).trans (hostWriteReg_value r v _)

/-- A read of a written value register records its word (R35). -/
theorem step_rd_written {s : State} {r : Reg} {rest : List HostOp}
    (h : s.hostQueue = .rd ((regNum r).castLE (by decide)) :: rest) (hw : s.written r = true) :
    step s = .next { s with
      hostQueue := rest,
      observed := .reg ((regNum r).castLE (by decide)) (some (s.reg r)) :: s.observed } := by
  have hvalue : (if s.written r then some (s.reg r) else none) = some (s.reg r) := if_pos hw
  rw [step_rd h, hostReadReg_value, ← hvalue]
  rfl

/-! ### The statements -/

/-- Settles O16: an idle step holds the state; any other performs the oldest action on the rest of the
queue, and no operation reaches the configuration or that rest. -/
theorem stepAnswersNext : Obligations.StepAnswersNext := by
  intro s
  cases hq : s.hostQueue with
  | nil => exact ⟨s, step_idle hq, rfl, hq, fun _ => rfl⟩
  | cons op rest =>
    obtain ⟨t, ht⟩ := hostOperation_answers_next op { s with hostQueue := rest }
    obtain ⟨hparams, hqueue⟩ := hostOperation_keepsConfigAndQueue ht
    exact ⟨t, (step_cons hq).trans ht, hparams, hqueue, nofun⟩

/-- Settles O60: the first step is the plain write, of a register or of a word, and the second records
what the place then holds. -/
theorem hostRoundTrip : Obligations.HostRoundTrip := by
  refine ⟨fun s r v rest hq => ?register, fun s a v rest h4 hs hq => ?memory⟩
  case register =>
    refine ⟨_, run_two (step_wr_value hq) (step_rd_written rfl (written_setReg_same _ r v)), ?_⟩
    simp only [reg_setReg_same, setReg_observed]
  case memory =>
    have ha : hostAddrOk a s = true := hostAddrOk_iff.mpr ⟨h4, hs⟩
    refine ⟨_, run_two (step_wrm_ok hq ha) (step_rdm_ok rfl ha), ?_⟩
    simp only [State.memRead, readWord_writeWord_same]

end Sys2Proof.Machine
end
